-- ==== Sys2Proof/Word.lean ====
section
/-! DEFINITION. The words of the block and the names of its registers, channels and sub-timers.
Widths: 20_memory.md R41 (every access is one byte), 30_encoding.md R60, R61 (address 16 bits, data 8,
cycles 32, kind 3), 10_state.md R11 (the 21 registers). -/

namespace Sys2Proof

/-- A register value, an Audio RAM byte, `cmd_data`, `rsp_rdata`. -/
abbrev Byte := BitVec 8

/-- `cmd_addr`, a 16-bit absolute address. -/
abbrev Addr := BitVec 16

/-- `cmd_kind`, the 3-bit command kind. -/
abbrev Kind := BitVec 3

/-- `cmd_cycles`, `CYC_W = 32` bits (00_scope.md R6). -/
abbrev Cycles := BitVec 32

/-- `sel = {cmd_kind, cmd_addr}`, the 19-bit selector (30_encoding.md R62). -/
abbrev Selector := BitVec 19

/-- The 21 byte registers of the Register Bank (10_state.md R11). -/
inductive Reg where
  | nr10
  | nr11
  | nr12
  | nr13
  | nr14
  | nr21
  | nr22
  | nr23
  | nr24
  | nr30
  | nr31
  | nr32
  | nr33
  | nr34
  | nr41
  | nr42
  | nr43
  | nr44
  | nr50
  | nr51
  | nr52
  deriving DecidableEq, Repr

/-- The four sound channels. -/
inductive Channel where
  | ch1
  | ch2
  | ch3
  | ch4
  deriving DecidableEq, Repr

/-- The three channels with a volume envelope, 1, 2 and 4 (10_state.md R16). -/
inductive EnvChannel where
  | ch1
  | ch2
  | ch4
  deriving DecidableEq, Repr

/-- The four sub-timers of the Cycle Scheduler (10_state.md R14): frame sequencer, envelope, sweep, length. -/
inductive SubTimer where
  | fs
  | env
  | swp
  | len
  deriving DecidableEq, Repr

/-- All registers, in the order of the table of R11 (its index column). -/
def Reg.all : List Reg :=
  [.nr10, .nr11, .nr12, .nr13, .nr14] ++ [.nr21, .nr22, .nr23, .nr24] ++
    [.nr30, .nr31, .nr32, .nr33, .nr34] ++ [.nr41, .nr42, .nr43, .nr44] ++ [.nr50, .nr51, .nr52]

end Sys2Proof
end

