-- ==== Sys2Proof/Machine/AddressMap.lean ====
section
/-! DEFINITION. The register address map (20_memory.md R50, 30_encoding.md R63) and the registers of each channel
(10_state.md R11, columns `ch` and `col`). -/

namespace Sys2Proof

/-- The one address of each register (R63). -/
def Reg.addr : Reg → Addr
  | .nr10 => 0xFF10
  | .nr11 => 0xFF11
  | .nr12 => 0xFF12
  | .nr13 => 0xFF13
  | .nr14 => 0xFF14
  | .nr21 => 0xFF16
  | .nr22 => 0xFF17
  | .nr23 => 0xFF18
  | .nr24 => 0xFF19
  | .nr30 => 0xFF1A
  | .nr31 => 0xFF1B
  | .nr32 => 0xFF1C
  | .nr33 => 0xFF1D
  | .nr34 => 0xFF1E
  | .nr41 => 0xFF20
  | .nr42 => 0xFF21
  | .nr43 => 0xFF22
  | .nr44 => 0xFF23
  | .nr50 => 0xFF24
  | .nr51 => 0xFF25
  | .nr52 => 0xFF26

/-- The register at an address: exact match on all 16 bits, no mirroring (R63); `none` at an unrecognized
address (R65). -/
def Reg.ofAddr (a : Addr) : Option Reg :=
  Reg.all.find? fun r => r.addr == a

/-- `NRc1`, the length register of channel `c` (R11, column 1). -/
def Channel.nrc1 : Channel → Reg
  | .ch1 => .nr11
  | .ch2 => .nr21
  | .ch3 => .nr31
  | .ch4 => .nr41

/-- `NRc4`, the restart register of channel `c` (R11, column 4; 41_register_dispatch.md R112). -/
def Channel.nrc4 : Channel → Reg
  | .ch1 => .nr14
  | .ch2 => .nr24
  | .ch3 => .nr34
  | .ch4 => .nr44

/-- `NRc2`, the envelope register of an envelope channel (R11, column 2; 42_envelope.md R151). -/
def EnvChannel.nrc2 : EnvChannel → Reg
  | .ch1 => .nr12
  | .ch2 => .nr22
  | .ch4 => .nr42

/-- The envelope of a channel; channel 3 has none (45_trigger.md R191). -/
def Channel.envelope? : Channel → Option EnvChannel
  | .ch1 => some .ch1
  | .ch2 => some .ch2
  | .ch3 => none
  | .ch4 => some .ch4

end Sys2Proof
end

