-- ==== Sys2Proof/Syntax.lean ====
section
/-! DEFINITION. The host commands, one constructor per row of spec/opcode_table.json, and the raw command record
of the port (30_encoding.md R60). -/

namespace Sys2Proof

/-- A host command, decoded ("instruction" means "host command", 00_scope.md R2). -/
inductive Instr where
  /-- `WR` to NR10, 0xFF10; `b` is `cmd_data`. -/
  | wrNr10 (b : Byte)
  /-- `WR` to NR11, 0xFF11; `b` is `cmd_data`. -/
  | wrNr11 (b : Byte)
  /-- `WR` to NR12, 0xFF12; `b` is `cmd_data`. -/
  | wrNr12 (b : Byte)
  /-- `WR` to NR13, 0xFF13; `b` is `cmd_data`. -/
  | wrNr13 (b : Byte)
  /-- `WR` to NR14, 0xFF14; `b` is `cmd_data`. -/
  | wrNr14 (b : Byte)
  /-- `WR` to NR21, 0xFF16; `b` is `cmd_data`. -/
  | wrNr21 (b : Byte)
  /-- `WR` to NR22, 0xFF17; `b` is `cmd_data`. -/
  | wrNr22 (b : Byte)
  /-- `WR` to NR23, 0xFF18; `b` is `cmd_data`. -/
  | wrNr23 (b : Byte)
  /-- `WR` to NR24, 0xFF19; `b` is `cmd_data`. -/
  | wrNr24 (b : Byte)
  /-- `WR` to NR30, 0xFF1A; `b` is `cmd_data`. -/
  | wrNr30 (b : Byte)
  /-- `WR` to NR31, 0xFF1B; `b` is `cmd_data`. -/
  | wrNr31 (b : Byte)
  /-- `WR` to NR32, 0xFF1C; `b` is `cmd_data`. -/
  | wrNr32 (b : Byte)
  /-- `WR` to NR33, 0xFF1D; `b` is `cmd_data`. -/
  | wrNr33 (b : Byte)
  /-- `WR` to NR34, 0xFF1E; `b` is `cmd_data`. -/
  | wrNr34 (b : Byte)
  /-- `WR` to NR41, 0xFF20; `b` is `cmd_data`. -/
  | wrNr41 (b : Byte)
  /-- `WR` to NR42, 0xFF21; `b` is `cmd_data`. -/
  | wrNr42 (b : Byte)
  /-- `WR` to NR43, 0xFF22; `b` is `cmd_data`. -/
  | wrNr43 (b : Byte)
  /-- `WR` to NR44, 0xFF23; `b` is `cmd_data`. -/
  | wrNr44 (b : Byte)
  /-- `WR` to NR50, 0xFF24; `b` is `cmd_data`. -/
  | wrNr50 (b : Byte)
  /-- `WR` to NR51, 0xFF25; `b` is `cmd_data`. -/
  | wrNr51 (b : Byte)
  /-- `WR` to NR52, 0xFF26; `b` is `cmd_data`. -/
  | wrNr52 (b : Byte)
  /-- `RD` of NR10, 0xFF10. -/
  | rdNr10
  /-- `RD` of NR11, 0xFF11. -/
  | rdNr11
  /-- `RD` of NR12, 0xFF12. -/
  | rdNr12
  /-- `RD` of NR13, 0xFF13. -/
  | rdNr13
  /-- `RD` of NR14, 0xFF14. -/
  | rdNr14
  /-- `RD` of NR21, 0xFF16. -/
  | rdNr21
  /-- `RD` of NR22, 0xFF17. -/
  | rdNr22
  /-- `RD` of NR23, 0xFF18. -/
  | rdNr23
  /-- `RD` of NR24, 0xFF19. -/
  | rdNr24
  /-- `RD` of NR30, 0xFF1A. -/
  | rdNr30
  /-- `RD` of NR31, 0xFF1B. -/
  | rdNr31
  /-- `RD` of NR32, 0xFF1C. -/
  | rdNr32
  /-- `RD` of NR33, 0xFF1D. -/
  | rdNr33
  /-- `RD` of NR34, 0xFF1E. -/
  | rdNr34
  /-- `RD` of NR41, 0xFF20. -/
  | rdNr41
  /-- `RD` of NR42, 0xFF21. -/
  | rdNr42
  /-- `RD` of NR43, 0xFF22. -/
  | rdNr43
  /-- `RD` of NR44, 0xFF23. -/
  | rdNr44
  /-- `RD` of NR50, 0xFF24. -/
  | rdNr50
  /-- `RD` of NR51, 0xFF25. -/
  | rdNr51
  /-- `RD` of NR52, 0xFF26. -/
  | rdNr52
  /-- `TICK n`: `n` is `cmd_cycles`. -/
  | tick (n : Cycles)
  /-- `WR` to an unrecognized address. -/
  | wrUnmapped (a : Addr) (b : Byte)
  /-- `RD` of an unrecognized address. -/
  | rdUnmapped (a : Addr)
  /-- `RAMWR a, b`. -/
  | ramwr (a : Addr) (b : Byte)
  /-- `RAMRD a`. -/
  | ramrd (a : Addr)
  deriving DecidableEq, Repr

/-- The record presented on the command port, always the same four fields (R60, R77). -/
structure Command where
  /-- `cmd_kind[2:0]` -/
  kind : Kind
  /-- `cmd_addr[15:0]` -/
  addr : Addr
  /-- `cmd_data[7:0]` -/
  data : Byte
  /-- `cmd_cycles[31:0]` -/
  cycles : Cycles
  deriving DecidableEq, Repr

end Sys2Proof
end

