-- ==== Sys2Proof/WellFormed.lean ====
section
/-! DEFINITION. Which commands are well formed: the address of an unmapped access is none of the 21 register
addresses (30_encoding.md R65; opcode_table.json, rows WR_UNMAPPED and RD_UNMAPPED). Every other operand may hold
any value of its width. -/

namespace Sys2Proof

/-- The check, one case per constructor. -/
def Instr.wellFormed : Instr → Bool
  | .wrNr10 _
  | .wrNr11 _
  | .wrNr12 _
  | .wrNr13 _
  | .wrNr14 _
  | .wrNr21 _
  | .wrNr22 _
  | .wrNr23 _
  | .wrNr24 _
  | .wrNr30 _
  | .wrNr31 _
  | .wrNr32 _
  | .wrNr33 _
  | .wrNr34 _
  | .wrNr41 _
  | .wrNr42 _
  | .wrNr43 _
  | .wrNr44 _
  | .wrNr50 _
  | .wrNr51 _
  | .wrNr52 _
  | .rdNr10
  | .rdNr11
  | .rdNr12
  | .rdNr13
  | .rdNr14
  | .rdNr21
  | .rdNr22
  | .rdNr23
  | .rdNr24
  | .rdNr30
  | .rdNr31
  | .rdNr32
  | .rdNr33
  | .rdNr34
  | .rdNr41
  | .rdNr42
  | .rdNr43
  | .rdNr44
  | .rdNr50
  | .rdNr51
  | .rdNr52
  | .tick _ => true
  | .wrUnmapped a _ => (Reg.ofAddr a).isNone
  | .rdUnmapped a => (Reg.ofAddr a).isNone
  | .ramwr _ _ => true
  | .ramrd _ => true

/-- The check as a proposition. -/
abbrev Instr.WellFormed (i : Instr) : Prop := i.wellFormed = true

end Sys2Proof
end

