-- ==== Sys2Proof/Decode.lean ====
section
/-! DEFINITION. Decoding a command record, the opcode table as rows of mask and match, the encoder, and the table's
numbering of a record's bits (30_encoding.md R60 to R66, R75). -/

namespace Sys2Proof

/-- Why a record is no command: kinds 5, 6, 7 are reserved (R66, 60_exceptions.md R220). -/
inductive DecodeError where
  | reservedCommand (kind : Kind)
  deriving DecidableEq, Repr

/-- `sel = {cmd_kind[2:0], cmd_addr[15:0]}` (R62). -/
def Command.sel (c : Command) : Selector := c.kind ++ c.addr

/-- The `WR` command of a register. -/
def Instr.write : Reg → Byte → Instr
  | .nr10, b => .wrNr10 b
  | .nr11, b => .wrNr11 b
  | .nr12, b => .wrNr12 b
  | .nr13, b => .wrNr13 b
  | .nr14, b => .wrNr14 b
  | .nr21, b => .wrNr21 b
  | .nr22, b => .wrNr22 b
  | .nr23, b => .wrNr23 b
  | .nr24, b => .wrNr24 b
  | .nr30, b => .wrNr30 b
  | .nr31, b => .wrNr31 b
  | .nr32, b => .wrNr32 b
  | .nr33, b => .wrNr33 b
  | .nr34, b => .wrNr34 b
  | .nr41, b => .wrNr41 b
  | .nr42, b => .wrNr42 b
  | .nr43, b => .wrNr43 b
  | .nr44, b => .wrNr44 b
  | .nr50, b => .wrNr50 b
  | .nr51, b => .wrNr51 b
  | .nr52, b => .wrNr52 b

/-- The `RD` command of a register. -/
def Instr.read : Reg → Instr
  | .nr10 => .rdNr10
  | .nr11 => .rdNr11
  | .nr12 => .rdNr12
  | .nr13 => .rdNr13
  | .nr14 => .rdNr14
  | .nr21 => .rdNr21
  | .nr22 => .rdNr22
  | .nr23 => .rdNr23
  | .nr24 => .rdNr24
  | .nr30 => .rdNr30
  | .nr31 => .rdNr31
  | .nr32 => .rdNr32
  | .nr33 => .rdNr33
  | .nr34 => .rdNr34
  | .nr41 => .rdNr41
  | .nr42 => .rdNr42
  | .nr43 => .rdNr43
  | .nr44 => .rdNr44
  | .nr50 => .rdNr50
  | .nr51 => .rdNr51
  | .nr52 => .rdNr52

/-- The decoder: the kind selects the entry point (R60), the address the register (R63, R65); fields a command does
not use are ignored (R61). Total on every record. -/
def decode (c : Command) : Except DecodeError Instr :=
  if c.kind = 0 then .ok (.tick c.cycles)
  else if c.kind = 1 then
    match Reg.ofAddr c.addr with
    | some r => .ok (.write r c.data)
    | none => .ok (.wrUnmapped c.addr c.data)
  else if c.kind = 2 then
    match Reg.ofAddr c.addr with
    | some r => .ok (.read r)
    | none => .ok (.rdUnmapped c.addr)
  else if c.kind = 3 then .ok (.ramwr c.addr c.data)
  else if c.kind = 4 then .ok (.ramrd c.addr)
  else .error (.reservedCommand c.kind)

/-- A row of opcode_table.json: it matches when `(sel & mask) == match` (R62). -/
structure OpcodeRow where
  mask : Selector
  value : Selector
  /-- the command a matching record stands for -/
  make : Command → Instr

/-- R62: "A row matches when (sel & mask) == match". -/
def OpcodeRow.matches (row : OpcodeRow) (sel : Selector) : Bool := sel &&& row.mask == row.value

/-- The 21 `WR` rows and the 21 `RD` rows, mask 0x7FFFF: the most specific (R62). -/
def OpcodeRow.exact : List OpcodeRow :=
  [⟨0x7FFFF, 0x1FF10, fun c => .wrNr10 c.data⟩,
   ⟨0x7FFFF, 0x1FF11, fun c => .wrNr11 c.data⟩,
   ⟨0x7FFFF, 0x1FF12, fun c => .wrNr12 c.data⟩,
   ⟨0x7FFFF, 0x1FF13, fun c => .wrNr13 c.data⟩,
   ⟨0x7FFFF, 0x1FF14, fun c => .wrNr14 c.data⟩,
   ⟨0x7FFFF, 0x1FF16, fun c => .wrNr21 c.data⟩,
   ⟨0x7FFFF, 0x1FF17, fun c => .wrNr22 c.data⟩] ++
  [⟨0x7FFFF, 0x1FF18, fun c => .wrNr23 c.data⟩,
   ⟨0x7FFFF, 0x1FF19, fun c => .wrNr24 c.data⟩,
   ⟨0x7FFFF, 0x1FF1A, fun c => .wrNr30 c.data⟩,
   ⟨0x7FFFF, 0x1FF1B, fun c => .wrNr31 c.data⟩,
   ⟨0x7FFFF, 0x1FF1C, fun c => .wrNr32 c.data⟩,
   ⟨0x7FFFF, 0x1FF1D, fun c => .wrNr33 c.data⟩,
   ⟨0x7FFFF, 0x1FF1E, fun c => .wrNr34 c.data⟩] ++
  [⟨0x7FFFF, 0x1FF20, fun c => .wrNr41 c.data⟩,
   ⟨0x7FFFF, 0x1FF21, fun c => .wrNr42 c.data⟩,
   ⟨0x7FFFF, 0x1FF22, fun c => .wrNr43 c.data⟩,
   ⟨0x7FFFF, 0x1FF23, fun c => .wrNr44 c.data⟩,
   ⟨0x7FFFF, 0x1FF24, fun c => .wrNr50 c.data⟩,
   ⟨0x7FFFF, 0x1FF25, fun c => .wrNr51 c.data⟩,
   ⟨0x7FFFF, 0x1FF26, fun c => .wrNr52 c.data⟩] ++
  [⟨0x7FFFF, 0x2FF10, fun _ => .rdNr10⟩,
   ⟨0x7FFFF, 0x2FF11, fun _ => .rdNr11⟩,
   ⟨0x7FFFF, 0x2FF12, fun _ => .rdNr12⟩,
   ⟨0x7FFFF, 0x2FF13, fun _ => .rdNr13⟩,
   ⟨0x7FFFF, 0x2FF14, fun _ => .rdNr14⟩,
   ⟨0x7FFFF, 0x2FF16, fun _ => .rdNr21⟩,
   ⟨0x7FFFF, 0x2FF17, fun _ => .rdNr22⟩] ++
  [⟨0x7FFFF, 0x2FF18, fun _ => .rdNr23⟩,
   ⟨0x7FFFF, 0x2FF19, fun _ => .rdNr24⟩,
   ⟨0x7FFFF, 0x2FF1A, fun _ => .rdNr30⟩,
   ⟨0x7FFFF, 0x2FF1B, fun _ => .rdNr31⟩,
   ⟨0x7FFFF, 0x2FF1C, fun _ => .rdNr32⟩,
   ⟨0x7FFFF, 0x2FF1D, fun _ => .rdNr33⟩,
   ⟨0x7FFFF, 0x2FF1E, fun _ => .rdNr34⟩] ++
  [⟨0x7FFFF, 0x2FF20, fun _ => .rdNr41⟩,
   ⟨0x7FFFF, 0x2FF21, fun _ => .rdNr42⟩,
   ⟨0x7FFFF, 0x2FF22, fun _ => .rdNr43⟩,
   ⟨0x7FFFF, 0x2FF23, fun _ => .rdNr44⟩,
   ⟨0x7FFFF, 0x2FF24, fun _ => .rdNr50⟩,
   ⟨0x7FFFF, 0x2FF25, fun _ => .rdNr51⟩,
   ⟨0x7FFFF, 0x2FF26, fun _ => .rdNr52⟩]

/-- The five rows with mask 0x70000: a kind with any address (R62). -/
def OpcodeRow.byKind : List OpcodeRow :=
  [⟨0x70000, 0x00000, fun c => .tick c.cycles⟩,
   ⟨0x70000, 0x10000, fun c => .wrUnmapped c.addr c.data⟩,
   ⟨0x70000, 0x20000, fun c => .rdUnmapped c.addr⟩,
   ⟨0x70000, 0x30000, fun c => .ramwr c.addr c.data⟩,
   ⟨0x70000, 0x40000, fun c => .ramrd c.addr⟩]

/-- Decoding by the table, rows tried from the most specific mask to the least (R62); `decode` is to agree with it. -/
def decodeByTable (c : Command) : Except DecodeError Instr :=
  match (OpcodeRow.exact ++ OpcodeRow.byKind).find? (fun row => row.matches c.sel) with
  | some row => .ok (row.make c)
  | none => .error (.reservedCommand c.kind)

/-- The record of a command, unused fields 0 (R75: the tuple `(kind, addr, data, cycles)`). -/
def encode : Instr → Command
  | .wrNr10 b => ⟨1, 0xFF10, b, 0⟩
  | .wrNr11 b => ⟨1, 0xFF11, b, 0⟩
  | .wrNr12 b => ⟨1, 0xFF12, b, 0⟩
  | .wrNr13 b => ⟨1, 0xFF13, b, 0⟩
  | .wrNr14 b => ⟨1, 0xFF14, b, 0⟩
  | .wrNr21 b => ⟨1, 0xFF16, b, 0⟩
  | .wrNr22 b => ⟨1, 0xFF17, b, 0⟩
  | .wrNr23 b => ⟨1, 0xFF18, b, 0⟩
  | .wrNr24 b => ⟨1, 0xFF19, b, 0⟩
  | .wrNr30 b => ⟨1, 0xFF1A, b, 0⟩
  | .wrNr31 b => ⟨1, 0xFF1B, b, 0⟩
  | .wrNr32 b => ⟨1, 0xFF1C, b, 0⟩
  | .wrNr33 b => ⟨1, 0xFF1D, b, 0⟩
  | .wrNr34 b => ⟨1, 0xFF1E, b, 0⟩
  | .wrNr41 b => ⟨1, 0xFF20, b, 0⟩
  | .wrNr42 b => ⟨1, 0xFF21, b, 0⟩
  | .wrNr43 b => ⟨1, 0xFF22, b, 0⟩
  | .wrNr44 b => ⟨1, 0xFF23, b, 0⟩
  | .wrNr50 b => ⟨1, 0xFF24, b, 0⟩
  | .wrNr51 b => ⟨1, 0xFF25, b, 0⟩
  | .wrNr52 b => ⟨1, 0xFF26, b, 0⟩
  | .rdNr10 => ⟨2, 0xFF10, 0, 0⟩
  | .rdNr11 => ⟨2, 0xFF11, 0, 0⟩
  | .rdNr12 => ⟨2, 0xFF12, 0, 0⟩
  | .rdNr13 => ⟨2, 0xFF13, 0, 0⟩
  | .rdNr14 => ⟨2, 0xFF14, 0, 0⟩
  | .rdNr21 => ⟨2, 0xFF16, 0, 0⟩
  | .rdNr22 => ⟨2, 0xFF17, 0, 0⟩
  | .rdNr23 => ⟨2, 0xFF18, 0, 0⟩
  | .rdNr24 => ⟨2, 0xFF19, 0, 0⟩
  | .rdNr30 => ⟨2, 0xFF1A, 0, 0⟩
  | .rdNr31 => ⟨2, 0xFF1B, 0, 0⟩
  | .rdNr32 => ⟨2, 0xFF1C, 0, 0⟩
  | .rdNr33 => ⟨2, 0xFF1D, 0, 0⟩
  | .rdNr34 => ⟨2, 0xFF1E, 0, 0⟩
  | .rdNr41 => ⟨2, 0xFF20, 0, 0⟩
  | .rdNr42 => ⟨2, 0xFF21, 0, 0⟩
  | .rdNr43 => ⟨2, 0xFF22, 0, 0⟩
  | .rdNr44 => ⟨2, 0xFF23, 0, 0⟩
  | .rdNr50 => ⟨2, 0xFF24, 0, 0⟩
  | .rdNr51 => ⟨2, 0xFF25, 0, 0⟩
  | .rdNr52 => ⟨2, 0xFF26, 0, 0⟩
  | .tick n => ⟨0, 0, 0, n⟩
  | .wrUnmapped a b => ⟨1, a, b, 0⟩
  | .rdUnmapped a => ⟨2, a, 0, 0⟩
  | .ramwr a b => ⟨3, a, b, 0⟩
  | .ramrd a => ⟨4, a, 0, 0⟩

/-- The pseudo-command `TRIG c, b` (R76; `b` has bit 7 set): bit 7 goes to 0, then to 1. -/
def Instr.trig (c : Channel) (b : Byte) : List Instr := [.write c.nrc4 (b &&& 0x7F), .write c.nrc4 b]

/-- The pseudo-command `TICKS k, n` (R76). -/
def Instr.ticks (k : Nat) (n : Cycles) : List Instr := List.replicate k (.tick n)

/-- A record as one number, numbered as opcode_table.json numbers it: bits 18:0 are the selector, 23:19 are in no
field, 31:24 are `cmd_data`, 63:32 are `cmd_cycles` (log 7). -/
def Command.ofWord (w : Nat) : Command where
  kind := BitVec.ofNat 3 (w / 2 ^ 16)
  addr := BitVec.ofNat 16 w
  data := BitVec.ofNat 8 (w / 2 ^ 24)
  cycles := BitVec.ofNat 32 (w / 2 ^ 32)

/-- The number of a record, the inverse of `Command.ofWord` (bits 23:19 zero; log 7). -/
def Command.toWord (c : Command) : Nat :=
  c.addr.toNat + 2 ^ 16 * c.kind.toNat + 2 ^ 24 * c.data.toNat + 2 ^ 32 * c.cycles.toNat

/-- The record whose low `nbits` bits are those of `w` and whose other bits are 0. -/
def tableCommand (nbits w : Nat) : Command := Command.ofWord (w % 2 ^ nbits)

/-- The command the decoder reads from a row's bits, `none` where it refuses. -/
def decodeTableWord (nbits w : Nat) : Option Instr := (decode (tableCommand nbits w)).toOption

end Sys2Proof
end

