-- ==== Sys2Proof/Config.lean ====
section
/-! DEFINITION. The parameters of the hardware (00_scope.md R6; the OPEN ones of 92_eei_decisions.md) and the
one free value. Nothing here is state (10_state.md R26). -/

namespace Sys2Proof

/-- The parameters the spec leaves OPEN, so that operations and claims may be stated for every value of them.
`CYC_W` is the width of `Cycles`; `NREG` is the number of constructors of `Reg`. -/
structure Config where
  /-- `P_FS`, frame-sequencer period. -/
  pFs : Nat
  /-- `P_ENV`, envelope period. -/
  pEnv : Nat
  /-- `P_SWP`, sweep period. -/
  pSwp : Nat
  /-- `P_LEN`, length-counter period. -/
  pLen : Nat
  /-- `MULTI_FIRE`: whether a `TICK` clocks a machine once per period crossed. -/
  multiFire : Bool
  /-- `ARAM_BASE`, absolute address of Audio RAM byte 0. -/
  aramBase : Addr
  /-- `RESET_REGS`, the register values after reset. -/
  resetRegs : Reg → Byte
  /-- R6: "All four periods must be positive integers". -/
  pFs_pos : 0 < pFs
  pEnv_pos : 0 < pEnv
  pSwp_pos : 0 < pSwp
  pLen_pos : 0 < pLen

/-- `CLK_HZ`, the host clock rate in the unit `TICK` counts (R6, decision D3). -/
def Config.clkHz : Nat := 4194304

/-- `ARAM_SIZE`, the number of Audio RAM bytes (R6, 10_state.md R21). -/
def Config.aramSize : Nat := 15

/-- The hardware this spec fixes: the values of the table of R6 (log 2). -/
def Config.hardware : Config where
  pFs := Config.clkHz / 512
  pEnv := Config.clkHz / 64
  pSwp := Config.clkHz / 128
  pLen := Config.clkHz / 256
  multiFire := false
  aramBase := 0xFF30
  resetRegs := fun _ => 0x00
  pFs_pos := by decide
  pEnv_pos := by decide
  pSwp_pos := by decide
  pLen_pos := by decide

/-- The period an accumulator is compared with (10_state.md R14, 40_tick_scheduler.md R92). -/
def Config.period (cfg : Config) : SubTimer → Nat
  | .fs => cfg.pFs
  | .env => cfg.pEnv
  | .swp => cfg.pSwp
  | .len => cfg.pLen

/-- FREE VALUE: the byte the n-th draw gives to an unrecognized `RD` (41_register_dispatch.md R115: "a model
draws the byte freely at each such read"; log 4). -/
opaque Config.freeByte : Nat → Byte

end Sys2Proof
end

