-- ==== Sys2Proof/Machine/State.lean ====
section
/-! DEFINITION. The state of the block (10_state.md), its ports as data, its reset values (R25), and the reasons a
step can stop. -/

namespace Sys2Proof.Machine

/-- The Register Bank: 21 Byte Registers, each 8 bits (R11). -/
structure RegBank where
  nr10 : Byte
  nr11 : Byte
  nr12 : Byte
  nr13 : Byte
  nr14 : Byte
  nr21 : Byte
  nr22 : Byte
  nr23 : Byte
  nr24 : Byte
  nr30 : Byte
  nr31 : Byte
  nr32 : Byte
  nr33 : Byte
  nr34 : Byte
  nr41 : Byte
  nr42 : Byte
  nr43 : Byte
  nr44 : Byte
  nr50 : Byte
  nr51 : Byte
  nr52 : Byte
  deriving DecidableEq, Repr

/-- The four cycle accumulators `acc_fs`, `acc_env`, `acc_swp`, `acc_len`: natural numbers (R14). -/
structure AccBank where
  fs : Nat
  env : Nat
  swp : Nat
  len : Nat
  deriving DecidableEq, Repr

/-- The three envelope countdowns `env_cd[c]`, 3 bits each (R16). -/
structure EnvBank where
  ch1 : BitVec 3
  ch2 : BitVec 3
  ch4 : BitVec 3
  deriving DecidableEq, Repr

/-- The four live length counters `len[c]`: 6 bits, and 9 bits for channel 3 (R20). -/
structure LenBank where
  ch1 : BitVec 6
  ch2 : BitVec 6
  ch3 : BitVec 9
  ch4 : BitVec 6
  deriving DecidableEq, Repr

/-- Audio RAM as cells (offset, byte) in canonical form: offsets strictly rising, no byte equal to what an unlisted
offset reads as, 0x00 (R21, R25; log 9). -/
abbrev Memory := List Host.Cell

/-- Whether an Audio RAM access was a read or a write (60_exceptions.md R211). -/
inductive AramAccess where
  | read
  | write
  deriving DecidableEq, Repr

/-- The causes of 60_exceptions.md R211; there is one. -/
inductive FaultCause where
  | audioRamBounds
  deriving DecidableEq, Repr

/-- What is recorded with a fault: the cause, the offending address, read or write (R211, R212). -/
structure FaultReport where
  cause : FaultCause
  addr : Addr
  access : AramAccess
  deriving DecidableEq, Repr

/-- The response ports in the step just made (30_encoding.md R61): `rsp_rdata` where the command returns data, and the
fault it raised (`rsp_fault` is 1 when there is one). Log 5. -/
structure Response where
  rdata : Option Byte
  fault : Option FaultReport
  deriving DecidableEq, Repr

/-- One step's sample of the input ports (R61). -/
structure PortSample where
  rst : Bool
  cmdValid : Bool
  cmd : Command
  deriving DecidableEq, Repr

/-- The complete state of the block (10_state.md, opening words), and below the line the ports and the model's own
counter. -/
structure State where
  /-- NR10 .. NR52 (R11) -/
  regs : RegBank
  /-- `ARAM[0 .. 14]` (R21) -/
  aram : Memory
  /-- `acc_fs`, `acc_env`, `acc_swp`, `acc_len` (R14) -/
  acc : AccBank
  /-- `fs_step`, modulo 8 (R15) -/
  fsStep : BitVec 3
  /-- `env_cd[1]`, `env_cd[2]`, `env_cd[4]` (R16) -/
  envCd : EnvBank
  /-- `swp_cd`, 4 bits, 0..8 (R17) -/
  swpCd : BitVec 4
  /-- `shadow`, 11 bits (R18) -/
  shadow : BitVec 11
  /-- `swp_en` (R19) -/
  swpEn : Bool
  /-- `len[1] .. len[4]` (R20) -/
  len : LenBank
  /-- `fault`, sticky (R22) -/
  fault : Bool
  /-- the response of the step just made (R61; log 5) -/
  rsp : Response
  /-- what the host presents at the coming steps, nearest first (R61; log 1) -/
  port : List PortSample
  /-- MODEL's own: the number of the next free byte (log 4) -/
  draws : Nat
  deriving DecidableEq, Repr

/-- Why a step stops with a fault. -/
inductive Fault where
  /-- Raised by every meaning when a command is performed while `fault = 1`: "the effect of every further command is not
  defined by this spec" (60_exceptions.md R213). Safe: the model stops where the device may go on. -/
  | faultedBlock
  deriving DecidableEq, Repr

/-- Why a step refuses. -/
inductive Refusal where
  /-- Raised by `exec` for a row that has no meaning yet; no arm raises it. Safe. -/
  | notModelled (mnemonic : String)
  /-- Raised by `step` for a record of kind 5, 6 or 7: "a model refuses it by name" (60_exceptions.md R220). Safe. -/
  | reservedCommand (kind : Kind)
  deriving DecidableEq, Repr

/-- No data and no fault. -/
def Response.silent : Response := ⟨none, none⟩

/-- The state after reset for given parameters (R25, 70_reset_and_hazards.md R230, R231): registers at `RESET_REGS`,
everything else zero. -/
def State.resetWith (cfg : Config) : State where
  regs :=
    { nr10 := cfg.resetRegs .nr10
      nr11 := cfg.resetRegs .nr11
      nr12 := cfg.resetRegs .nr12
      nr13 := cfg.resetRegs .nr13
      nr14 := cfg.resetRegs .nr14
      nr21 := cfg.resetRegs .nr21
      nr22 := cfg.resetRegs .nr22
      nr23 := cfg.resetRegs .nr23
      nr24 := cfg.resetRegs .nr24
      nr30 := cfg.resetRegs .nr30
      nr31 := cfg.resetRegs .nr31
      nr32 := cfg.resetRegs .nr32
      nr33 := cfg.resetRegs .nr33
      nr34 := cfg.resetRegs .nr34
      nr41 := cfg.resetRegs .nr41
      nr42 := cfg.resetRegs .nr42
      nr43 := cfg.resetRegs .nr43
      nr44 := cfg.resetRegs .nr44
      nr50 := cfg.resetRegs .nr50
      nr51 := cfg.resetRegs .nr51
      nr52 := cfg.resetRegs .nr52 }
  aram := []
  acc := ⟨0, 0, 0, 0⟩
  fsStep := 0
  envCd := ⟨0, 0, 0⟩
  swpCd := 0
  shadow := 0
  swpEn := false
  len := ⟨0, 0, 0, 0⟩
  fault := false
  rsp := Response.silent
  port := []
  draws := 0

/-- The state after reset of this hardware (R25). Nothing is presented at the port (log 1). -/
def State.reset : State := State.resetWith Config.hardware

end Sys2Proof.Machine
end

