-- ==== Sys2Proof/Machine/Ops.lean ====
section
/-! DEFINITION. The named operations over registers, counters, Audio RAM and ports; how a command is performed; taking
the fault `AudioRamBounds`; reset and the idle step. -/

namespace Sys2Proof

/-- Bits `lo + w - 1` down to `lo` of a byte, `v[hi:lo]` (00_scope.md R7). -/
def Byte.field (v : Byte) (lo w : Nat) : BitVec w := v.extractLsb' lo w

/-- `NR[name][hi:lo] <- x`: bits `lo + w - 1` down to `lo` replaced, the others unchanged (00_scope.md R8,
20_memory.md R45). -/
def Byte.setField (v : Byte) (lo : Nat) {w : Nat} (x : BitVec w) : Byte :=
  (v &&& ~~~((BitVec.allOnes w).setWidth 8 <<< lo)) ||| (x.setWidth 8 <<< lo)

/-- Byte Register "test bit n (0-7)" (10_state.md R10); the index is typed, so no other bit can be named
(93_implementation_defined.md U9). -/
def Byte.bit (v : Byte) (n : Fin 8) : Bool := v.getLsbD n

/-- Byte Register "set bit n to a boolean" (R10). -/
def Byte.setBit (v : Byte) (n : Fin 8) (b : Bool) : Byte := v.setField n (BitVec.ofBool b)

/-- The countdown clock primitive (00_scope.md R9; at 0 by the spec's decision D9): the new countdown and whether it
expired. -/
def decExpire (cd : Nat) : Nat × Bool := if 2 ≤ cd then (cd - 1, false) else (0, true)

namespace Machine

/-- Byte Register "read whole byte" (10_state.md R10): the stored byte. -/
def RegBank.get (b : RegBank) : Reg → Byte
  | .nr10 => b.nr10
  | .nr11 => b.nr11
  | .nr12 => b.nr12
  | .nr13 => b.nr13
  | .nr14 => b.nr14
  | .nr21 => b.nr21
  | .nr22 => b.nr22
  | .nr23 => b.nr23
  | .nr24 => b.nr24
  | .nr30 => b.nr30
  | .nr31 => b.nr31
  | .nr32 => b.nr32
  | .nr33 => b.nr33
  | .nr34 => b.nr34
  | .nr41 => b.nr41
  | .nr42 => b.nr42
  | .nr43 => b.nr43
  | .nr44 => b.nr44
  | .nr50 => b.nr50
  | .nr51 => b.nr51
  | .nr52 => b.nr52

/-- Byte Register "overwrite whole byte" (R10); no other register changes. -/
def RegBank.set (b : RegBank) (r : Reg) (v : Byte) : RegBank :=
  match r with
  | .nr10 => { b with nr10 := v }
  | .nr11 => { b with nr11 := v }
  | .nr12 => { b with nr12 := v }
  | .nr13 => { b with nr13 := v }
  | .nr14 => { b with nr14 := v }
  | .nr21 => { b with nr21 := v }
  | .nr22 => { b with nr22 := v }
  | .nr23 => { b with nr23 := v }
  | .nr24 => { b with nr24 := v }
  | .nr30 => { b with nr30 := v }
  | .nr31 => { b with nr31 := v }
  | .nr32 => { b with nr32 := v }
  | .nr33 => { b with nr33 := v }
  | .nr34 => { b with nr34 := v }
  | .nr41 => { b with nr41 := v }
  | .nr42 => { b with nr42 := v }
  | .nr43 => { b with nr43 := v }
  | .nr44 => { b with nr44 := v }
  | .nr50 => { b with nr50 := v }
  | .nr51 => { b with nr51 := v }
  | .nr52 => { b with nr52 := v }

/-- The accumulator of a sub-timer (R14). -/
def AccBank.get (b : AccBank) : SubTimer → Nat
  | .fs => b.fs
  | .env => b.env
  | .swp => b.swp
  | .len => b.len

/-- Assignment to an accumulator (R14). -/
def AccBank.set (b : AccBank) (t : SubTimer) (n : Nat) : AccBank :=
  match t with
  | .fs => { b with fs := n }
  | .env => { b with env := n }
  | .swp => { b with swp := n }
  | .len => { b with len := n }

/-- `env_cd[c]` (R16). -/
def EnvBank.get (b : EnvBank) : EnvChannel → BitVec 3
  | .ch1 => b.ch1
  | .ch2 => b.ch2
  | .ch4 => b.ch4

/-- `env_cd[c] <- v` (R16). -/
def EnvBank.set (b : EnvBank) (c : EnvChannel) (v : BitVec 3) : EnvBank :=
  match c with
  | .ch1 => { b with ch1 := v }
  | .ch2 => { b with ch2 := v }
  | .ch4 => { b with ch4 := v }

/-- `len[c]` as a number (R20). -/
def LenBank.get (b : LenBank) : Channel → Nat
  | .ch1 => b.ch1.toNat
  | .ch2 => b.ch2.toNat
  | .ch3 => b.ch3.toNat
  | .ch4 => b.ch4.toNat

/-- `len[c] <- n`, narrowed to the counter's width (R20, 00_scope.md R8). -/
def LenBank.set (b : LenBank) (c : Channel) (n : Nat) : LenBank :=
  match c with
  | .ch1 => { b with ch1 := BitVec.ofNat 6 n }
  | .ch2 => { b with ch2 := BitVec.ofNat 6 n }
  | .ch3 => { b with ch3 := BitVec.ofNat 9 n }
  | .ch4 => { b with ch4 := BitVec.ofNat 6 n }

/-- What an unlisted offset reads as: "audio RAM zero-filled" (10_state.md R25). -/
def Memory.unlisted : Byte := 0x00

/-- `ARAM[o]`. -/
def Memory.read : Memory → Nat → Byte
  | [], _ => Memory.unlisted
  | (k, b) :: m, o => if k = o then b else Memory.read m o

/-- `ARAM[o] <- b`, keeping the canonical form. -/
def Memory.write : Memory → Nat → Byte → Memory
  | [], o, b => if b = Memory.unlisted then [] else [(o, b)]
  | (k, c) :: m, o, b =>
    if o < k then (if b = Memory.unlisted then (k, c) :: m else (o, b) :: (k, c) :: m)
    else if o = k then (if b = Memory.unlisted then m else (o, b) :: m)
    else (k, c) :: Memory.write m o b

/-- The canonical form: offsets strictly rising, no entry equal to what an unlisted offset reads as. -/
def Memory.wf : Memory → Bool
  | [] => true
  | [(_, b)] => b != Memory.unlisted
  | (k, b) :: (k', b') :: m => b != Memory.unlisted && decide (k < k') && Memory.wf ((k', b') :: m)

/-- `NR[r]` (00_scope.md R8). -/
def State.nr (s : State) (r : Reg) : Byte := s.regs.get r

/-- `NR[r] <- v` (R8). -/
def State.setNr (s : State) (r : Reg) (v : Byte) : State := { s with regs := s.regs.set r v }

/-- Assignment to an accumulator. -/
def State.setAcc (s : State) (t : SubTimer) (n : Nat) : State := { s with acc := s.acc.set t n }

/-- `env_cd[c] <- v`. -/
def State.setEnvCd (s : State) (c : EnvChannel) (v : BitVec 3) : State := { s with envCd := s.envCd.set c v }

/-- `len[c] <- n`. -/
def State.setLen (s : State) (c : Channel) (n : Nat) : State := { s with len := s.len.set c n }

/-- The command returns nothing: no data on `rsp_rdata` and no fault (30_encoding.md R60; 93 U7). -/
def State.silent (s : State) : State := { s with rsp := Response.silent }

/-- `rsp_rdata <- b` (41_register_dispatch.md R114, 46_audio_ram.md R201). -/
def State.answer (s : State) (b : Byte) : State := { s with rsp := ⟨some b, none⟩ }

/-- The command returns an unspecified byte, a fresh draw (41_register_dispatch.md R115; log 4). -/
def State.answerFree (s : State) : State :=
  { s with rsp := ⟨some (Config.freeByte s.draws), none⟩, draws := s.draws + 1 }

/-- A command is performed in one atomic step (20_memory.md R44); while `fault = 1` none has a defined effect
(60_exceptions.md R213; 10_state.md R23: `fault` is read by every command). -/
def State.perform (s : State) (effect : State → State) : Host.Outcome State Fault Refusal :=
  if s.fault = true then .fault .faultedBlock else .next (effect s)

/-- `raise AudioRamBounds(a)` (60_exceptions.md R212): `rsp_fault` and the sticky `fault` are set, the address and the
access are reported, nothing else changes. There is no return from it (R221); only reset clears it (R213). -/
def State.raiseAudioRamBounds (s : State) (a : Addr) (x : AramAccess) : State :=
  { s with fault := true, rsp := ⟨none, some ⟨.audioRamBounds, a, x⟩⟩ }

/-- The code of a cause (60_exceptions.md R211). -/
def FaultCause.code : FaultCause → Nat
  | .audioRamBounds => 1

/-- `cmd_valid = 0`: the state does not change (30_encoding.md R61); no command, so no response (log 5). -/
def State.idle (s : State) : State := s.silent

/-- `rst` asserted: every state element takes its reset value and a command presented with it is discarded
(70_reset_and_hazards.md R230; 60_exceptions.md R216). What the host presents later, and which free byte comes next,
are no state of the block and stay (log 10). -/
def State.assertReset (s : State) : State := { State.reset with port := s.port, draws := s.draws }

/-- What the input ports ask for in this step. -/
inductive Request where
  | none
  | reset
  | command (c : Command)
  deriving DecidableEq, Repr

/-- Reset wins over a command (60_exceptions.md R216); without `cmd_valid` nothing is asked (30_encoding.md R61). -/
def PortSample.request (p : PortSample) : Request :=
  if p.rst = true then .reset else if p.cmdValid = true then .command p.cmd else .none

/-- This step's request and the state with its sample consumed; nothing more presented is `cmd_valid = 0` (log 1). -/
def State.fetch (s : State) : Request × State :=
  match s.port with
  | [] => (.none, s)
  | p :: later => (p.request, { s with port := later })

/-- A sample that presents a command. -/
def PortSample.ofCommand (c : Command) : PortSample := ⟨false, true, c⟩

end Machine

end Sys2Proof
end

