-- ==== Sys2Proof/Machine/Operands.lean ====
section
/-! DEFINITION. The bit fields the rules read (30_encoding.md R67 to R71) and the one operand computation of the
encoding, the Audio RAM offset (R64). -/

namespace Sys2Proof.Machine

/-- Sweep period field `p = NR10[6:4]` (R67). -/
def State.sweepPeriod (s : State) : BitVec 3 := (s.nr .nr10).field 4 3

/-- Sweep direction `neg = NR10[3]`: 1 subtracts (R67; the spec's decision D11). -/
def State.sweepNeg (s : State) : Bool := (s.nr .nr10).bit 3

/-- Sweep shift `s = NR10[2:0]` (R67). -/
def State.sweepShift (s : State) : BitVec 3 := (s.nr .nr10).field 0 3

/-- Reload value of `swp_cd`: the period field, "substituting 8 when that field is 0" (43_sweep.md R162). -/
def sweepReload (p : BitVec 3) : BitVec 4 := if p = 0 then 8 else p.setWidth 4

/-- The live frequency `{NR14[2:0], NR13[7:0]}` (20_memory.md R42, 30_encoding.md R70, R71). -/
def State.liveFrequency (s : State) : BitVec 11 := (s.nr .nr14).field 0 3 ++ s.nr .nr13

/-- Envelope volume, bits 7:4 (R69). -/
def envVolume (e : Byte) : BitVec 4 := e.field 4 4

/-- Envelope direction, bit 3: 1 amplifies (R69). -/
def envAmplify (e : Byte) : Bool := e.bit 3

/-- Envelope period field, bits 2:0 (R69). -/
def envPeriod (e : Byte) : BitVec 3 := e.field 0 3

/-- The length field of a byte written to `NRc1`: bits 5:0, and bits 7:0 for channel 3 (R68, 44_length.md R183). -/
def lengthField (c : Channel) (b : Byte) : Nat :=
  match c with
  | .ch3 => b.toNat
  | .ch1 | .ch2 | .ch4 => (b.field 0 6).toNat

/-- `LENMAX(c)` (00_scope.md R6, 45_trigger.md R192). -/
def lengthMax : Channel → Nat
  | .ch3 => 256
  | .ch1 | .ch2 | .ch4 => 63

/-- `offset = cmd_addr - ARAM_BASE` over the integers, never modulo 2^16 (R64). -/
def aramOffset (cfg : Config) (a : Addr) : Int := (a.toNat : Int) - (cfg.aramBase.toNat : Int)

/-- The Audio RAM index an address names, `none` out of range: in range when `0 <= offset <= ARAM_SIZE - 1` (R64). -/
def aramIndex? (cfg : Config) (a : Addr) : Option Nat :=
  if 0 ≤ aramOffset cfg a ∧ aramOffset cfg a ≤ (Config.aramSize : Int) - 1 then some (aramOffset cfg a).toNat else none

end Sys2Proof.Machine
end

