-- ==== Sys2Proof/Machine/AudioRam.lean ====
section
/-! DEFINITION. Audio RAM access (46_audio_ram.md). -/

namespace Sys2Proof.Machine

/-- `MemRead(a, 1)` for given parameters (R201, R203). -/
def aramRead (cfg : Config) (a : Addr) (s : State) : State :=
  match aramIndex? cfg a with
  | some o => s.answer (s.aram.read o)
  | none => s.raiseAudioRamBounds a .read

/-- `MemWrite(a, 1, b)` for given parameters (R202, R203). -/
def aramWrite (cfg : Config) (a : Addr) (b : Byte) (s : State) : State :=
  match aramIndex? cfg a with
  | some o => ({ s with aram := s.aram.write o b } : State).silent
  | none => s.raiseAudioRamBounds a .write

/-- RAMRD (R201). -/
def execRamrd (a : Addr) (s : State) : Host.Outcome State Fault Refusal :=
  s.perform fun s => aramRead Config.hardware a s

/-- RAMWR (R202). -/
def execRamwr (a : Addr) (b : Byte) (s : State) : Host.Outcome State Fault Refusal :=
  s.perform fun s => aramWrite Config.hardware a b s

end Sys2Proof.Machine
end

