-- ==== Sys2Proof/Machine/RegRead.lean ====
section
/-! DEFINITION. Register dispatch, the read path: `RD` (41_register_dispatch.md R114, R115). -/

namespace Sys2Proof.Machine

/-- `rsp_rdata <- NR[r]`: the stored byte, all 8 bits, no mask, no state changed (R114). -/
def readRegister (r : Reg) (s : State) : State := s.answer (s.nr r)

/-- RD_NR10 (R114). -/
def execRdNr10 (s : State) : Host.Outcome State Fault Refusal := s.perform (readRegister .nr10)

/-- RD_NR11 (R114). -/
def execRdNr11 (s : State) : Host.Outcome State Fault Refusal := s.perform (readRegister .nr11)

/-- RD_NR12 (R114). -/
def execRdNr12 (s : State) : Host.Outcome State Fault Refusal := s.perform (readRegister .nr12)

/-- RD_NR13 (R114). -/
def execRdNr13 (s : State) : Host.Outcome State Fault Refusal := s.perform (readRegister .nr13)

/-- RD_NR14 (R114). -/
def execRdNr14 (s : State) : Host.Outcome State Fault Refusal := s.perform (readRegister .nr14)

/-- RD_NR21 (R114). -/
def execRdNr21 (s : State) : Host.Outcome State Fault Refusal := s.perform (readRegister .nr21)

/-- RD_NR22 (R114). -/
def execRdNr22 (s : State) : Host.Outcome State Fault Refusal := s.perform (readRegister .nr22)

/-- RD_NR23 (R114). -/
def execRdNr23 (s : State) : Host.Outcome State Fault Refusal := s.perform (readRegister .nr23)

/-- RD_NR24 (R114). -/
def execRdNr24 (s : State) : Host.Outcome State Fault Refusal := s.perform (readRegister .nr24)

/-- RD_NR30 (R114). -/
def execRdNr30 (s : State) : Host.Outcome State Fault Refusal := s.perform (readRegister .nr30)

/-- RD_NR31 (R114). -/
def execRdNr31 (s : State) : Host.Outcome State Fault Refusal := s.perform (readRegister .nr31)

/-- RD_NR32 (R114). -/
def execRdNr32 (s : State) : Host.Outcome State Fault Refusal := s.perform (readRegister .nr32)

/-- RD_NR33 (R114). -/
def execRdNr33 (s : State) : Host.Outcome State Fault Refusal := s.perform (readRegister .nr33)

/-- RD_NR34 (R114). -/
def execRdNr34 (s : State) : Host.Outcome State Fault Refusal := s.perform (readRegister .nr34)

/-- RD_NR41 (R114). -/
def execRdNr41 (s : State) : Host.Outcome State Fault Refusal := s.perform (readRegister .nr41)

/-- RD_NR42 (R114). -/
def execRdNr42 (s : State) : Host.Outcome State Fault Refusal := s.perform (readRegister .nr42)

/-- RD_NR43 (R114). -/
def execRdNr43 (s : State) : Host.Outcome State Fault Refusal := s.perform (readRegister .nr43)

/-- RD_NR44 (R114). -/
def execRdNr44 (s : State) : Host.Outcome State Fault Refusal := s.perform (readRegister .nr44)

/-- RD_NR50 (R114). -/
def execRdNr50 (s : State) : Host.Outcome State Fault Refusal := s.perform (readRegister .nr50)

/-- RD_NR51 (R114). -/
def execRdNr51 (s : State) : Host.Outcome State Fault Refusal := s.perform (readRegister .nr51)

/-- RD_NR52 (R114). -/
def execRdNr52 (s : State) : Host.Outcome State Fault Refusal := s.perform (readRegister .nr52)

/-- RD_UNMAPPED: an unspecified byte, nothing changes (R115). -/
def execRdUnmapped (_a : Addr) (s : State) : Host.Outcome State Fault Refusal := s.perform State.answerFree

end Sys2Proof.Machine
end

