-- ==== Sys2Proof/Machine/Flags.lean ====
section
/-! DEFINITION. The status bits of the block (10_state.md R23), every rule that sets or clears one, and the output
ports (30_encoding.md R61). -/

namespace Sys2Proof.Machine

/-- Length enable of channel `c`: `NRc4[6]` (R23). -/
def State.lenEnable (s : State) (c : Channel) : Bool := (s.nr c.nrc4).bit 6

/-- `NR[NRc4][6] <- b` (44_length.md R181, 45_trigger.md R192). -/
def State.setLenEnable (s : State) (c : Channel) (b : Bool) : State :=
  s.setNr c.nrc4 ((s.nr c.nrc4).setBit 6 b)

/-- Restart bit of a byte of `NRc4`: bit 7 (R71). -/
def restartBit (v : Byte) : Bool := v.bit 7

/-- The trigger condition: the stored bit 7 is 0 and the written bit 7 is 1 (41_register_dispatch.md R112). -/
def restartEdge (old new : Byte) : Bool := !restartBit old && restartBit new

/-- "internally enabled" when the period or the shift is non-zero (43_sweep.md R162, 45_trigger.md R193). -/
def sweepEnabled (p s : BitVec 3) : Bool := p != 0 || s != 0

/-- The overflow test: the exact candidate exceeds 2047 (43_sweep.md R161, R164). -/
def sweepOverflow (candidate : Nat) : Bool := decide (2047 < candidate)

/-- "if cand > 2047 then swp_en <- 0" (43_sweep.md R164). -/
def State.checkOverflow (s : State) (candidate : Nat) : State :=
  if sweepOverflow candidate then { s with swpEn := false } else s

/-- The output ports in the present state (R61): the response ports of the step just made, and copies of status. -/
structure Outputs where
  rspRdata : Option Byte
  rspFault : Bool
  fault : Bool
  swpEn : Bool
  fsStep : BitVec 3
  /-- `len_en[4:1]`: bit 0 here is channel 1 -/
  lenEn : BitVec 4
  irq : Bool
  deriving DecidableEq, Repr

/-- `irq` is constantly 0 (60_exceptions.md R215). -/
def State.outputs (s : State) : Outputs where
  rspRdata := s.rsp.rdata
  rspFault := s.rsp.fault.isSome
  fault := s.fault
  swpEn := s.swpEn
  fsStep := s.fsStep
  lenEn :=
    BitVec.ofBool (s.lenEnable .ch4) ++ BitVec.ofBool (s.lenEnable .ch3) ++
      BitVec.ofBool (s.lenEnable .ch2) ++ BitVec.ofBool (s.lenEnable .ch1)
  irq := false

end Sys2Proof.Machine
end

