-- ==== Sys2Proof/Machine/Sweep.lean ====
section
/-! DEFINITION. The Frequency Sweep state machine of channel 1, `SWEEP_CLOCK` (43_sweep.md). -/

namespace Sys2Proof.Machine

/-- `sweep_calc(f, s, neg)`, computed exactly (R161). -/
def sweepCalc (f s : Nat) (neg : Bool) : Nat :=
  let d := f >>> s
  if neg then f - d else f + d

/-- The candidate frequency from the present `shadow` and NR10 (R163, R164). -/
def State.sweepCandidate (s : State) : Nat := sweepCalc s.shadow.toNat s.sweepShift.toNat s.sweepNeg

/-- The commit (R163): `shadow`, NR13 and `NR14[2:0]` take the candidate, `NR14[7:3]` is preserved. -/
def State.commitSweep (s : State) (f : BitVec 11) : State :=
  (({ s with shadow := f } : State).setNr .nr13 (f.extractLsb' 0 8)).setNr .nr14
    ((s.nr .nr14).setField 0 (f.extractLsb' 8 3))

/-- `sweep_update` (R163, R164): commit, first check, second check with `shadow` as it is now. -/
def sweepUpdate (s : State) : State :=
  let cand := s.sweepCandidate
  let s₁ := if cand ≤ 2047 ∧ s.sweepShift ≠ 0 then s.commitSweep (BitVec.ofNat 11 cand) else s
  let s₂ := s₁.checkOverflow cand
  s₂.checkOverflow s₂.sweepCandidate

/-- `swp_cd` and `swp_en` as NR10 asks (R162, 45_trigger.md R193). -/
def State.reloadSweep (s : State) : State :=
  { s with swpCd := sweepReload s.sweepPeriod, swpEn := sweepEnabled s.sweepPeriod s.sweepShift }

/-- `sweep_expiry` (R162): reload and enable; with a non-zero period field, update. -/
def sweepExpiry (s : State) : State :=
  let s₁ := s.reloadSweep
  if s₁.swpEn = true ∧ s.sweepPeriod ≠ 0 then sweepUpdate s₁ else s₁

/-- `SWEEP_CLOCK` (R160). -/
def sweepClock (s : State) : State :=
  let (cd, expired) := decExpire s.swpCd.toNat
  if expired then sweepExpiry s else { s with swpCd := BitVec.ofNat 4 cd }

end Sys2Proof.Machine
end

