-- ==== Sys2Proof/Machine/Trigger.lean ====
section
/-! DEFINITION. The Trigger Protocol, `TRIGGER(c)` (45_trigger.md). -/

namespace Sys2Proof.Machine

/-- Step 1, envelope reload, channels 1, 2, 4 only: `env_cd[c] <- NRc2[2:0]` (R191). -/
def triggerEnv (c : Channel) (s : State) : State :=
  match c.envelope? with
  | some e => s.setEnvCd e (envPeriod (s.nr e.nrc2))
  | none => s

/-- Step 2: set the length-enable bit; reload `len[c]` only if it is 0 (R192). -/
def triggerLen (c : Channel) (s : State) : State :=
  let s₁ := s.setLenEnable c true
  if s₁.len.get c = 0 then s₁.setLen c (lengthMax c) else s₁

/-- Step 3, channel 1 only: shadow, countdown and enable reloaded, then one overflow check, no commit (R193). -/
def triggerSweep (s : State) : State :=
  let s₁ := ({ s with shadow := s.liveFrequency } : State).reloadSweep
  s₁.checkOverflow s₁.sweepCandidate

/-- `TRIGGER(c)` (R190): it sees the registers as just written. -/
def trigger (c : Channel) (s : State) : State :=
  let s₁ := triggerLen c (triggerEnv c s)
  match c with
  | .ch1 => triggerSweep s₁
  | .ch2 | .ch3 | .ch4 => s₁

end Sys2Proof.Machine
end

