-- ==== Sys2Proof/Machine/RegWrite.lean ====
section
/-! DEFINITION. Register dispatch, the write path: `WR` (41_register_dispatch.md). -/

namespace Sys2Proof.Machine

/-- Plain overwrite: all 8 bits, whatever `b` is (R111). -/
def overwrite (r : Reg) (b : Byte) (s : State) : State := s.setNr r b

/-- Write to `NRc1`: overwrite, and the live length counter takes the length field (R117, R121, R126, R130). -/
def lengthWrite (c : Channel) (b : Byte) (s : State) : State := (overwrite c.nrc1 b s).setLen c (lengthField c b)

/-- Write to a restart register: overwrite; a 0 to 1 transition of bit 7 runs the trigger afterwards (R112). -/
def restartWrite (c : Channel) (b : Byte) (s : State) : State :=
  if restartEdge (s.nr c.nrc4) b then trigger c (overwrite c.nrc4 b s) else overwrite c.nrc4 b s

/-- WR_NR10 (R116). -/
def execWrNr10 (b : Byte) (s : State) : Host.Outcome State Fault Refusal :=
  s.perform fun s => (overwrite .nr10 b s).silent

/-- WR_NR11 (R117). -/
def execWrNr11 (b : Byte) (s : State) : Host.Outcome State Fault Refusal :=
  s.perform fun s => (lengthWrite .ch1 b s).silent

/-- WR_NR12 (R118). -/
def execWrNr12 (b : Byte) (s : State) : Host.Outcome State Fault Refusal :=
  s.perform fun s => (overwrite .nr12 b s).silent

/-- WR_NR13 (R119). -/
def execWrNr13 (b : Byte) (s : State) : Host.Outcome State Fault Refusal :=
  s.perform fun s => (overwrite .nr13 b s).silent

/-- WR_NR14 (R120). -/
def execWrNr14 (b : Byte) (s : State) : Host.Outcome State Fault Refusal :=
  s.perform fun s => (restartWrite .ch1 b s).silent

/-- WR_NR21 (R121). -/
def execWrNr21 (b : Byte) (s : State) : Host.Outcome State Fault Refusal :=
  s.perform fun s => (lengthWrite .ch2 b s).silent

/-- WR_NR22 (R122). -/
def execWrNr22 (b : Byte) (s : State) : Host.Outcome State Fault Refusal :=
  s.perform fun s => (overwrite .nr22 b s).silent

/-- WR_NR23 (R123). -/
def execWrNr23 (b : Byte) (s : State) : Host.Outcome State Fault Refusal :=
  s.perform fun s => (overwrite .nr23 b s).silent

/-- WR_NR24 (R124). -/
def execWrNr24 (b : Byte) (s : State) : Host.Outcome State Fault Refusal :=
  s.perform fun s => (restartWrite .ch2 b s).silent

/-- WR_NR30 (R125). -/
def execWrNr30 (b : Byte) (s : State) : Host.Outcome State Fault Refusal :=
  s.perform fun s => (overwrite .nr30 b s).silent

/-- WR_NR31 (R126). -/
def execWrNr31 (b : Byte) (s : State) : Host.Outcome State Fault Refusal :=
  s.perform fun s => (lengthWrite .ch3 b s).silent

/-- WR_NR32 (R127). -/
def execWrNr32 (b : Byte) (s : State) : Host.Outcome State Fault Refusal :=
  s.perform fun s => (overwrite .nr32 b s).silent

/-- WR_NR33 (R128). -/
def execWrNr33 (b : Byte) (s : State) : Host.Outcome State Fault Refusal :=
  s.perform fun s => (overwrite .nr33 b s).silent

/-- WR_NR34 (R129). -/
def execWrNr34 (b : Byte) (s : State) : Host.Outcome State Fault Refusal :=
  s.perform fun s => (restartWrite .ch3 b s).silent

/-- WR_NR41 (R130). -/
def execWrNr41 (b : Byte) (s : State) : Host.Outcome State Fault Refusal :=
  s.perform fun s => (lengthWrite .ch4 b s).silent

/-- WR_NR42 (R131). -/
def execWrNr42 (b : Byte) (s : State) : Host.Outcome State Fault Refusal :=
  s.perform fun s => (overwrite .nr42 b s).silent

/-- WR_NR43 (R132). -/
def execWrNr43 (b : Byte) (s : State) : Host.Outcome State Fault Refusal :=
  s.perform fun s => (overwrite .nr43 b s).silent

/-- WR_NR44 (R133). -/
def execWrNr44 (b : Byte) (s : State) : Host.Outcome State Fault Refusal :=
  s.perform fun s => (restartWrite .ch4 b s).silent

/-- WR_NR50 (R134). -/
def execWrNr50 (b : Byte) (s : State) : Host.Outcome State Fault Refusal :=
  s.perform fun s => (overwrite .nr50 b s).silent

/-- WR_NR51 (R135). -/
def execWrNr51 (b : Byte) (s : State) : Host.Outcome State Fault Refusal :=
  s.perform fun s => (overwrite .nr51 b s).silent

/-- WR_NR52 (R136). -/
def execWrNr52 (b : Byte) (s : State) : Host.Outcome State Fault Refusal :=
  s.perform fun s => (overwrite .nr52 b s).silent

/-- WR_UNMAPPED: "a no-op (not an error)" (R113). -/
def execWrUnmapped (_a : Addr) (_b : Byte) (s : State) : Host.Outcome State Fault Refusal :=
  s.perform fun s => s.silent

end Sys2Proof.Machine
end

