-- ==== Sys2Proof/Machine/Envelope.lean ====
section
/-! DEFINITION. The Volume Envelope state machine, `ENV_CLOCK` (42_envelope.md). -/

namespace Sys2Proof.Machine

/-- The volume after an expiry: one up or one down, skipped at 15 and at 0 (R151). -/
def stepVolume (amplify : Bool) (v : BitVec 4) : BitVec 4 :=
  if amplify then (if v.toNat < 15 then v + 1 else v)
  else (if 0 < v.toNat then v - 1 else v)

/-- `env_step(c)` (R151); period field 0 freezes it (R152). -/
def envStep (c : EnvChannel) (s : State) : State :=
  let e := s.nr c.nrc2
  let p := envPeriod e
  if p = 0 then s
  else
    let (cd, expired) := decExpire (s.envCd.get c).toNat
    if expired then
      (s.setEnvCd c p).setNr c.nrc2 (e.setField 4 (stepVolume (envAmplify e) (envVolume e)))
    else s.setEnvCd c (BitVec.ofNat 3 cd)

/-- `ENV_CLOCK`: channels 1, 2, 4 in that order (R150). -/
def envClock (s : State) : State := envStep .ch4 (envStep .ch2 (envStep .ch1 s))

end Sys2Proof.Machine
end

