-- ==== Sys2Proof/Machine/Length.lean ====
section
/-! DEFINITION. The Length Counter state machine, `LEN_CLOCK` (44_length.md). -/

namespace Sys2Proof.Machine

/-- `len_step(c)` (R181): disabled, nothing; else count down, never below 0, and clear the length-enable bit when the
counter is 0. The register `NRc1` is not rewritten (R182). -/
def lenStep (c : Channel) (s : State) : State :=
  if s.lenEnable c = false then s
  else
    let s₁ := if s.len.get c ≠ 0 then s.setLen c (s.len.get c - 1) else s
    if s₁.len.get c = 0 then s₁.setLenEnable c false else s₁

/-- `LEN_CLOCK`: channels 1 to 4 in that order (R180). -/
def lenClock (s : State) : State := lenStep .ch4 (lenStep .ch3 (lenStep .ch2 (lenStep .ch1 s)))

end Sys2Proof.Machine
end

