-- ==== Sys2Proof/Machine/Tick.lean ====
section
/-! DEFINITION. The Cycle Scheduler, `TICK`, and the Frame Sequencer, `FS_STEP` (40_tick_scheduler.md). -/

namespace Sys2Proof.Machine

/-- `FS_STEP`: the step counter advances modulo 8 (R96); it gates nothing (R97). -/
def fsClock (s : State) : State := { s with fsStep := s.fsStep + 1 }

/-- The state machine a sub-timer clocks (R92). -/
def SubTimer.clock : SubTimer → State → State
  | .fs => fsClock
  | .env => envClock
  | .swp => sweepClock
  | .len => lenClock

/-- First phase: "Adds elapsedCycles to all four counters", exactly (R91). -/
def accumulate (n : Nat) (s : State) : State :=
  { s with acc := ⟨s.acc.fs + n, s.acc.env + n, s.acc.swp + n, s.acc.len + n⟩ }

/-- How often a sub-timer's machine is clocked when it fires (R92, R94). -/
def clockCount (cfg : Config) (acc period : Nat) : Nat := if cfg.multiFire then acc / period else 1

/-- Second phase for one sub-timer: at or above its period it clocks its machine and is reduced modulo the period (R92). -/
def fire (cfg : Config) (t : SubTimer) (s : State) : State :=
  let acc := s.acc.get t
  let period := cfg.period t
  if period ≤ acc then ((SubTimer.clock t)^[clockCount cfg acc period] s).setAcc t (acc % period) else s

/-- The second phase over sub-timers in a given order. -/
def fireAll (cfg : Config) (order : List SubTimer) (s : State) : State :=
  order.foldl (fun s t => fire cfg t s) s

/-- The order of evaluation: frame sequencer, envelope, sweep, length (R93). -/
def fireOrder : List SubTimer := [.fs, .env, .swp, .len]

/-- `TICK n` for given parameters (R91, R92). -/
def tick (cfg : Config) (n : Nat) (s : State) : State := fireAll cfg fireOrder (accumulate n s)

/-- TICK (R90 to R94). -/
def execTick (n : Cycles) (s : State) : Host.Outcome State Fault Refusal :=
  s.perform fun s => (tick Config.hardware n.toNat s).silent

end Sys2Proof.Machine
end

