-- ==== Sys2Proof/Machine/Dispatch.lean ====
section
/-! DEFINITION. One arm per command. -/

namespace Sys2Proof.Machine

def exec (i : Instr) (s : State) : Host.Outcome State Fault Refusal :=
  match i with
  | .wrNr10 b => Sys2Proof.Machine.execWrNr10 b s
  | .wrNr11 b => Sys2Proof.Machine.execWrNr11 b s
  | .wrNr12 b => Sys2Proof.Machine.execWrNr12 b s
  | .wrNr13 b => Sys2Proof.Machine.execWrNr13 b s
  | .wrNr14 b => Sys2Proof.Machine.execWrNr14 b s
  | .wrNr21 b => Sys2Proof.Machine.execWrNr21 b s
  | .wrNr22 b => Sys2Proof.Machine.execWrNr22 b s
  | .wrNr23 b => Sys2Proof.Machine.execWrNr23 b s
  | .wrNr24 b => Sys2Proof.Machine.execWrNr24 b s
  | .wrNr30 b => Sys2Proof.Machine.execWrNr30 b s
  | .wrNr31 b => Sys2Proof.Machine.execWrNr31 b s
  | .wrNr32 b => Sys2Proof.Machine.execWrNr32 b s
  | .wrNr33 b => Sys2Proof.Machine.execWrNr33 b s
  | .wrNr34 b => Sys2Proof.Machine.execWrNr34 b s
  | .wrNr41 b => Sys2Proof.Machine.execWrNr41 b s
  | .wrNr42 b => Sys2Proof.Machine.execWrNr42 b s
  | .wrNr43 b => Sys2Proof.Machine.execWrNr43 b s
  | .wrNr44 b => Sys2Proof.Machine.execWrNr44 b s
  | .wrNr50 b => Sys2Proof.Machine.execWrNr50 b s
  | .wrNr51 b => Sys2Proof.Machine.execWrNr51 b s
  | .wrNr52 b => Sys2Proof.Machine.execWrNr52 b s
  | .rdNr10 => Sys2Proof.Machine.execRdNr10 s
  | .rdNr11 => Sys2Proof.Machine.execRdNr11 s
  | .rdNr12 => Sys2Proof.Machine.execRdNr12 s
  | .rdNr13 => Sys2Proof.Machine.execRdNr13 s
  | .rdNr14 => Sys2Proof.Machine.execRdNr14 s
  | .rdNr21 => Sys2Proof.Machine.execRdNr21 s
  | .rdNr22 => Sys2Proof.Machine.execRdNr22 s
  | .rdNr23 => Sys2Proof.Machine.execRdNr23 s
  | .rdNr24 => Sys2Proof.Machine.execRdNr24 s
  | .rdNr30 => Sys2Proof.Machine.execRdNr30 s
  | .rdNr31 => Sys2Proof.Machine.execRdNr31 s
  | .rdNr32 => Sys2Proof.Machine.execRdNr32 s
  | .rdNr33 => Sys2Proof.Machine.execRdNr33 s
  | .rdNr34 => Sys2Proof.Machine.execRdNr34 s
  | .rdNr41 => Sys2Proof.Machine.execRdNr41 s
  | .rdNr42 => Sys2Proof.Machine.execRdNr42 s
  | .rdNr43 => Sys2Proof.Machine.execRdNr43 s
  | .rdNr44 => Sys2Proof.Machine.execRdNr44 s
  | .rdNr50 => Sys2Proof.Machine.execRdNr50 s
  | .rdNr51 => Sys2Proof.Machine.execRdNr51 s
  | .rdNr52 => Sys2Proof.Machine.execRdNr52 s
  | .tick n => Sys2Proof.Machine.execTick n s
  | .wrUnmapped a b => Sys2Proof.Machine.execWrUnmapped a b s
  | .rdUnmapped a => Sys2Proof.Machine.execRdUnmapped a s
  | .ramwr a b => Sys2Proof.Machine.execRamwr a b s
  | .ramrd a => Sys2Proof.Machine.execRamrd a s

end Sys2Proof.Machine
end

