-- ==== Sys2Proof/Machine/Step.lean ====
section
/-! DEFINITION. One step of the block's clock (30_encoding.md R61): the input ports are sampled, and reset, the
presented command or nothing is performed. -/

namespace Sys2Proof.Machine

/-- A fetched request: reset (70_reset_and_hazards.md R230), nothing (30_encoding.md R61), or a command, decoded (R62)
and performed; a reserved kind is refused by name (60_exceptions.md R220). -/
def serve (request : Request) (s : State) : Host.Outcome State Fault Refusal :=
  match request with
  | .none => .next s.idle
  | .reset => .next s.assertReset
  | .command c =>
    match decode c with
    | .ok i => exec i s
    | .error (.reservedCommand k) => .refused (.reservedCommand k)

/-- One step. -/
def step (s : State) : Host.Outcome State Fault Refusal := serve s.fetch.1 s.fetch.2

/-- The state with the record of a table row's bits presented next at the command port, before what was presented
(log 8). -/
def State.withFetchWord (s : State) (nbits w : Nat) : State :=
  { s with port := PortSample.ofCommand (tableCommand nbits w) :: s.port }

end Sys2Proof.Machine
end

