-- ==== Sys2Proof/Safety.lean ====
section
/-! DEFINITION. The terms claims are stated in: the invariant of reachable states (10_state.md R24), what a step may leave
unchanged, and when a run of commands ends safely (00_scope.md R2). -/

namespace Sys2Proof.Machine

/-- R24, for given parameters, and the canonical form of Audio RAM: what holds in every state reachable from reset by
commands that do not fault. The other ranges of R24 are the widths of the fields. -/
structure State.Inv (cfg : Config) (s : State) : Prop where
  /-- `0 <= acc_x < P_x` (40_tick_scheduler.md R95) -/
  acc_lt : ∀ t : SubTimer, s.acc.get t < cfg.period t
  /-- `swp_cd <= 8` (10_state.md R17) -/
  swpCd_le : s.swpCd.toNat ≤ 8
  /-- `len[3] <= 256` (R20) -/
  len3_le : s.len.get .ch3 ≤ 256
  /-- Audio RAM is in canonical form (log 9) -/
  aram_wf : s.aram.wf = true
  /-- only `ARAM[0 .. 14]` exists (R21) -/
  aram_below : ∀ k b, (k, b) ∈ s.aram → k < Config.aramSize

/-- All registers but those listed read as before. -/
def SameRegsBut (l : List Reg) (s t : State) : Prop := ∀ r, r ∉ l → t.nr r = s.nr r

/-- All envelope countdowns but those listed are as before. -/
def SameEnvCdBut (l : List EnvChannel) (s t : State) : Prop := ∀ c, c ∉ l → t.envCd.get c = s.envCd.get c

/-- All length counters but those listed are as before. -/
def SameLenBut (l : List Channel) (s t : State) : Prop := ∀ c, c ∉ l → t.len.get c = s.len.get c

/-- The sweep's hidden state is as before: `swp_cd`, `shadow`, `swp_en`. -/
def SameSweep (s t : State) : Prop := t.swpCd = s.swpCd ∧ t.shadow = s.shadow ∧ t.swpEn = s.swpEn

/-- The scheduler's state is as before: the four accumulators and `fs_step`. -/
def SameTimers (s t : State) : Prop := t.acc = s.acc ∧ t.fsStep = s.fsStep

/-- Every byte of Audio RAM reads as before. -/
def SameAram (s t : State) : Prop := ∀ o, t.aram.read o = s.aram.read o

/-- The sticky `fault` flag, what the host presents next and the number of the next free byte are as before. -/
def SameRest (s t : State) : Prop := t.fault = s.fault ∧ t.port = s.port ∧ t.draws = s.draws

/-- A step that returns nothing: no data on `rsp_rdata`, no fault on `rsp_fault` (log 5). -/
def AnswersNothing (t : State) : Prop := t.rsp.rdata = none ∧ t.rsp.fault = none

/-- The state with another register value, whatever it was: for claims that a register does not matter. -/
def State.withReg (s : State) (r : Reg) (v : Byte) : State := { s with regs := s.regs.set r v }

/-- The state with other Audio RAM contents: for claims that they do not matter. -/
def State.withAram (s : State) (m : Memory) : State := { s with aram := m }

/-- The state with other response ports: for claims about everything but the response. -/
def State.withRsp (s : State) (x : Response) : State := { s with rsp := x }

/-- The registers no rule interprets (30_encoding.md R70, R72, R73): every bit is storage. -/
def uninterpreted : List Reg := [.nr23, .nr30, .nr32, .nr33, .nr43, .nr50, .nr51, .nr52]

/-- The bits of a register that only a `WR` to it (and reset) changes (10_state.md R12): all bits, but the volume nibble of
`NRc2`, all of NR13, `NR14[2:0]` and the length-enable bits `NRc4[6]`. -/
def hostOnlyBits : Reg → Byte
  | .nr12 | .nr22 | .nr42 => 0x0F
  | .nr13 => 0x00
  | .nr14 => 0xB8
  | .nr24 | .nr34 | .nr44 => 0xBF
  | .nr10 | .nr11 | .nr21 | .nr23 | .nr30 | .nr31 | .nr32 | .nr33 | .nr41 | .nr43 | .nr50 | .nr51 | .nr52 => 0xFF

/-- The state after each state machine has been clocked `k` of its sub-timer times (40_tick_scheduler.md R98). The order of
the clocks does not matter (R93). -/
def State.clocked (k : SubTimer → Nat) (s : State) : State :=
  (SubTimer.clock .len)^[k .len] ((SubTimer.clock .swp)^[k .swp]
    ((SubTimer.clock .env)^[k .env] ((SubTimer.clock .fs)^[k .fs] s)))

/-- The candidate frequency in plain arithmetic, `f - f / 2^s` or `f + f / 2^s` (43_sweep.md R161). -/
def candidateFrequency (f s : Nat) (neg : Bool) : Nat := if neg then f - f / 2 ^ s else f + f / 2 ^ s

/-- A sequence of `TICK` commands at the port. -/
def tickPort (ns : List Cycles) : List PortSample := ns.map fun n => PortSample.ofCommand (encode (.tick n))

/-- The block's state after `k` steps, if no step stops. -/
def RunsTo (k : Nat) (s t : State) : Prop := Host.Core.run Sys2Proof.core k s = .next t

/-- A sample that raises no fault and no refusal on a block that has not faulted: no command is performed, or it is of
kind 0 to 4 and in the bounds of Audio RAM where it reaches it (60_exceptions.md R210, R220). -/
def PortSample.InRange (p : PortSample) : Prop :=
  p.rst = false → p.cmdValid = true →
    p.cmd.kind.toNat < 5 ∧
      (3 ≤ p.cmd.kind.toNat → Config.hardware.aramBase.toNat ≤ p.cmd.addr.toNat ∧
        p.cmd.addr.toNat ≤ Config.hardware.aramBase.toNat + 14)

/-- An end state (00_scope.md R2): the last command has been performed and `fault = 0`. -/
def IsEndState (t : State) : Prop := t.port = [] ∧ t.fault = false

/-- A safe run (R2, 60_exceptions.md R213): every presented sample is served without a stop, no step of the run leaves
`fault = 1`, and the state reached is an end state. R2 defines runs of command sequences only. DESIGN CHOICE (log 14): a
reset among the samples is served as a step of the run, and a reset presented after a faulting command does not make the
run safe, because "a run that faults has no end state". -/
def RunsSafely (s : State) : Prop :=
  ∃ t, RunsTo s.port.length s t ∧ IsEndState t ∧
    ∀ k u, 0 < k → k ≤ s.port.length → RunsTo k s u → u.fault = false

end Sys2Proof.Machine
end

