-- ==== Sys2Proof/Certificates/Slice0/Obligations.lean ====
section
/-! DEFINITION. The statements about the model, for the provers. Each docstring names the part of the spec it formalises;
where a clause rests on a decision the spec marks as its own or on a choice of this model, it says so. -/

open Sys2Proof Sys2Proof.Machine

/-- Encode and decode agree for every command (30_encoding.md, the record of section 1 and the tuple of section 6). -/
def Obligations.DecodeInvertsEncode : Prop :=
  ∀ i : Instr, i.WellFormed → decode (encode i) = .ok i

/-- The other direction of the round trip: no used field of a record is dropped or altered (the column "fields used" of 30_encoding.md section 1). -/
def Obligations.DecodedCommandKeepsItsUsedFields : Prop :=
  ∀ (c : Command) (i : Instr), decode c = .ok i →
    i.WellFormed ∧ (encode i).kind = c.kind ∧ (c.kind ≠ 0 → (encode i).addr = c.addr) ∧
      (c.kind = 1 ∨ c.kind = 3 → (encode i).data = c.data) ∧ (c.kind = 0 → (encode i).cycles = c.cycles)

/-- The decode rule of 30_encoding.md section 1: rows of opcode_table.json, most specific mask first, total. The selector and the masks are the spec's decision D2. -/
def Obligations.DecodeFollowsOpcodeTable : Prop :=
  ∀ c : Command,
    decode c = decodeByTable c ∧ (OpcodeRow.exact.filter fun row => row.matches c.sel).length ≤ 1 ∧
      (OpcodeRow.byKind.filter fun row => row.matches c.sel).length = (if c.kind.toNat < 5 then 1 else 0) ∧
      (5 ≤ c.kind.toNat → decode c = .error (.reservedCommand c.kind))

/-- "Fields a command does not use are ignored" (30_encoding.md section 1; the spec's decision D1). -/
def Obligations.UnusedFieldsAreIgnored : Prop :=
  ∀ (a : Addr) (b : Byte) (n : Cycles),
    decode ⟨0, a, b, n⟩ = decode ⟨0, 0, 0, n⟩ ∧ decode ⟨1, a, b, n⟩ = decode ⟨1, a, b, 0⟩ ∧
      decode ⟨2, a, b, n⟩ = decode ⟨2, a, 0, 0⟩ ∧ decode ⟨3, a, b, n⟩ = decode ⟨3, a, b, 0⟩ ∧
      decode ⟨4, a, b, n⟩ = decode ⟨4, a, 0, 0⟩

/-- Sanity: encoded commands as 95_test_vectors.md writes them. The last clause takes the record of the table's selector by the model's numbering of a record (log 7). -/
def Obligations.SpecRecordsDecode : Prop :=
  decode ⟨1, 0xFF14, 0x80, 0⟩ = .ok (.wrNr14 0x80) ∧ decode ⟨1, 0xFF16, 0x02, 0⟩ = .ok (.wrNr21 0x02) ∧
    decode ⟨0, 0, 0, 65536⟩ = .ok (.tick 65536) ∧ decode ⟨2, 0xFF12, 0, 0⟩ = .ok .rdNr12 ∧
    decode ⟨3, 0xFF3E, 0xEF, 0⟩ = .ok (.ramwr 0xFF3E 0xEF) ∧ decode ⟨4, 0xFF3F, 0, 0⟩ = .ok (.ramrd 0xFF3F) ∧
    decode ⟨1, 0xFF15, 0xAA, 0⟩ = .ok (.wrUnmapped 0xFF15 0xAA) ∧
    decode ⟨2, 0xFF15, 0, 0⟩ = .ok (.rdUnmapped 0xFF15) ∧ decodeTableWord 24 0x1FF14 = some (.wrNr14 0)

/-- One command is accepted per step and performed atomically (30_encoding.md section 1). That the port is a list in the state is the model's choice (log 1). -/
def Obligations.StepPerformsThePresentedCommand : Prop :=
  ∀ (s : State) (c : Command) (later : List PortSample) (i : Instr),
    s.port = PortSample.ofCommand c :: later → decode c = .ok i → step s = exec i { s with port := later }

/-- "When cmd_valid = 0 the state does not change" (30_encoding.md section 1). That the response ports are then empty, and that an empty list is cmd_valid = 0, are the model's choices (logs 5 and 1). -/
def Obligations.StepWithoutCommandKeepsTheState : Prop :=
  (∀ (s : State) (c : Command) (later : List PortSample), s.port = ⟨false, false, c⟩ :: later →
      step s = .next { s with port := later, rsp := ⟨none, none⟩ }) ∧
    ∀ s : State, s.port = [] → step s = .next { s with rsp := ⟨none, none⟩ }

/-- Refusal of reserved commands (the spec's decision D23). That they are refused on a faulted block too, before the fault flag is looked at, is the model's choice (log 11). -/
def Obligations.ReservedKindsAreRefused : Prop :=
  ∀ (s : State) (c : Command) (later : List PortSample),
    s.port = PortSample.ofCommand c :: later → 5 ≤ c.kind.toNat → step s = .refused (.reservedCommand c.kind)

/-- Reset (70_reset_and_hazards.md section 1) with the table of 10_state.md section 9. Zero for the counters is the spec's decision D22, reset over a command its decision D31; that later samples stay, and that the response ports are empty after a reset step, are the model's choices (logs 10 and 5). -/
def Obligations.ResetWinsFromEveryState : Prop :=
  ∀ (s : State) (v : Bool) (c : Command) (later : List PortSample), s.port = ⟨true, v, c⟩ :: later →
    ∃ t, step s = .next t ∧ (∀ r, t.nr r = 0) ∧ (∀ o, t.aram.read o = 0) ∧ t.acc = ⟨0, 0, 0, 0⟩ ∧ t.fsStep = 0 ∧
      (∀ e, t.envCd.get e = 0) ∧ t.swpCd = 0 ∧ t.shadow = 0 ∧ t.swpEn = false ∧ (∀ k, t.len.get k = 0) ∧
      t.fault = false ∧ AnswersNothing t ∧ t.port = later

/-- The invariant of 10_state.md section 8 at reset. -/
def Obligations.ResetStateMeetsTheInvariant : Prop :=
  State.reset.Inv Config.hardware

/-- The invariant of 10_state.md section 8 (accumulators below their periods, swp_cd at most 8, len[3] at most 256) and the canonical form of Audio RAM, inductively. -/
def Obligations.StepKeepsTheInvariant : Prop :=
  ∀ s t : State, s.Inv Config.hardware → step s = .next t → t.Inv Config.hardware

/-- No other stop exists (60_exceptions.md section 1). That a faulted block stops on commands is the spec's decision D21; that a reserved kind is refused before the fault flag is looked at is the model's choice (log 11). -/
def Obligations.StepStopsOnlyForFaultedOrReserved : Prop :=
  ∀ s : State,
    ((∃ f, step s = .fault f) ↔
        s.fault = true ∧ ∃ c later i, s.port = PortSample.ofCommand c :: later ∧ decode c = .ok i) ∧
      ((∃ r, step s = .refused r) ↔ ∃ c later, s.port = PortSample.ofCommand c :: later ∧ 5 ≤ c.kind.toNat)

/-- The two error classes of 60_exceptions.md section 1, and no other condition faults. That the faulting access answers a next state with the sticky flag set is the spec's decision D21 and the model's reading (log 3); for an ill-formed wrUnmapped or rdUnmapped term, whose address is a register's, the statement rests on the model's choice (log 12). -/
def Obligations.OnlyAudioRamBoundsFaults : Prop :=
  ∀ (i : Instr) (s : State), s.fault = false →
    (∃ t, exec i s = .next t ∧
      (t.fault = true ↔ ∃ a : Addr, (i = .ramrd a ∨ ∃ b, i = .ramwr a b) ∧
        ¬ (Config.hardware.aramBase.toNat ≤ a.toNat ∧ a.toNat ≤ Config.hardware.aramBase.toNat + 14))) ∧
      ∀ a b, i = .wrUnmapped a b → exec i s = .next { s with rsp := ⟨none, none⟩ }

/-- The bounds of 46_audio_ram.md, with the corner cases of its ARAM_BASE = 0xFF30. Code 1 and what is recorded are the spec's decision D26; that nothing else changes is its decision D21, and that the fault is a next state the model's reading (log 3). -/
def Obligations.OutOfRangeAudioRamAccessFaults : Prop :=
  FaultCause.code .audioRamBounds = 1 ∧
    ∀ (s : State) (a : Addr), s.fault = false →
      (¬ (0xFF30 ≤ a.toNat ∧ a.toNat ≤ 0xFF3E) →
        exec (.ramrd a) s = .next { s with fault := true, rsp := ⟨none, some ⟨.audioRamBounds, a, .read⟩⟩ } ∧
          ∀ b, exec (.ramwr a b) s =
            .next { s with fault := true, rsp := ⟨none, some ⟨.audioRamBounds, a, .write⟩⟩ }) ∧
        (0xFF30 ≤ a.toNat ∧ a.toNat ≤ 0xFF3E →
          (∃ t, exec (.ramrd a) s = .next t ∧ t.fault = false) ∧
            ∀ b, ∃ t, exec (.ramwr a b) s = .next t ∧ t.fault = false)

/-- After a fault no command has a defined effect (the spec's decision D21). -/
def Obligations.FaultedBlockPerformsNoCommand : Prop :=
  ∀ (i : Instr) (s : State), s.fault = true → exec i s = .fault .faultedBlock

/-- Only reset clears the sticky fault, and no command is performed (10_state.md section 6; the spec's decision D21). The empty response ports of a step without a command, and that an empty list is cmd_valid = 0, are the model's choices (logs 5 and 1). -/
def Obligations.OnlyResetLeavesTheFaultedState : Prop :=
  ∀ s t : State, s.fault = true → step s = .next t →
    (∃ v c later, s.port = ⟨true, v, c⟩ :: later ∧ t.fault = false) ∨
      ((s.port = [] ∨ ∃ c later, s.port = ⟨false, false, c⟩ :: later) ∧
        t = { s with port := s.port.tail, rsp := ⟨none, none⟩ })

/-- A step cannot fault while what is presented is in range: a command of kind 0 to 4 (in the bounds of Audio RAM for kinds 3 and 4), reset, or nothing (60_exceptions.md section 1). The samples are the model's list (log 1). -/
def Obligations.StepKeepsTheBlockUnfaulted : Prop :=
  ∀ s : State, s.fault = false → (∀ p ∈ s.port, p.InRange) →
    ∃ t, step s = .next t ∧ t.fault = false ∧ t.port = s.port.tail ∧ ∀ p ∈ t.port, p.InRange

/-- When a run of a command sequence ends (00_scope.md section 1), by induction over the sequence. The sequence is the list of samples at the port (logs 1 and 8); what RunsSafely says of resets is log 14 and does not arise here. -/
def Obligations.CommandsWithinRangeRunSafely : Prop :=
  ∀ s : State, s.fault = false →
    (∀ p ∈ s.port, ∃ c, p = PortSample.ofCommand c ∧ c.kind.toNat < 5 ∧
      (3 ≤ c.kind.toNat → Config.hardware.aramBase.toNat ≤ c.addr.toNat ∧
        c.addr.toNat ≤ Config.hardware.aramBase.toNat + 14)) →
    RunsSafely s

/-- RAMWR (46_audio_ram.md). The canonical form is the model's own (log 9, and the invariant StepKeepsTheInvariant); the fault entry out of range is the spec's decision D21 and the model's reading (log 3), its code and record the decision D26. -/
def Obligations.AudioRamWriteStoresTheByte : Prop :=
  ∀ (s : State) (a : Addr) (b : Byte), s.fault = false → s.aram.wf = true →
    (∀ o, aramIndex? Config.hardware a = some o →
      o = a.toNat - Config.hardware.aramBase.toNat ∧
        ∃ t, exec (.ramwr a b) s = .next t ∧ t.aram.read o = b ∧ (∀ o', o' ≠ o → t.aram.read o' = s.aram.read o') ∧
          t.aram.wf = true ∧ SameRegsBut [] s t ∧ SameEnvCdBut [] s t ∧ SameLenBut [] s t ∧ SameSweep s t ∧
          SameTimers s t ∧ SameRest s t ∧ AnswersNothing t) ∧
      (aramIndex? Config.hardware a = none →
        exec (.ramrd a) s = .next { s with fault := true, rsp := ⟨none, some ⟨.audioRamBounds, a, .read⟩⟩ } ∧
          exec (.ramwr a b) s = .next { s with fault := true, rsp := ⟨none, some ⟨.audioRamBounds, a, .write⟩⟩ }) ∧
      (aramIndex? Config.hardware a = none ↔ ¬ (0xFF30 ≤ a.toNat ∧ a.toNat ≤ 0xFF3E))

/-- RAMRD (46_audio_ram.md). The fault entry out of range is the spec's decision D21 and the model's reading (log 3), its code and record the decision D26. -/
def Obligations.AudioRamReadReturnsTheByte : Prop :=
  ∀ (s : State) (a : Addr), s.fault = false →
    (Config.hardware.aramBase.toNat ≤ a.toNat ∧ a.toNat ≤ Config.hardware.aramBase.toNat + 14 →
      exec (.ramrd a) s =
        .next { s with rsp := ⟨some (s.aram.read (a.toNat - Config.hardware.aramBase.toNat)), none⟩ }) ∧
      (¬ (Config.hardware.aramBase.toNat ≤ a.toNat ∧ a.toNat ≤ Config.hardware.aramBase.toNat + 14) →
        exec (.ramrd a) s = .next { s with fault := true, rsp := ⟨none, some ⟨.audioRamBounds, a, .read⟩⟩ })

/-- Claims should quantify over ARAM_BASE (the spec's decision D20); no wrap modulo 2^16 (D33). -/
def Obligations.AudioRamForEveryBase : Prop :=
  ∀ (cfg : Config) (a a' : Addr) (b : Byte) (s : State), s.aram.wf = true →
    (∀ o, aramIndex? cfg a = some o ↔ a.toNat = cfg.aramBase.toNat + o ∧ o ≤ 14) ∧
      ∀ o o', aramIndex? cfg a = some o → aramIndex? cfg a' = some o' →
        (aramRead cfg a' (aramWrite cfg a b s)).rsp =
          ⟨some (if o' = o then b else s.aram.read o'), none⟩

/-- R200. -/
def Obligations.AudioRamContentsMatterToNothingElse : Prop :=
  ∀ (i : Instr) (s t : State) (m : Memory), exec i s = .next t →
    (Config.aramSize = 15 ∧ ∀ a o, aramIndex? Config.hardware a = some o → o < Config.aramSize) ∧
      ((∀ a b, i ≠ .ramwr a b) → t.aram = s.aram) ∧
      ∃ t', exec i (s.withAram m) = .next t' ∧
        (t'.withAram []).withRsp ⟨none, none⟩ = (t.withAram []).withRsp ⟨none, none⟩ ∧
        ((∀ a, i ≠ .ramrd a) → t'.rsp = t.rsp)

/-- R111, for WR_NR10, WR_NR11, WR_NR12, WR_NR13, WR_NR21, WR_NR22, WR_NR23, WR_NR30, WR_NR31, WR_NR32, WR_NR33, WR_NR41, WR_NR42, WR_NR43, WR_NR50, WR_NR51 and WR_NR52. -/
def Obligations.NonRestartWritesOverwrite : Prop :=
  ∀ w ∈ [(Instr.wrNr10, Reg.nr10), (Instr.wrNr11, Reg.nr11), (Instr.wrNr12, Reg.nr12), (Instr.wrNr13, Reg.nr13),
       (Instr.wrNr21, Reg.nr21), (Instr.wrNr22, Reg.nr22), (Instr.wrNr23, Reg.nr23), (Instr.wrNr30, Reg.nr30),
       (Instr.wrNr31, Reg.nr31), (Instr.wrNr32, Reg.nr32), (Instr.wrNr33, Reg.nr33), (Instr.wrNr41, Reg.nr41),
       (Instr.wrNr42, Reg.nr42), (Instr.wrNr43, Reg.nr43), (Instr.wrNr50, Reg.nr50), (Instr.wrNr51, Reg.nr51),
       (Instr.wrNr52, Reg.nr52)],
    ∀ (b : Byte) (s : State), s.fault = false →
      ∃ t, exec (w.1 b) s = .next t ∧ t.nr w.2 = b ∧ SameRegsBut [w.2] s t ∧ SameEnvCdBut [] s t ∧ SameSweep s t ∧
        SameTimers s t ∧ SameAram s t ∧ SameRest s t ∧ AnswersNothing t ∧
        (w.2 ∉ [Reg.nr11, .nr21, .nr31, .nr41] → SameLenBut [] s t)

/-- The length load at every write to NRc1 is the spec's decision D14; field widths of 30_encoding.md section 4. -/
def Obligations.LengthRegisterWriteLoadsTheCounter : Prop :=
  ∀ w ∈ [(Instr.wrNr11, Reg.nr11, Channel.ch1), (Instr.wrNr21, Reg.nr21, Channel.ch2),
      (Instr.wrNr31, Reg.nr31, Channel.ch3), (Instr.wrNr41, Reg.nr41, Channel.ch4)],
    ∀ (b : Byte) (s : State), s.fault = false →
      ∃ t, exec (w.1 b) s = .next t ∧ t.nr w.2.1 = b ∧
        t.len.get w.2.2 = (if w.2.2 = Channel.ch3 then b.toNat else b.toNat % 64) ∧ SameRegsBut [w.2.1] s t ∧
        SameLenBut [w.2.2] s t ∧ SameEnvCdBut [] s t ∧ SameSweep s t ∧ SameTimers s t ∧ SameAram s t ∧
        SameRest s t ∧ AnswersNothing t

/-- Transitions 0 to 0, 1 to 1 and 1 to 0 run nothing beyond the overwrite (41_register_dispatch.md section 1). -/
def Obligations.RestartWriteWithoutEdgeOnlyStores : Prop :=
  ∀ w ∈ [(Instr.wrNr14, Reg.nr14, Channel.ch1), (Instr.wrNr24, Reg.nr24, Channel.ch2),
      (Instr.wrNr34, Reg.nr34, Channel.ch3), (Instr.wrNr44, Reg.nr44, Channel.ch4)],
    ∀ (b : Byte) (s : State), s.fault = false → (s.nr w.2.1).getLsbD 7 = true ∨ b.getLsbD 7 = false →
      ∃ t, exec (w.1 b) s = .next t ∧ t.nr w.2.1 = b ∧ SameRegsBut [w.2.1] s t ∧ SameLenBut [] s t ∧
        SameEnvCdBut [] s t ∧ SameSweep s t ∧ SameTimers s t ∧ SameAram s t ∧ SameRest s t ∧ AnswersNothing t

/-- R192, with the frame of a trigger; the envelope and sweep parts are TriggerReloadsTheEnvelopeCountdown and TriggerReloadsTheSweep. -/
def Obligations.TriggerSetsEnableAndReloadsExhaustedLength : Prop :=
  ∀ w ∈ [(Instr.wrNr14, Reg.nr14, Channel.ch1), (Instr.wrNr24, Reg.nr24, Channel.ch2),
      (Instr.wrNr34, Reg.nr34, Channel.ch3), (Instr.wrNr44, Reg.nr44, Channel.ch4)],
    ∀ (b : Byte) (s : State), s.fault = false → (s.nr w.2.1).getLsbD 7 = false → b.getLsbD 7 = true →
      ∃ t, exec (w.1 b) s = .next t ∧ t.nr w.2.1 = b ||| 0x40 ∧
        t.len.get w.2.2 =
          (if s.len.get w.2.2 = 0 then (if w.2.2 = Channel.ch3 then 256 else 63) else s.len.get w.2.2) ∧
        SameRegsBut [w.2.1] s t ∧ SameLenBut [w.2.2] s t ∧ (w.2.2 ≠ Channel.ch1 → SameSweep s t) ∧
        SameTimers s t ∧ SameAram s t ∧ SameRest s t ∧ AnswersNothing t

/-- R191. -/
def Obligations.TriggerReloadsTheEnvelopeCountdown : Prop :=
  (∀ w ∈ [(Instr.wrNr14, Reg.nr14, Reg.nr12, EnvChannel.ch1), (Instr.wrNr24, Reg.nr24, Reg.nr22, EnvChannel.ch2),
      (Instr.wrNr44, Reg.nr44, Reg.nr42, EnvChannel.ch4)],
    ∀ (b : Byte) (s : State), s.fault = false → (s.nr w.2.1).getLsbD 7 = false → b.getLsbD 7 = true →
      ∃ t, exec (w.1 b) s = .next t ∧ (t.envCd.get w.2.2.2).toNat = (s.nr w.2.2.1).toNat % 8 ∧
        t.nr w.2.2.1 = s.nr w.2.2.1 ∧ SameEnvCdBut [w.2.2.2] s t) ∧
    ∀ (b : Byte) (s : State), s.fault = false → (s.nr .nr34).getLsbD 7 = false → b.getLsbD 7 = true →
      ∃ t, exec (.wrNr34 b) s = .next t ∧ SameEnvCdBut [] s t

/-- Step 3 of the Trigger Protocol. The values and the unconditional check are the spec's decision D17, the polarity D11, post-write reads D18. -/
def Obligations.TriggerReloadsTheSweep : Prop :=
  ∀ (b : Byte) (s : State), s.fault = false → (s.nr .nr14).getLsbD 7 = false → b.getLsbD 7 = true →
    let p := (s.nr .nr10).toNat / 16 % 8
    let sh := (s.nr .nr10).toNat % 8
    let neg := (s.nr .nr10).getLsbD 3
    let f := 256 * (b.toNat % 8) + (s.nr .nr13).toNat
    ∃ t, exec (.wrNr14 b) s = .next t ∧ t.shadow.toNat = f ∧ t.swpCd.toNat = (if p = 0 then 8 else p) ∧
      (t.swpEn = true ↔ (p ≠ 0 ∨ sh ≠ 0) ∧ candidateFrequency f sh neg ≤ 2047) ∧ t.nr .nr13 = s.nr .nr13 ∧
      t.nr .nr14 = b ||| 0x40

/-- R113. -/
def Obligations.UnrecognizedWriteDoesNothing : Prop :=
  ∀ (s : State) (c : Command) (later : List PortSample), s.fault = false →
    s.port = PortSample.ofCommand c :: later → c.kind = 1 → (∀ r : Reg, r.addr ≠ c.addr) →
    decode c = .ok (.wrUnmapped c.addr c.data) ∧
      exec (.wrUnmapped c.addr c.data) { s with port := later } =
        .next { s with port := later, rsp := ⟨none, none⟩ } ∧
      step s = .next { s with port := later, rsp := ⟨none, none⟩ }

/-- The read path for all 21 registers; that it has no mask and no side effect is the spec's decision D28. -/
def Obligations.RegisterReadReturnsTheStoredByte : Prop :=
  ∀ w ∈ [(Instr.rdNr10, Reg.nr10), (Instr.rdNr11, Reg.nr11), (Instr.rdNr12, Reg.nr12), (Instr.rdNr13, Reg.nr13),
       (Instr.rdNr14, Reg.nr14), (Instr.rdNr21, Reg.nr21), (Instr.rdNr22, Reg.nr22), (Instr.rdNr23, Reg.nr23),
       (Instr.rdNr24, Reg.nr24), (Instr.rdNr30, Reg.nr30), (Instr.rdNr31, Reg.nr31), (Instr.rdNr32, Reg.nr32),
       (Instr.rdNr33, Reg.nr33), (Instr.rdNr34, Reg.nr34), (Instr.rdNr41, Reg.nr41), (Instr.rdNr42, Reg.nr42),
       (Instr.rdNr43, Reg.nr43), (Instr.rdNr44, Reg.nr44), (Instr.rdNr50, Reg.nr50), (Instr.rdNr51, Reg.nr51),
       (Instr.rdNr52, Reg.nr52)],
    ∀ s : State, s.fault = false → exec w.1 s = .next { s with rsp := ⟨some (s.nr w.2), none⟩ }

/-- The byte is free (the spec's decision D19); the counter and the opaque constant are the model's (log 4). For an address of a register, which no decoded RD_UNMAPPED has, it is the model's choice (log 12). Nothing here rests on the byte's value. -/
def Obligations.UnrecognizedReadReturnsAFreeByte : Prop :=
  ∀ (a : Addr) (s : State), s.fault = false →
    exec (.rdUnmapped a) s =
      .next { s with rsp := ⟨some (Config.freeByte s.draws), none⟩, draws := s.draws + 1 }

/-- The round trip of 41_register_dispatch.md section 2. -/
def Obligations.WriteThenReadRoundTrip : Prop :=
  ∀ (r : Reg) (b : Byte) (s : State), s.fault = false →
    ∃ t u, exec (.write r b) s = .next t ∧ exec (.read r) t = .next u ∧
      u.rsp.rdata =
        some (if r ∈ [Reg.nr14, .nr24, .nr34, .nr44] ∧ (s.nr r).getLsbD 7 = false ∧ b.getLsbD 7 = true then b ||| 0x40
          else b)

/-- R239. -/
def Obligations.NoteWithoutLengthControl : Prop :=
  ∀ w ∈ [(Instr.wrNr14, Reg.nr14, Channel.ch1), (Instr.wrNr24, Reg.nr24, Channel.ch2),
      (Instr.wrNr34, Reg.nr34, Channel.ch3), (Instr.wrNr44, Reg.nr44, Channel.ch4)],
    ∀ (b b' : Byte) (s : State), s.fault = false → (s.nr w.2.1).getLsbD 7 = false → b.getLsbD 7 = true →
      b'.getLsbD 7 = true → b'.getLsbD 6 = false →
      ∃ t u, exec (w.1 b) s = .next t ∧ (t.nr w.2.1).getLsbD 6 = true ∧ exec (w.1 b') t = .next u ∧ u.nr w.2.1 = b' ∧
        (u.nr w.2.1).getLsbD 6 = false ∧
        SameRegsBut [w.2.1] t u ∧ SameLenBut [] t u ∧ SameEnvCdBut [] t u ∧ SameSweep t u ∧ SameTimers t u ∧
        SameAram t u ∧ SameRest t u

/-- R233. -/
def Obligations.RetriggerNeedsAFallingEdge : Prop :=
  ∀ w ∈ [(Instr.wrNr14, Reg.nr14, Channel.ch1), (Instr.wrNr24, Reg.nr24, Channel.ch2),
      (Instr.wrNr34, Reg.nr34, Channel.ch3), (Instr.wrNr44, Reg.nr44, Channel.ch4)],
    ∀ (b z : Byte) (s : State), s.fault = false → b.getLsbD 7 = true → z.getLsbD 7 = false →
      ((s.nr w.2.1).getLsbD 7 = true →
        ∃ t, exec (w.1 b) s = .next t ∧ t.nr w.2.1 = b ∧ (t.nr w.2.1).getLsbD 7 = true ∧ SameRegsBut [w.2.1] s t ∧
          SameLenBut [] s t ∧ SameEnvCdBut [] s t ∧ SameSweep s t ∧ SameTimers s t ∧ SameAram s t ∧ SameRest s t) ∧
        ∃ t u, exec (w.1 z) s = .next t ∧ exec (w.1 b) t = .next u ∧ u.nr w.2.1 = b ||| 0x40 ∧
          u.len.get w.2.2 =
            (if s.len.get w.2.2 = 0 then (if w.2.2 = Channel.ch3 then 256 else 63) else s.len.get w.2.2) ∧
          (∀ e, w.2.2.envelope? = some e → u.envCd.get e = (s.nr e.nrc2).field 0 3) ∧
          (w.2.2 = Channel.ch1 → u.shadow.toNat = 256 * (b.toNat % 8) + (s.nr .nr13).toNat)

/-- The two phases of TICK on the accumulators. The period values are the spec's (00_scope.md section 4, its decision D3). -/
def Obligations.TickReducesEveryAccumulator : Prop :=
  ∀ (n : Cycles) (s : State), s.fault = false →
    ∃ t, exec (.tick n) s = .next t ∧ t.acc.fs = (s.acc.fs + n.toNat) % 8192 ∧
      t.acc.env = (s.acc.env + n.toNat) % 65536 ∧ t.acc.swp = (s.acc.swp + n.toNat) % 32768 ∧
      t.acc.len = (s.acc.len + n.toNat) % 16384 ∧
      t.fsStep.toNat = (if 8192 ≤ s.acc.fs + n.toNat then (s.fsStep.toNat + 1) % 8 else s.fsStep.toNat) ∧
      SameAram s t ∧ SameRest s t ∧ AnswersNothing t

/-- R96. -/
def Obligations.FrameSequencerCountsModuloEight : Prop :=
  ∀ (n : Cycles) (s : State), s.fault = false →
    ∃ t, exec (.tick n) s = .next t ∧
      t.fsStep.toNat = (if Config.hardware.pFs ≤ s.acc.fs + n.toNat then (s.fsStep.toNat + 1) % 8 else s.fsStep.toNat)

/-- The envelope step; a countdown clocked at 0 expires at once by the spec's decision D9. -/
def Obligations.EnvelopeClockStepsTheVolume : Prop :=
  ∀ w ∈ [(EnvChannel.ch1, Reg.nr12), (EnvChannel.ch2, Reg.nr22), (EnvChannel.ch4, Reg.nr42)],
    ∀ (n : Cycles) (s : State), s.fault = false →
      ∃ t, exec (.tick n) s = .next t ∧
        (let p := (s.nr w.2).toNat % 8
         let v := (s.nr w.2).toNat / 16
         let cd := (s.envCd.get w.1).toNat
         if Config.hardware.pEnv ≤ s.acc.env + n.toNat ∧ p ≠ 0 then
           (2 ≤ cd → (t.envCd.get w.1).toNat = cd - 1 ∧ t.nr w.2 = s.nr w.2) ∧
             (cd < 2 → (t.envCd.get w.1).toNat = p ∧ (t.nr w.2).toNat % 16 = (s.nr w.2).toNat % 16 ∧
               (t.nr w.2).toNat / 16 = (if (s.nr w.2).getLsbD 3 then min 15 (v + 1) else v - 1))
         else t.envCd.get w.1 = s.envCd.get w.1 ∧ t.nr w.2 = s.nr w.2)

/-- R152, over any sequence of TICK commands. -/
def Obligations.EnvelopePeriodZeroFreezes : Prop :=
  ∀ w ∈ [(EnvChannel.ch1, Reg.nr12), (EnvChannel.ch2, Reg.nr22), (EnvChannel.ch4, Reg.nr42)],
    ∀ (ns : List Cycles) (s : State), s.fault = false → (s.nr w.2).toNat % 8 = 0 →
      ∃ t, RunsTo ns.length { s with port := tickPort ns } t ∧ t.nr w.2 = s.nr w.2 ∧
        t.envCd.get w.1 = s.envCd.get w.1

/-- The sweep clock in closed form. Decisions of the spec: D9 (countdown at 0), D11 (polarity), D12 (second check). -/
def Obligations.SweepClockCommitsAndChecks : Prop :=
  ∀ (n : Cycles) (s : State), s.fault = false →
    let p := (s.nr .nr10).toNat / 16 % 8
    let sh := (s.nr .nr10).toNat % 8
    let neg := (s.nr .nr10).getLsbD 3
    let cand := candidateFrequency s.shadow.toNat sh neg
    ∃ t, exec (.tick n) s = .next t ∧
      (if Config.hardware.pSwp ≤ s.acc.swp + n.toNat ∧ s.swpCd.toNat < 2 then
        t.swpCd.toNat = (if p = 0 then 8 else p) ∧
          (if p ≠ 0 ∧ cand ≤ 2047 ∧ sh ≠ 0 then
            t.shadow.toNat = cand ∧ (t.nr .nr13).toNat = cand % 256 ∧ (t.nr .nr14).toNat % 8 = cand / 256
          else t.shadow = s.shadow ∧ t.nr .nr13 = s.nr .nr13 ∧ (t.nr .nr14).toNat % 8 = (s.nr .nr14).toNat % 8) ∧
          (t.swpEn = true ↔ (p ≠ 0 ∨ sh ≠ 0) ∧
            (p ≠ 0 → cand ≤ 2047 ∧ candidateFrequency t.shadow.toNat sh neg ≤ 2047))
      else
        t.swpCd.toNat = (if Config.hardware.pSwp ≤ s.acc.swp + n.toNat then s.swpCd.toNat - 1 else s.swpCd.toNat) ∧
          t.shadow = s.shadow ∧ t.swpEn = s.swpEn ∧ t.nr .nr13 = s.nr .nr13 ∧
          (t.nr .nr14).toNat % 8 = (s.nr .nr14).toNat % 8)

/-- Consequence stated for a commit in 43_sweep.md. -/
def Obligations.CommittedFrequencyIsTheShadow : Prop :=
  ∀ (n : Cycles) (s : State), s.fault = false →
    ∃ t, exec (.tick n) s = .next t ∧
      (256 * ((t.nr .nr14).toNat % 8) + (t.nr .nr13).toNat = t.shadow.toNat ∨
        t.shadow = s.shadow ∧ t.nr .nr13 = s.nr .nr13 ∧ (t.nr .nr14).toNat % 8 = (s.nr .nr14).toNat % 8)

/-- The length step. Decisions of the spec: D13 (hidden counter, register not rewritten), D15 (an exhausted counter clears the bit). -/
def Obligations.LengthClockCountsDown : Prop :=
  ∀ w ∈ [(Channel.ch1, Reg.nr11, Reg.nr14), (Channel.ch2, Reg.nr21, Reg.nr24),
      (Channel.ch3, Reg.nr31, Reg.nr34), (Channel.ch4, Reg.nr41, Reg.nr44)],
    ∀ (n : Cycles) (s : State), s.fault = false →
      ∃ t, exec (.tick n) s = .next t ∧
        (if Config.hardware.pLen ≤ s.acc.len + n.toNat ∧ (s.nr w.2.2).getLsbD 6 = true then
          t.len.get w.1 = s.len.get w.1 - 1 ∧ ((t.nr w.2.2).getLsbD 6 = true ↔ s.len.get w.1 - 1 ≠ 0)
        else t.len.get w.1 = s.len.get w.1 ∧ (t.nr w.2.2).getLsbD 6 = (s.nr w.2.2).getLsbD 6) ∧
        t.nr w.2.1 = s.nr w.2.1 ∧ (t.nr w.2.2).getLsbD 7 = (s.nr w.2.2).getLsbD 7 ∧
        (t.nr w.2.2).toNat / 8 % 8 = (s.nr w.2.2).toNat / 8 % 8

/-- R240. -/
def Obligations.EnableOnExhaustedCounterLastsOneClock : Prop :=
  ∀ w ∈ [(Instr.wrNr14, Reg.nr14, Channel.ch1), (Instr.wrNr24, Reg.nr24, Channel.ch2),
      (Instr.wrNr34, Reg.nr34, Channel.ch3), (Instr.wrNr44, Reg.nr44, Channel.ch4)],
    ∀ (b : Byte) (n : Cycles) (s : State), s.fault = false → s.len.get w.2.2 = 0 → b.getLsbD 6 = true →
      (s.nr w.2.1).getLsbD 7 = true ∨ b.getLsbD 7 = false → Config.hardware.pLen ≤ s.acc.len + n.toNat →
      ∃ t u, exec (w.1 b) s = .next t ∧ (t.nr w.2.1).getLsbD 6 = true ∧ exec (.tick n) t = .next u ∧
        (u.nr w.2.1).getLsbD 6 = false ∧ u.len.get w.2.2 = 0

/-- R241. -/
def Obligations.MachinesRunWithoutATrigger : Prop :=
  ∀ (n : Cycles) (s : State), s.fault = false →
    (s.swpCd = 0 → s.shadow = 0 → (s.nr .nr10).toNat / 16 % 8 ≠ 0 → (s.nr .nr10).toNat % 8 ≠ 0 →
      Config.hardware.pSwp ≤ s.acc.swp + n.toNat →
      ∃ t, exec (.tick n) s = .next t ∧ t.nr .nr13 = 0 ∧ (t.nr .nr14).toNat % 8 = 0 ∧ t.shadow = 0) ∧
      ∀ w ∈ [(EnvChannel.ch1, Reg.nr12), (EnvChannel.ch2, Reg.nr22), (EnvChannel.ch4, Reg.nr42)],
        s.envCd.get w.1 = 0 → (s.nr w.2).toNat % 8 ≠ 0 → Config.hardware.pEnv ≤ s.acc.env + n.toNat →
        ∃ t, exec (.tick n) s = .next t ∧
          ((s.nr w.2).getLsbD 3 = true → (s.nr w.2).toNat / 16 < 15 →
            (t.nr w.2).toNat / 16 = (s.nr w.2).toNat / 16 + 1) ∧
          ((s.nr w.2).getLsbD 3 = false → 0 < (s.nr w.2).toNat / 16 →
            (t.nr w.2).toNat / 16 + 1 = (s.nr w.2).toNat / 16)

/-- Corner case of TICK. -/
def Obligations.TickZeroChangesNothing : Prop :=
  ∀ s : State, s.fault = false → (∀ x, s.acc.get x < Config.hardware.period x) →
    exec (.tick 0) s = .next { s with rsp := ⟨none, none⟩ }

/-- The order (the spec's decision D6) is unobservable. -/
def Obligations.FiringOrderIsUnobservable : Prop :=
  ∀ (cfg : Config) (n : Nat) (s : State) (order : List SubTimer),
    order.Perm [.fs, .env, .swp, .len] → fireAll cfg order (accumulate n s) = tick cfg n s

/-- The order (the spec's decision D24) is unobservable. -/
def Obligations.ChannelOrderIsUnobservable : Prop :=
  (∀ (s : State) (order : List EnvChannel), order.Perm [.ch1, .ch2, .ch4] →
      order.foldl (fun s c => envStep c s) s = envClock s) ∧
    ∀ (s : State) (order : List Channel), order.Perm [.ch1, .ch2, .ch3, .ch4] →
      order.foldl (fun s c => lenStep c s) s = lenClock s

/-- No clock of any sub-timer is lost when calls are fine enough for it, and none is added (40_tick_scheduler.md section 1); induction over the sequence. The run is over the model's list of samples (logs 1 and 8). k x counts the clocks of sub-timer x. -/
def Obligations.FineTicksLoseNoClock : Prop :=
  ∀ (ns : List Cycles) (s : State), s.fault = false → (∀ x, s.acc.get x < Config.hardware.period x) →
    ∃ (t : State) (k : SubTimer → Nat), RunsTo ns.length { s with port := tickPort ns } t ∧ IsEndState t ∧
      t = { s.clocked k with acc := t.acc, rsp := t.rsp, port := [] } ∧
      (∀ x, t.acc.get x = (s.acc.get x + (ns.map BitVec.toNat).sum) % Config.hardware.period x ∧
        k x ≤ (s.acc.get x + (ns.map BitVec.toNat).sum) / Config.hardware.period x ∧
        ((∀ n ∈ ns, n.toNat ≤ Config.hardware.period x) →
          k x = (s.acc.get x + (ns.map BitVec.toNat).sum) / Config.hardware.period x)) ∧
      ((∀ n ∈ ns, n.toNat ≤ Config.hardware.pFs) →
        t.fsStep.toNat = (s.fsStep.toNat + (s.acc.fs + (ns.map BitVec.toNat).sum) / Config.hardware.pFs) % 8)

/-- MULTI_FIRE is the spec's decision D7; the two variants coincide on fine ticks. -/
def Obligations.MultiFireAgreesOnFineTicks : Prop :=
  ∀ (cfg : Config) (n : Nat) (s : State), (∀ x, s.acc.get x < cfg.period x) → (∀ x, n ≤ cfg.period x) →
    tick { cfg with multiFire := true } n s = tick { cfg with multiFire := false } n s

/-- One invocation per call (the spec's decision D7). -/
def Obligations.CoarseTickClocksEachMachineOnce : Prop :=
  ∀ (n m : Cycles) (s : State), s.fault = false →
    (∀ x, Config.hardware.period x ≤ s.acc.get x + n.toNat ↔ Config.hardware.period x ≤ s.acc.get x + m.toNat) →
    ∃ t u, exec (.tick n) s = .next t ∧ exec (.tick m) s = .next u ∧ u = { t with acc := u.acc }

/-- Consequences of the length step, by induction over the ticks. The run is over the model's list of samples (logs 1 and 8). -/
def Obligations.NoteEndsAfterItsLength : Prop :=
  ∀ w ∈ [(Channel.ch1, Reg.nr11, Reg.nr14), (Channel.ch2, Reg.nr21, Reg.nr24),
      (Channel.ch3, Reg.nr31, Reg.nr34), (Channel.ch4, Reg.nr41, Reg.nr44)],
    ∀ (k : Nat) (s : State), s.fault = false → (s.nr w.2.2).getLsbD 6 = true → 1 ≤ s.len.get w.1 →
      ∃ t, RunsTo k { s with port := tickPort (List.replicate k (BitVec.ofNat 32 Config.hardware.pLen)) } t ∧
        t.len.get w.1 = s.len.get w.1 - k ∧ ((t.nr w.2.2).getLsbD 6 = true ↔ k < s.len.get w.1)

/-- Consequences of the envelope step, by induction over the ticks. The run is over the model's list of samples (logs 1 and 8). -/
def Obligations.EnvelopeRampsEveryPeriod : Prop :=
  ∀ w ∈ [(EnvChannel.ch1, Reg.nr12), (EnvChannel.ch2, Reg.nr22), (EnvChannel.ch4, Reg.nr42)],
    ∀ (k : Nat) (s : State), s.fault = false →
      let period := (s.nr w.2).toNat % 8
      let v := (s.nr w.2).toNat / 16
      period ≠ 0 → (s.envCd.get w.1).toNat = period →
      ∃ t, RunsTo k { s with port := tickPort (List.replicate k (BitVec.ofNat 32 Config.hardware.pEnv)) } t ∧
        (t.nr w.2).toNat / 16 = (if (s.nr w.2).getLsbD 3 then min 15 (v + k / period) else v - k / period) ∧
        (t.nr w.2).toNat % 16 = (s.nr w.2).toNat % 16 ∧ (t.envCd.get w.1).toNat = period - k % period

/-- The complete list of mutations in 10_state.md section 2. -/
def Obligations.HostOnlyBitsChangeOnlyByWrite : Prop :=
  ∀ (i : Instr) (s t : State), exec i s = .next t →
    (∀ r, (∀ b, i ≠ .write r b) → t.nr r &&& hostOnlyBits r = s.nr r &&& hostOnlyBits r) ∧
      ((∀ r b, i ≠ .write r b) → (∀ n, i ≠ .tick n) → ∀ r, t.nr r = s.nr r)

/-- The writers named with each piece of hidden state in 10_state.md, and of the fault flag. That the flag is set in a next state and never cleared but by reset is the spec's decision D21 and the model's reading (log 3). -/
def Obligations.HiddenStateHasOnlyItsWriters : Prop :=
  (∀ (i : Instr) (s t : State), exec i s = .next t → (∀ n, i ≠ .tick n) →
    SameTimers s t ∧ ((∀ b, i ≠ .wrNr14 b) → SameSweep s t) ∧
      (∀ w ∈ [(EnvChannel.ch1, Reg.nr14), (EnvChannel.ch2, Reg.nr24), (EnvChannel.ch4, Reg.nr44)],
        (∀ b, i ≠ .write w.2 b) → t.envCd.get w.1 = s.envCd.get w.1) ∧
      (∀ w ∈ [(Channel.ch1, Reg.nr11, Reg.nr14), (Channel.ch2, Reg.nr21, Reg.nr24),
          (Channel.ch3, Reg.nr31, Reg.nr34), (Channel.ch4, Reg.nr41, Reg.nr44)],
        (∀ b, i ≠ .write w.2.1 b) → (∀ b, i ≠ .write w.2.2 b) → t.len.get w.1 = s.len.get w.1) ∧
      ((∀ a, i ≠ .ramrd a) → (∀ a b, i ≠ .ramwr a b) → t.fault = s.fault)) ∧
    ∀ s t : State, step s = .next t → s.fault = true → (∀ v c later, s.port ≠ ⟨true, v, c⟩ :: later) →
      t.fault = true

/-- Uninterpreted registers are plain storage; that NR52 gates nothing is the spec's decision D30. -/
def Obligations.UninterpretedRegistersMatterToNothing : Prop :=
  ∀ r ∈ [Reg.nr23, .nr30, .nr32, .nr33, .nr43, .nr50, .nr51, .nr52], ∀ (v : Byte) (i : Instr) (s t : State),
    exec i s = .next t →
    ∃ t', exec i (s.withReg r v) = .next t' ∧
      (t'.withReg r 0).withRsp ⟨none, none⟩ = (t.withReg r 0).withRsp ⟨none, none⟩ ∧
      (i ≠ .read r → t'.rsp = t.rsp)

/-- The ports of 30_encoding.md section 1; irq tied to 0 is the spec's decision D27. -/
def Obligations.OutputPortsShowTheStatus : Prop :=
  ∀ s : State,
    s.outputs.lenEn.getLsbD 0 = (s.nr .nr14).getLsbD 6 ∧ s.outputs.lenEn.getLsbD 1 = (s.nr .nr24).getLsbD 6 ∧
      s.outputs.lenEn.getLsbD 2 = (s.nr .nr34).getLsbD 6 ∧ s.outputs.lenEn.getLsbD 3 = (s.nr .nr44).getLsbD 6 ∧
      s.outputs.fault = s.fault ∧ s.outputs.swpEn = s.swpEn ∧ s.outputs.fsStep = s.fsStep ∧
      s.outputs.rspRdata = s.rsp.rdata ∧ s.outputs.rspFault = s.rsp.fault.isSome ∧ s.outputs.irq = false
end

