-- ==== Sys2Proof/Laws/Bits.lean ====
section
/-! SUPPORT. What reading and replacing bits of a byte does; every "preserved" fact about a register rests on
`Byte.getLsbD_setField`. -/

namespace Sys2Proof

/-- Bit `i` after a field update: the new field's bit inside the field, the old bit outside. -/
theorem Byte.getLsbD_setField (v : Byte) (lo : Nat) {w : Nat} (x : BitVec w) (i : Nat) (hi : i < 8) :
    (v.setField lo x).getLsbD i = if lo ≤ i ∧ i < lo + w then x.getLsbD (i - lo) else v.getLsbD i := by
  simp only [Byte.setField, BitVec.getLsbD_or, BitVec.getLsbD_and, BitVec.getLsbD_not, BitVec.getLsbD_shiftLeft,
    BitVec.getLsbD_setWidth, BitVec.getLsbD_allOnes, hi, decide_true, Bool.true_and]
  by_cases h1 : lo ≤ i
  · have h1' : ¬ i < lo := by omega
    by_cases h2 : i < lo + w
    · have h3 : i - lo < w := by omega
      have h4 : i - lo < 8 := by omega
      simp [h1, h1', h2, h3, h4]
    · have h3 : ¬ i - lo < w := by omega
      simp [h1, h2, h3, BitVec.getLsbD_of_ge x (i - lo) (by omega)]
  · have h1' : i < lo := by omega
    simp [h1, h1']

/-- Two bytes with the same eight bits are equal. -/
theorem Byte.ext_bits {u v : Byte} (h : ∀ i, i < 8 → u.getLsbD i = v.getLsbD i) : u = v :=
  BitVec.eq_of_getLsbD_eq h

/-- Bit `i` of a field. -/
theorem Byte.getLsbD_field (v : Byte) (lo w i : Nat) (hi : i < w) : (v.field lo w).getLsbD i = v.getLsbD (lo + i) := by
  simp [Byte.field, hi]

/-- A field read back after it was written. -/
theorem Byte.field_setField_same (v : Byte) (lo : Nat) {w : Nat} (x : BitVec w) (h : lo + w ≤ 8) :
    (v.setField lo x).field lo w = x := by
  apply BitVec.eq_of_getLsbD_eq
  intro i hi
  rw [Byte.getLsbD_field _ _ _ _ hi, Byte.getLsbD_setField _ _ _ _ (by omega), if_pos (by omega)]
  congr 1
  omega

/-- A field disjoint from the one written is unchanged. -/
theorem Byte.field_setField_disjoint (v : Byte) (lo lo' w' : Nat) {w : Nat} (x : BitVec w)
    (h : lo' + w' ≤ lo ∨ lo + w ≤ lo') (h8 : lo' + w' ≤ 8) : (v.setField lo x).field lo' w' = v.field lo' w' := by
  apply BitVec.eq_of_getLsbD_eq
  intro i hi
  rw [Byte.getLsbD_field _ _ _ _ hi, Byte.getLsbD_field _ _ _ _ hi, Byte.getLsbD_setField _ _ _ _ (by omega),
    if_neg (by omega)]

/-- A single bit outside the written field is unchanged. -/
theorem Byte.bit_setField_outside (v : Byte) (lo : Nat) {w : Nat} (x : BitVec w) (n : Fin 8)
    (h : n.val < lo ∨ lo + w ≤ n.val) : (v.setField lo x).bit n = v.bit n := by
  rw [Byte.bit, Byte.bit, Byte.getLsbD_setField _ _ _ _ n.isLt, if_neg (by omega)]

/-- Writing what a field already holds changes nothing. -/
theorem Byte.setField_self (v : Byte) (lo w : Nat) : v.setField lo (v.field lo w) = v := by
  apply Byte.ext_bits
  intro i hi
  rw [Byte.getLsbD_setField _ _ _ _ hi]
  split
  · rw [Byte.getLsbD_field _ _ _ _ (by omega)]
    congr 1
    omega
  · rfl

/-- Bit `i` after "set bit n". -/
theorem Byte.getLsbD_setBit (v : Byte) (n : Fin 8) (b : Bool) (i : Nat) (hi : i < 8) :
    (v.setBit n b).getLsbD i = if i = n.val then b else v.getLsbD i := by
  rw [Byte.setBit, Byte.getLsbD_setField _ _ _ _ hi]
  by_cases h : i = n.val
  · subst h; simp
  · rw [if_neg (by omega), if_neg h]

/-- A set bit reads back; another bit is unchanged (10_state.md R10). -/
theorem Byte.bit_setBit (v : Byte) (n m : Fin 8) (b : Bool) :
    (v.setBit n b).bit m = if m = n then b else v.bit m := by
  rw [Byte.bit, Byte.getLsbD_setBit _ _ _ _ m.isLt, Byte.bit]
  simp [Fin.ext_iff]

/-- A restart register from its frequency field, bits 5:3, its length-enable bit and its restart bit
(30_encoding.md R71). -/
theorem Byte.ext_restart {u v : Byte} (low : u.field 0 3 = v.field 0 3) (mid : u.field 3 3 = v.field 3 3)
    (six : u.bit 6 = v.bit 6) (seven : u.bit 7 = v.bit 7) : u = v := by
  apply Byte.ext_bits
  intro i hi
  by_cases h3 : i < 3
  · have h := congrArg (fun x => BitVec.getLsbD x i) low
    simp only [Byte.getLsbD_field _ _ _ _ h3] at h
    simpa using h
  · by_cases h6 : i < 6
    · have h := congrArg (fun x => BitVec.getLsbD x (i - 3)) mid
      simp only [Byte.getLsbD_field _ 3 3 (i - 3) (by omega)] at h
      rwa [Nat.add_sub_cancel' (Nat.not_lt.mp h3)] at h
    · have hi' : i = 6 ∨ i = 7 := by omega
      rcases hi' with rfl | rfl
      · exact six
      · exact seven

/-- Setting bit 6 is `v ||| 0x40`. -/
theorem Byte.setBit_six_true (v : Byte) : v.setBit 6 true = v ||| 0x40 := by
  revert v; decide

/-- Clearing bit 6 is `v &&& 0xBF`. -/
theorem Byte.setBit_six_false (v : Byte) : v.setBit 6 false = v &&& 0xBF := by
  revert v; decide

/-- A field that leaves bit 6 out is not changed by setting bit 6. -/
theorem Byte.field_setBit_six (v : Byte) (lo w : Nat) (b : Bool) (h : lo + w ≤ 6) :
    (v.setBit 6 b).field lo w = v.field lo w :=
  Byte.field_setField_disjoint v 6 lo w (BitVec.ofBool b) (.inl h) (by omega)

/-- The countdown clock primitive, both cases (00_scope.md R9). -/
theorem decExpire_eq (cd : Nat) : decExpire cd = if 2 ≤ cd then (cd - 1, false) else (0, true) := rfl

end Sys2Proof
end

