-- ==== Sys2Proof/Laws/Decode.lean ====
section
/-! SUPPORT. The address map read both ways, and one decoding lemma per kind. -/

namespace Sys2Proof

theorem Reg.mem_all (r : Reg) : r ∈ Reg.all := by cases r <;> decide

/-- One register per address (10_state.md R11). -/
theorem Reg.addr_injective {r r' : Reg} (h : r.addr = r'.addr) : r = r' := by
  revert h; cases r <;> cases r' <;> decide

@[simp] theorem Reg.ofAddr_addr (r : Reg) : Reg.ofAddr r.addr = some r := by cases r <;> rfl

theorem Reg.ofAddr_eq_some {a : Addr} {r : Reg} : Reg.ofAddr a = some r ↔ r.addr = a := by
  constructor
  · intro h
    simpa using List.find?_some h
  · rintro rfl
    exact Reg.ofAddr_addr r

theorem Reg.ofAddr_eq_none {a : Addr} : Reg.ofAddr a = none ↔ ∀ r : Reg, r.addr ≠ a := by
  simp only [Reg.ofAddr, List.find?_eq_none, beq_iff_eq]
  exact ⟨fun h r => h r (Reg.mem_all r), fun h r _ => h r⟩

/-- Kind 1 at a register address. -/
theorem decode_write (r : Reg) (b : Byte) (n : Cycles) : decode ⟨1, r.addr, b, n⟩ = .ok (.write r b) := by
  simp [decode]

/-- Kind 1 at an unrecognized address. -/
theorem decode_wrUnmapped {a : Addr} (h : Reg.ofAddr a = none) (b : Byte) (n : Cycles) :
    decode ⟨1, a, b, n⟩ = .ok (.wrUnmapped a b) := by
  simp [decode, h]

/-- Kind 2 at a register address. -/
theorem decode_read (r : Reg) (b : Byte) (n : Cycles) : decode ⟨2, r.addr, b, n⟩ = .ok (.read r) := by
  simp [decode]

/-- Kind 2 at an unrecognized address. -/
theorem decode_rdUnmapped {a : Addr} (h : Reg.ofAddr a = none) (b : Byte) (n : Cycles) :
    decode ⟨2, a, b, n⟩ = .ok (.rdUnmapped a) := by
  simp [decode, h]

theorem decode_tick (a : Addr) (b : Byte) (n : Cycles) : decode ⟨0, a, b, n⟩ = .ok (.tick n) := by
  simp [decode]

theorem decode_ramwr (a : Addr) (b : Byte) (n : Cycles) : decode ⟨3, a, b, n⟩ = .ok (.ramwr a b) := by
  simp [decode]

theorem decode_ramrd (a : Addr) (b : Byte) (n : Cycles) : decode ⟨4, a, b, n⟩ = .ok (.ramrd a) := by
  simp [decode]

/-- The record of a register write. -/
theorem encode_write (r : Reg) (b : Byte) : encode (.write r b) = ⟨1, r.addr, b, 0⟩ := by cases r <;> rfl

/-- The record of a register read. -/
theorem encode_read (r : Reg) : encode (.read r) = ⟨2, r.addr, 0, 0⟩ := by cases r <;> rfl

theorem Instr.wellFormed_write (r : Reg) (b : Byte) : (Instr.write r b).WellFormed := by cases r <;> rfl

theorem Instr.wellFormed_read (r : Reg) : (Instr.read r).WellFormed := by cases r <;> rfl

/-- Every command is a register write, a register read, or one of the five rows with a kind and any address: for proofs
over all commands. -/
theorem Instr.family_cases {P : Instr → Prop} (write : ∀ r b, P (.write r b)) (read : ∀ r, P (.read r))
    (tick : ∀ n, P (.tick n)) (wrUnmapped : ∀ a b, P (.wrUnmapped a b)) (rdUnmapped : ∀ a, P (.rdUnmapped a))
    (ramwr : ∀ a b, P (.ramwr a b)) (ramrd : ∀ a, P (.ramrd a)) (i : Instr) : P i := by
  cases i with
  | tick n => exact tick n
  | wrUnmapped a b => exact wrUnmapped a b
  | rdUnmapped a => exact rdUnmapped a
  | ramwr a b => exact ramwr a b
  | ramrd a => exact ramrd a
  | wrNr10 b => exact write .nr10 b
  | wrNr11 b => exact write .nr11 b
  | wrNr12 b => exact write .nr12 b
  | wrNr13 b => exact write .nr13 b
  | wrNr14 b => exact write .nr14 b
  | wrNr21 b => exact write .nr21 b
  | wrNr22 b => exact write .nr22 b
  | wrNr23 b => exact write .nr23 b
  | wrNr24 b => exact write .nr24 b
  | wrNr30 b => exact write .nr30 b
  | wrNr31 b => exact write .nr31 b
  | wrNr32 b => exact write .nr32 b
  | wrNr33 b => exact write .nr33 b
  | wrNr34 b => exact write .nr34 b
  | wrNr41 b => exact write .nr41 b
  | wrNr42 b => exact write .nr42 b
  | wrNr43 b => exact write .nr43 b
  | wrNr44 b => exact write .nr44 b
  | wrNr50 b => exact write .nr50 b
  | wrNr51 b => exact write .nr51 b
  | wrNr52 b => exact write .nr52 b
  | rdNr10 => exact read .nr10
  | rdNr11 => exact read .nr11
  | rdNr12 => exact read .nr12
  | rdNr13 => exact read .nr13
  | rdNr14 => exact read .nr14
  | rdNr21 => exact read .nr21
  | rdNr22 => exact read .nr22
  | rdNr23 => exact read .nr23
  | rdNr24 => exact read .nr24
  | rdNr30 => exact read .nr30
  | rdNr31 => exact read .nr31
  | rdNr32 => exact read .nr32
  | rdNr33 => exact read .nr33
  | rdNr34 => exact read .nr34
  | rdNr41 => exact read .nr41
  | rdNr42 => exact read .nr42
  | rdNr43 => exact read .nr43
  | rdNr44 => exact read .nr44
  | rdNr50 => exact read .nr50
  | rdNr51 => exact read .nr51
  | rdNr52 => exact read .nr52

/-- What a decoded record can be (30_encoding.md R60, R65). -/
theorem decode_cases {c : Command} {i : Instr} (h : decode c = .ok i) :
    (c.kind = 0 ∧ i = .tick c.cycles) ∨
    (c.kind = 1 ∧ ∃ r : Reg, r.addr = c.addr ∧ i = .write r c.data) ∨
    (c.kind = 1 ∧ Reg.ofAddr c.addr = none ∧ i = .wrUnmapped c.addr c.data) ∨
    (c.kind = 2 ∧ ∃ r : Reg, r.addr = c.addr ∧ i = .read r) ∨
    (c.kind = 2 ∧ Reg.ofAddr c.addr = none ∧ i = .rdUnmapped c.addr) ∨
    (c.kind = 3 ∧ i = .ramwr c.addr c.data) ∨ (c.kind = 4 ∧ i = .ramrd c.addr) := by
  unfold decode at h
  split at h
  · next hk => cases h; exact .inl ⟨hk, rfl⟩
  split at h
  · next hk =>
    split at h
    · next r hr => cases h; exact .inr (.inl ⟨hk, r, Reg.ofAddr_eq_some.mp hr, rfl⟩)
    · next hr => cases h; exact .inr (.inr (.inl ⟨hk, hr, rfl⟩))
  split at h
  · next hk =>
    split at h
    · next r hr => cases h; exact .inr (.inr (.inr (.inl ⟨hk, r, Reg.ofAddr_eq_some.mp hr, rfl⟩)))
    · next hr => cases h; exact .inr (.inr (.inr (.inr (.inl ⟨hk, hr, rfl⟩))))
  split at h
  · next hk => cases h; exact .inr (.inr (.inr (.inr (.inr (.inl ⟨hk, rfl⟩)))))
  split at h
  · next hk => cases h; exact .inr (.inr (.inr (.inr (.inr (.inr ⟨hk, rfl⟩)))))
  · cases h

/-! ## The opcode table's rows -/

/-- The exact rows are the `WR` and `RD` rows of the 21 register addresses (30_encoding.md R62, R63). -/
theorem OpcodeRow.exact_eq : OpcodeRow.exact =
    (Reg.all.map fun r => (⟨0x7FFFF, (1 : Kind) ++ r.addr, fun c => .write r c.data⟩ : OpcodeRow)) ++
      Reg.all.map fun r => (⟨0x7FFFF, (2 : Kind) ++ r.addr, fun _ => .read r⟩ : OpcodeRow) := rfl

/-- A selector is its kind and its address. -/
theorem Selector.append_inj (k j : Kind) (a b : Addr) : (k ++ a = j ++ b) ↔ k = j ∧ a = b := by
  constructor
  · intro h
    constructor
    · apply BitVec.eq_of_getLsbD_eq
      intro i hi
      have := congrArg (fun x => BitVec.getLsbD x (16 + i)) h
      simp only [BitVec.getLsbD_append] at this
      simpa using this
    · apply BitVec.eq_of_getLsbD_eq
      intro i hi
      have := congrArg (fun x => BitVec.getLsbD x i) h
      simp only [BitVec.getLsbD_append] at this
      simpa [hi] using this
  · rintro ⟨rfl, rfl⟩; rfl
/-- A row with mask 0x7FFFF matches one kind and one address (R62). -/
theorem OpcodeRow.matches_exact (k j : Kind) (a b : Addr) (f) :
    (⟨0x7FFFF, j ++ b, f⟩ : OpcodeRow).matches (k ++ a) = (k == j && a == b) := by
  have h : (k ++ a : Selector) &&& 0x7FFFF = k ++ a := by
    apply BitVec.eq_of_getLsbD_eq; intro i hi
    have : (0x7FFFF : BitVec 19) = BitVec.allOnes 19 := by decide
    rw [this, BitVec.getLsbD_and, BitVec.getLsbD_allOnes]; simp [hi]
  simp only [OpcodeRow.matches, h]
  rw [Bool.eq_iff_iff]; simp [Selector.append_inj]
/-- A row with mask 0x70000 matches one kind (R62). -/
theorem OpcodeRow.matches_byKind (k j : Kind) (a : Addr) (f) :
    (⟨0x70000, j ++ (0 : Addr), f⟩ : OpcodeRow).matches (k ++ a) = (k == j) := by
  have h : (k ++ a : Selector) &&& 0x70000 = k ++ (0 : Addr) := by
    apply BitVec.eq_of_getLsbD_eq; intro i hi
    have : (0x70000 : BitVec 19) = (7 : Kind) ++ (0 : Addr) := by decide
    have h7 : (7 : Kind) = BitVec.allOnes 3 := by decide
    rw [this, BitVec.getLsbD_and, BitVec.getLsbD_append, BitVec.getLsbD_append, BitVec.getLsbD_append, h7, BitVec.getLsbD_allOnes]
    have : (0:Addr).getLsbD i = false := by simp
    by_cases h : i < 16
    · simp [h]
    · simp [h]; omega
  simp only [OpcodeRow.matches, h]
  rw [Bool.eq_iff_iff]; simp [Selector.append_inj]

end Sys2Proof
end

