-- ==== Sys2Proof/Laws/Memory.lean ====
section
/-! SUPPORT. Audio RAM cells: read after write, and the canonical form and the offset bound that every memory operation
keeps. -/

namespace Sys2Proof.Machine

/-- All offsets of a cell list are at least `n`. -/
def Memory.Above (n : Nat) (m : Memory) : Prop := ∀ k b, (k, b) ∈ m → n ≤ k

/-- All offsets of a cell list are below `n`. -/
def Memory.Below (n : Nat) (m : Memory) : Prop := ∀ k b, (k, b) ∈ m → k < n

/-- The canonical form, one cell at a time. -/
theorem Memory.wf_cons (k : Nat) (b : Byte) (m : Memory) :
    Memory.wf ((k, b) :: m) = true ↔ b ≠ Memory.unlisted ∧ Memory.Above (k + 1) m ∧ Memory.wf m = true := by
  induction m generalizing k b with
  | nil => simp [Memory.wf, Memory.Above]
  | cons cell m ih =>
    obtain ⟨k', b'⟩ := cell
    simp only [Memory.wf, Bool.and_eq_true, bne_iff_ne, decide_eq_true_eq]
    constructor
    · rintro ⟨⟨hb, hk⟩, hw⟩
      refine ⟨hb, ?_, hw⟩
      intro q c hq
      rcases List.mem_cons.mp hq with h | h
      · cases h; omega
      · have := ((ih k' b').mp hw).2.1 q c h
        omega
    · rintro ⟨hb, ha, hw⟩
      exact ⟨⟨hb, ha k' b' (List.mem_cons_self ..)⟩, hw⟩

/-- An offset below every listed one is unlisted. -/
theorem Memory.read_above (l : Memory) (o : Nat) (hl : Memory.Above (o + 1) l) : l.read o = Memory.unlisted := by
  induction l with
  | nil => rfl
  | cons d l ih =>
    obtain ⟨q, e⟩ := d
    have hq := hl q e (List.mem_cons_self ..)
    have hne : q ≠ o := by omega
    simp only [Memory.read, hne, if_false]
    exact ih fun k b hm => hl k b (List.mem_cons_of_mem _ hm)

/-- The offset just written reads as the byte written. -/
theorem Memory.read_write_same (m : Memory) (o : Nat) (b : Byte) (h : m.wf = true) : (m.write o b).read o = b := by
  induction m with
  | nil => by_cases hb : b = Memory.unlisted <;> simp [Memory.write, Memory.read, hb]
  | cons cell m ih =>
    obtain ⟨k, c⟩ := cell
    obtain ⟨_, ha, hw⟩ := (Memory.wf_cons k c m).mp h
    simp only [Memory.write]
    by_cases h1 : o < k
    · rw [if_pos h1]
      by_cases hb : b = Memory.unlisted
      · rw [if_pos hb, hb]
        refine Memory.read_above _ _ ?_
        intro q e hq
        rcases List.mem_cons.mp hq with hq | hq
        · cases hq; omega
        · have := ha q e hq
          omega
      · rw [if_neg hb]; simp [Memory.read]
    · rw [if_neg h1]
      by_cases h2 : o = k
      · subst h2
        rw [if_pos rfl]
        by_cases hb : b = Memory.unlisted
        · rw [if_pos hb, hb]; exact Memory.read_above m _ ha
        · rw [if_neg hb]; simp [Memory.read]
      · rw [if_neg h2]
        simp only [Memory.read, Ne.symm h2, if_false]
        exact ih hw

/-- Every other offset reads as before. -/
theorem Memory.read_write_ne (m : Memory) {o o' : Nat} (b : Byte) (h : o' ≠ o) :
    (m.write o b).read o' = m.read o' := by
  induction m with
  | nil => by_cases hb : b = Memory.unlisted <;> simp [Memory.write, Memory.read, hb, Ne.symm h]
  | cons cell m ih =>
    obtain ⟨k, c⟩ := cell
    simp only [Memory.write]
    by_cases h1 : o < k
    · by_cases hb : b = Memory.unlisted <;> simp [h1, hb, Memory.read, Ne.symm h]
    · by_cases h2 : o = k
      · subst h2
        by_cases hb : b = Memory.unlisted <;> simp [hb, Memory.read, Ne.symm h]
      · simp [h1, h2, Memory.read, ih]

/-- Where the offsets of a written memory come from. -/
theorem Memory.mem_write (m : Memory) (o : Nat) (b : Byte) (k : Nat) (c : Byte) (h : (k, c) ∈ m.write o b) :
    (k = o ∧ c = b) ∨ (k, c) ∈ m := by
  induction m with
  | nil =>
    simp only [Memory.write] at h
    split at h
    · simp at h
    · simp at h; exact .inl h
  | cons cell m ih =>
    obtain ⟨q, e⟩ := cell
    simp only [Memory.write] at h
    split at h
    · split at h
      · exact .inr h
      · rcases List.mem_cons.mp h with h | h
        · cases h; exact .inl ⟨rfl, rfl⟩
        · exact .inr h
    · split at h
      · split at h
        · exact .inr (List.mem_cons_of_mem _ h)
        · rcases List.mem_cons.mp h with h | h
          · cases h; exact .inl ⟨rfl, rfl⟩
          · exact .inr (List.mem_cons_of_mem _ h)
      · rcases List.mem_cons.mp h with h | h
        · cases h; exact .inr (List.mem_cons_self ..)
        · rcases ih h with h | h
          · exact .inl h
          · exact .inr (List.mem_cons_of_mem _ h)

/-- A write keeps the canonical form. -/
theorem Memory.wf_write (m : Memory) (o : Nat) (b : Byte) (h : m.wf = true) : (m.write o b).wf = true := by
  induction m with
  | nil =>
    simp only [Memory.write]
    split
    · rfl
    · next hb => simpa [Memory.wf] using hb
  | cons cell m ih =>
    obtain ⟨k, c⟩ := cell
    obtain ⟨hc, ha, hw⟩ := (Memory.wf_cons k c m).mp h
    simp only [Memory.write]
    split
    · next h1 =>
      split
      · exact h
      · next hb =>
        refine (Memory.wf_cons _ _ _).mpr ⟨hb, ?_, h⟩
        intro q e hq
        rcases List.mem_cons.mp hq with hq | hq
        · cases hq; omega
        · have := ha q e hq
          omega
    · split
      · next h2 =>
        subst h2
        split
        · exact hw
        · next hb => exact (Memory.wf_cons _ _ _).mpr ⟨hb, ha, hw⟩
      · refine (Memory.wf_cons _ _ _).mpr ⟨hc, ?_, ih hw⟩
        intro q e hq
        rcases Memory.mem_write m o b q e hq with ⟨rfl, -⟩ | hq
        · omega
        · exact ha q e hq

/-- A write below a bound keeps all offsets below it. -/
theorem Memory.below_write (m : Memory) (n o : Nat) (b : Byte) (h : m.Below n) (ho : o < n) : (m.write o b).Below n := by
  intro k c hk
  rcases Memory.mem_write m o b k c hk with ⟨rfl, -⟩ | hk
  · exact ho
  · exact h k c hk

/-- A read of the empty memory: "audio RAM zero-filled" (10_state.md R25). -/
@[simp] theorem Memory.read_nil (o : Nat) : Memory.read [] o = 0 := rfl

/-- Memories that read alike in canonical form are equal data. -/
theorem Memory.eq_of_read_eq (m m' : Memory) (h : m.wf = true) (h' : m'.wf = true)
    (hr : ∀ o, m.read o = m'.read o) : m = m' := by
  have head : ∀ (k : Nat) (b : Byte) (l l' : Memory), Memory.wf ((k, b) :: l) = true →
      (∀ o, Memory.read ((k, b) :: l) o = Memory.read l' o) → l' ≠ [] := by
    rintro k b l l' hw hr rfl
    have := hr k
    simp only [Memory.read, if_true] at this
    exact ((Memory.wf_cons k b l).mp hw).1 this
  induction m generalizing m' with
  | nil =>
    cases m' with
    | nil => rfl
    | cons d l => exact absurd rfl (head d.1 d.2 l [] h' fun o => (hr o).symm)
  | cons c m ih =>
    cases m' with
    | nil => exact absurd rfl (head c.1 c.2 m [] h hr)
    | cons d l =>
      obtain ⟨k, b⟩ := c
      obtain ⟨k', b'⟩ := d
      obtain ⟨hb, ha, hw⟩ := (Memory.wf_cons k b m).mp h
      obtain ⟨hb', ha', hw'⟩ := (Memory.wf_cons k' b' l).mp h'
      have hk : k = k' := by
        rcases Nat.lt_trichotomy k k' with hlt | heq | hgt
        · have h1 := hr k
          rw [Memory.read_above ((k', b') :: l) k] at h1
          · simp only [Memory.read, if_true] at h1
            exact absurd h1 hb
          · intro q e hq
            rcases List.mem_cons.mp hq with hq | hq
            · cases hq; omega
            · have := ha' q e hq
              omega
        · exact heq
        · have h1 := hr k'
          rw [Memory.read_above ((k, b) :: m) k'] at h1
          · simp only [Memory.read, if_true] at h1
            exact absurd h1.symm hb'
          · intro q e hq
            rcases List.mem_cons.mp hq with hq | hq
            · cases hq; omega
            · have := ha q e hq
              omega
      subst hk
      have hbb : b = b' := by simpa [Memory.read] using hr k
      subst hbb
      congr 1
      refine ih l hw hw' fun o => ?_
      by_cases ho : k = o
      · subst ho; rw [Memory.read_above m k ha, Memory.read_above l k ha']
      · simpa [Memory.read, ho] using hr o

/-- The index an address names, in one formula (30_encoding.md R64). -/
theorem aramIndex?_eq (cfg : Config) (a : Addr) :
    aramIndex? cfg a =
      if cfg.aramBase.toNat ≤ a.toNat ∧ a.toNat ≤ cfg.aramBase.toNat + 14 then some (a.toNat - cfg.aramBase.toNat)
      else none := by
  have hiff : (0 ≤ aramOffset cfg a ∧ aramOffset cfg a ≤ (Config.aramSize : Int) - 1) ↔
      (cfg.aramBase.toNat ≤ a.toNat ∧ a.toNat ≤ cfg.aramBase.toNat + 14) := by
    have : (Config.aramSize : Int) = 15 := rfl
    simp only [aramOffset]
    omega
  have hval : (aramOffset cfg a).toNat = a.toNat - cfg.aramBase.toNat := by
    simp only [aramOffset]
    omega
  simp only [aramIndex?, hiff, hval]

/-- An index named by an address is below `ARAM_SIZE`. -/
theorem aramIndex?_lt {cfg : Config} {a : Addr} {o : Nat} (h : aramIndex? cfg a = some o) : o < Config.aramSize := by
  rw [aramIndex?_eq] at h
  split at h
  · cases h; simp only [Config.aramSize]; omega
  · cases h

end Sys2Proof.Machine
end

