-- ==== Sys2Proof/Laws/State.lean ====
section
/-! SUPPORT. One lemma per field per update of the state, and reading a bank after writing it, so that no later proof
unfolds a record update. -/

namespace Sys2Proof.Machine

/-! ## The banks -/

theorem RegBank.get_set_same (b : RegBank) (r : Reg) (v : Byte) : (b.set r v).get r = v := by
  cases r <;> rfl

theorem RegBank.get_set_ne (b : RegBank) {r r' : Reg} (v : Byte) (h : r' ≠ r) : (b.set r v).get r' = b.get r' := by
  cases r <;> cases r' <;> first | rfl | exact absurd rfl h

/-- A register after a register write (10_state.md R10). -/
theorem RegBank.get_set (b : RegBank) (r r' : Reg) (v : Byte) :
    (b.set r v).get r' = if r' = r then v else b.get r' := by
  split
  · next h => rw [h, RegBank.get_set_same]
  · next h => exact RegBank.get_set_ne b v h

/-- Two banks with the same 21 registers are equal. -/
theorem RegBank.ext_get {a b : RegBank} (h : ∀ r, a.get r = b.get r) : a = b := by
  cases a; cases b
  simp only [RegBank.mk.injEq]
  exact ⟨h .nr10, h .nr11, h .nr12, h .nr13, h .nr14, h .nr21, h .nr22, h .nr23, h .nr24, h .nr30, h .nr31, h .nr32, h .nr33, h .nr34, h .nr41, h .nr42, h .nr43, h .nr44, h .nr50, h .nr51, h .nr52⟩

/-- Writes to different registers commute. -/
theorem RegBank.set_comm (b : RegBank) {r r' : Reg} (v v' : Byte) (h : r ≠ r') :
    (b.set r v).set r' v' = (b.set r' v').set r v := by
  apply RegBank.ext_get
  intro q
  simp only [RegBank.get_set]
  by_cases h1 : q = r'
  · subst h1; simp [Ne.symm h]
  · simp [h1]

/-- The later of two writes to one register wins. -/
theorem RegBank.set_set (b : RegBank) (r : Reg) (v v' : Byte) : (b.set r v).set r v' = b.set r v' := by
  cases r <;> rfl

/-- Writing what a register holds changes nothing. -/
theorem RegBank.set_get (b : RegBank) (r : Reg) : b.set r (b.get r) = b := by
  cases r <;> rfl

theorem AccBank.get_set (b : AccBank) (t t' : SubTimer) (n : Nat) :
    (b.set t n).get t' = if t' = t then n else b.get t' := by
  cases t <;> cases t' <;> rfl

theorem AccBank.set_comm (b : AccBank) {t t' : SubTimer} (n n' : Nat) (h : t ≠ t') :
    (b.set t n).set t' n' = (b.set t' n').set t n := by
  cases t <;> cases t' <;> first | rfl | exact absurd rfl h

theorem EnvBank.get_set (b : EnvBank) (c c' : EnvChannel) (v : BitVec 3) :
    (b.set c v).get c' = if c' = c then v else b.get c' := by
  cases c <;> cases c' <;> rfl

/-- The largest value a length counter's width holds: 63, and 511 for the 9-bit counter (10_state.md R20). -/
def lengthTop : Channel → Nat
  | .ch3 => 511
  | .ch1 | .ch2 | .ch4 => 63

theorem LenBank.get_set_same (b : LenBank) (c : Channel) (n : Nat) (h : n ≤ lengthTop c) : (b.set c n).get c = n := by
  cases c <;> simp only [lengthTop] at h <;> simp [LenBank.get, LenBank.set] <;> omega

theorem LenBank.get_set_ne (b : LenBank) {c c' : Channel} (n : Nat) (h : c' ≠ c) : (b.set c n).get c' = b.get c' := by
  cases c <;> cases c' <;> first | rfl | exact absurd rfl h

theorem LenBank.get_le (b : LenBank) (c : Channel) : b.get c ≤ lengthTop c := by
  cases c <;> simp only [lengthTop, LenBank.get] <;> omega

/-- `len[c]` fits its width, so counting down never wraps. -/
theorem LenBank.set_get (b : LenBank) (c : Channel) : b.set c (b.get c) = b := by
  cases c <;> simp [LenBank.get, LenBank.set]

theorem lengthField_le (c : Channel) (b : Byte) : lengthField c b ≤ lengthTop c := by
  cases c <;> simp only [lengthField, lengthTop] <;> omega

theorem lengthMax_le (c : Channel) : lengthMax c ≤ lengthTop c := by
  cases c <;> decide

/-- Two length banks with the same counters are equal. -/
theorem LenBank.ext_get {a b : LenBank} (h : ∀ c, a.get c = b.get c) : a = b := by
  cases a; cases b
  simp only [LenBank.mk.injEq]
  exact ⟨BitVec.eq_of_toNat_eq (h .ch1), BitVec.eq_of_toNat_eq (h .ch2), BitVec.eq_of_toNat_eq (h .ch3),
    BitVec.eq_of_toNat_eq (h .ch4)⟩

/-- Two envelope banks with the same countdowns are equal. -/
theorem EnvBank.ext_get {a b : EnvBank} (h : ∀ c, a.get c = b.get c) : a = b := by
  cases a; cases b
  simp only [EnvBank.mk.injEq]
  exact ⟨h .ch1, h .ch2, h .ch4⟩

/-- Two states with the same values everywhere are equal. -/
theorem State.ext_values {s t : State} (regs : ∀ r, s.nr r = t.nr r) (aram : s.aram = t.aram) (acc : s.acc = t.acc)
    (fsStep : s.fsStep = t.fsStep) (envCd : ∀ c, s.envCd.get c = t.envCd.get c) (swpCd : s.swpCd = t.swpCd)
    (shadow : s.shadow = t.shadow) (swpEn : s.swpEn = t.swpEn) (len : ∀ c, s.len.get c = t.len.get c)
    (fault : s.fault = t.fault) (rsp : s.rsp = t.rsp) (port : s.port = t.port) (draws : s.draws = t.draws) : s = t := by
  have h1 := RegBank.ext_get (a := s.regs) (b := t.regs) regs
  have h2 := EnvBank.ext_get envCd
  have h3 := LenBank.ext_get len
  cases s; cases t
  simp only [State.mk.injEq]
  exact ⟨h1, aram, acc, fsStep, h2, swpCd, shadow, swpEn, h3, fault, rsp, port, draws⟩

/-! ## Register reads after each update -/

/-- `NR[r']` after `NR[r] <- v`. -/
theorem State.nr_setNr (s : State) (r r' : Reg) (v : Byte) : (s.setNr r v).nr r' = if r' = r then v else s.nr r' :=
  RegBank.get_set s.regs r r' v

@[simp] theorem State.nr_setNr_same (s : State) (r : Reg) (v : Byte) : (s.setNr r v).nr r = v :=
  RegBank.get_set_same s.regs r v

theorem State.nr_setNr_ne (s : State) {r r' : Reg} (v : Byte) (h : r' ≠ r) : (s.setNr r v).nr r' = s.nr r' :=
  RegBank.get_set_ne s.regs v h

@[simp] theorem State.nr_setAcc (s : State) (t : SubTimer) (n : Nat) (r : Reg) : (s.setAcc t n).nr r = s.nr r := rfl

@[simp] theorem State.nr_setEnvCd (s : State) (c : EnvChannel) (v : BitVec 3) (r : Reg) :
    (s.setEnvCd c v).nr r = s.nr r := rfl

@[simp] theorem State.nr_setLen (s : State) (c : Channel) (n : Nat) (r : Reg) : (s.setLen c n).nr r = s.nr r := rfl

@[simp] theorem State.nr_silent (s : State) (r : Reg) : s.silent.nr r = s.nr r := rfl

@[simp] theorem State.nr_answer (s : State) (b : Byte) (r : Reg) : (s.answer b).nr r = s.nr r := rfl

@[simp] theorem State.nr_answerFree (s : State) (r : Reg) : s.answerFree.nr r = s.nr r := rfl

@[simp] theorem State.nr_raise (s : State) (a : Addr) (x : AramAccess) (r : Reg) :
    (s.raiseAudioRamBounds a x).nr r = s.nr r := rfl

@[simp] theorem State.nr_accumulate (s : State) (n : Nat) (r : Reg) : (accumulate n s).nr r = s.nr r := rfl

@[simp] theorem State.nr_reloadSweep (s : State) (r : Reg) : s.reloadSweep.nr r = s.nr r := rfl

/-! ## Field by field -/

@[simp] theorem State.setNr_regs (s : State) (r : Reg) (v : Byte) : (s.setNr r v).regs = s.regs.set r v := rfl
@[simp] theorem State.setNr_aram (s : State) (r : Reg) (v : Byte) : (s.setNr r v).aram = s.aram := rfl
@[simp] theorem State.setNr_acc (s : State) (r : Reg) (v : Byte) : (s.setNr r v).acc = s.acc := rfl
@[simp] theorem State.setNr_fsStep (s : State) (r : Reg) (v : Byte) : (s.setNr r v).fsStep = s.fsStep := rfl
@[simp] theorem State.setNr_envCd (s : State) (r : Reg) (v : Byte) : (s.setNr r v).envCd = s.envCd := rfl
@[simp] theorem State.setNr_swpCd (s : State) (r : Reg) (v : Byte) : (s.setNr r v).swpCd = s.swpCd := rfl
@[simp] theorem State.setNr_shadow (s : State) (r : Reg) (v : Byte) : (s.setNr r v).shadow = s.shadow := rfl
@[simp] theorem State.setNr_swpEn (s : State) (r : Reg) (v : Byte) : (s.setNr r v).swpEn = s.swpEn := rfl
@[simp] theorem State.setNr_len (s : State) (r : Reg) (v : Byte) : (s.setNr r v).len = s.len := rfl
@[simp] theorem State.setNr_fault (s : State) (r : Reg) (v : Byte) : (s.setNr r v).fault = s.fault := rfl
@[simp] theorem State.setNr_rsp (s : State) (r : Reg) (v : Byte) : (s.setNr r v).rsp = s.rsp := rfl
@[simp] theorem State.setNr_port (s : State) (r : Reg) (v : Byte) : (s.setNr r v).port = s.port := rfl
@[simp] theorem State.setNr_draws (s : State) (r : Reg) (v : Byte) : (s.setNr r v).draws = s.draws := rfl

@[simp] theorem State.setAcc_regs (s : State) (t : SubTimer) (n : Nat) : (s.setAcc t n).regs = s.regs := rfl
@[simp] theorem State.setAcc_aram (s : State) (t : SubTimer) (n : Nat) : (s.setAcc t n).aram = s.aram := rfl
@[simp] theorem State.setAcc_acc (s : State) (t : SubTimer) (n : Nat) : (s.setAcc t n).acc = s.acc.set t n := rfl
@[simp] theorem State.setAcc_fsStep (s : State) (t : SubTimer) (n : Nat) : (s.setAcc t n).fsStep = s.fsStep := rfl
@[simp] theorem State.setAcc_envCd (s : State) (t : SubTimer) (n : Nat) : (s.setAcc t n).envCd = s.envCd := rfl
@[simp] theorem State.setAcc_swpCd (s : State) (t : SubTimer) (n : Nat) : (s.setAcc t n).swpCd = s.swpCd := rfl
@[simp] theorem State.setAcc_shadow (s : State) (t : SubTimer) (n : Nat) : (s.setAcc t n).shadow = s.shadow := rfl
@[simp] theorem State.setAcc_swpEn (s : State) (t : SubTimer) (n : Nat) : (s.setAcc t n).swpEn = s.swpEn := rfl
@[simp] theorem State.setAcc_len (s : State) (t : SubTimer) (n : Nat) : (s.setAcc t n).len = s.len := rfl
@[simp] theorem State.setAcc_fault (s : State) (t : SubTimer) (n : Nat) : (s.setAcc t n).fault = s.fault := rfl
@[simp] theorem State.setAcc_rsp (s : State) (t : SubTimer) (n : Nat) : (s.setAcc t n).rsp = s.rsp := rfl
@[simp] theorem State.setAcc_port (s : State) (t : SubTimer) (n : Nat) : (s.setAcc t n).port = s.port := rfl
@[simp] theorem State.setAcc_draws (s : State) (t : SubTimer) (n : Nat) : (s.setAcc t n).draws = s.draws := rfl

@[simp] theorem State.setEnvCd_regs (s : State) (c : EnvChannel) (v : BitVec 3) : (s.setEnvCd c v).regs = s.regs := rfl
@[simp] theorem State.setEnvCd_aram (s : State) (c : EnvChannel) (v : BitVec 3) : (s.setEnvCd c v).aram = s.aram := rfl
@[simp] theorem State.setEnvCd_acc (s : State) (c : EnvChannel) (v : BitVec 3) : (s.setEnvCd c v).acc = s.acc := rfl
@[simp] theorem State.setEnvCd_fsStep (s : State) (c : EnvChannel) (v : BitVec 3) : (s.setEnvCd c v).fsStep = s.fsStep := rfl
@[simp] theorem State.setEnvCd_envCd (s : State) (c : EnvChannel) (v : BitVec 3) : (s.setEnvCd c v).envCd = s.envCd.set c v := rfl
@[simp] theorem State.setEnvCd_swpCd (s : State) (c : EnvChannel) (v : BitVec 3) : (s.setEnvCd c v).swpCd = s.swpCd := rfl
@[simp] theorem State.setEnvCd_shadow (s : State) (c : EnvChannel) (v : BitVec 3) : (s.setEnvCd c v).shadow = s.shadow := rfl
@[simp] theorem State.setEnvCd_swpEn (s : State) (c : EnvChannel) (v : BitVec 3) : (s.setEnvCd c v).swpEn = s.swpEn := rfl
@[simp] theorem State.setEnvCd_len (s : State) (c : EnvChannel) (v : BitVec 3) : (s.setEnvCd c v).len = s.len := rfl
@[simp] theorem State.setEnvCd_fault (s : State) (c : EnvChannel) (v : BitVec 3) : (s.setEnvCd c v).fault = s.fault := rfl
@[simp] theorem State.setEnvCd_rsp (s : State) (c : EnvChannel) (v : BitVec 3) : (s.setEnvCd c v).rsp = s.rsp := rfl
@[simp] theorem State.setEnvCd_port (s : State) (c : EnvChannel) (v : BitVec 3) : (s.setEnvCd c v).port = s.port := rfl
@[simp] theorem State.setEnvCd_draws (s : State) (c : EnvChannel) (v : BitVec 3) : (s.setEnvCd c v).draws = s.draws := rfl

@[simp] theorem State.setLen_regs (s : State) (c : Channel) (n : Nat) : (s.setLen c n).regs = s.regs := rfl
@[simp] theorem State.setLen_aram (s : State) (c : Channel) (n : Nat) : (s.setLen c n).aram = s.aram := rfl
@[simp] theorem State.setLen_acc (s : State) (c : Channel) (n : Nat) : (s.setLen c n).acc = s.acc := rfl
@[simp] theorem State.setLen_fsStep (s : State) (c : Channel) (n : Nat) : (s.setLen c n).fsStep = s.fsStep := rfl
@[simp] theorem State.setLen_envCd (s : State) (c : Channel) (n : Nat) : (s.setLen c n).envCd = s.envCd := rfl
@[simp] theorem State.setLen_swpCd (s : State) (c : Channel) (n : Nat) : (s.setLen c n).swpCd = s.swpCd := rfl
@[simp] theorem State.setLen_shadow (s : State) (c : Channel) (n : Nat) : (s.setLen c n).shadow = s.shadow := rfl
@[simp] theorem State.setLen_swpEn (s : State) (c : Channel) (n : Nat) : (s.setLen c n).swpEn = s.swpEn := rfl
@[simp] theorem State.setLen_len (s : State) (c : Channel) (n : Nat) : (s.setLen c n).len = s.len.set c n := rfl
@[simp] theorem State.setLen_fault (s : State) (c : Channel) (n : Nat) : (s.setLen c n).fault = s.fault := rfl
@[simp] theorem State.setLen_rsp (s : State) (c : Channel) (n : Nat) : (s.setLen c n).rsp = s.rsp := rfl
@[simp] theorem State.setLen_port (s : State) (c : Channel) (n : Nat) : (s.setLen c n).port = s.port := rfl
@[simp] theorem State.setLen_draws (s : State) (c : Channel) (n : Nat) : (s.setLen c n).draws = s.draws := rfl

@[simp] theorem State.silent_regs (s : State) : (s.silent).regs = s.regs := rfl
@[simp] theorem State.silent_aram (s : State) : (s.silent).aram = s.aram := rfl
@[simp] theorem State.silent_acc (s : State) : (s.silent).acc = s.acc := rfl
@[simp] theorem State.silent_fsStep (s : State) : (s.silent).fsStep = s.fsStep := rfl
@[simp] theorem State.silent_envCd (s : State) : (s.silent).envCd = s.envCd := rfl
@[simp] theorem State.silent_swpCd (s : State) : (s.silent).swpCd = s.swpCd := rfl
@[simp] theorem State.silent_shadow (s : State) : (s.silent).shadow = s.shadow := rfl
@[simp] theorem State.silent_swpEn (s : State) : (s.silent).swpEn = s.swpEn := rfl
@[simp] theorem State.silent_len (s : State) : (s.silent).len = s.len := rfl
@[simp] theorem State.silent_fault (s : State) : (s.silent).fault = s.fault := rfl
@[simp] theorem State.silent_rsp (s : State) : (s.silent).rsp = Response.silent := rfl
@[simp] theorem State.silent_port (s : State) : (s.silent).port = s.port := rfl
@[simp] theorem State.silent_draws (s : State) : (s.silent).draws = s.draws := rfl

@[simp] theorem State.answer_regs (s : State) (b : Byte) : (s.answer b).regs = s.regs := rfl
@[simp] theorem State.answer_aram (s : State) (b : Byte) : (s.answer b).aram = s.aram := rfl
@[simp] theorem State.answer_acc (s : State) (b : Byte) : (s.answer b).acc = s.acc := rfl
@[simp] theorem State.answer_fsStep (s : State) (b : Byte) : (s.answer b).fsStep = s.fsStep := rfl
@[simp] theorem State.answer_envCd (s : State) (b : Byte) : (s.answer b).envCd = s.envCd := rfl
@[simp] theorem State.answer_swpCd (s : State) (b : Byte) : (s.answer b).swpCd = s.swpCd := rfl
@[simp] theorem State.answer_shadow (s : State) (b : Byte) : (s.answer b).shadow = s.shadow := rfl
@[simp] theorem State.answer_swpEn (s : State) (b : Byte) : (s.answer b).swpEn = s.swpEn := rfl
@[simp] theorem State.answer_len (s : State) (b : Byte) : (s.answer b).len = s.len := rfl
@[simp] theorem State.answer_fault (s : State) (b : Byte) : (s.answer b).fault = s.fault := rfl
@[simp] theorem State.answer_rsp (s : State) (b : Byte) : (s.answer b).rsp = ⟨some b, none⟩ := rfl
@[simp] theorem State.answer_port (s : State) (b : Byte) : (s.answer b).port = s.port := rfl
@[simp] theorem State.answer_draws (s : State) (b : Byte) : (s.answer b).draws = s.draws := rfl

@[simp] theorem State.answerFree_regs (s : State) : (s.answerFree).regs = s.regs := rfl
@[simp] theorem State.answerFree_aram (s : State) : (s.answerFree).aram = s.aram := rfl
@[simp] theorem State.answerFree_acc (s : State) : (s.answerFree).acc = s.acc := rfl
@[simp] theorem State.answerFree_fsStep (s : State) : (s.answerFree).fsStep = s.fsStep := rfl
@[simp] theorem State.answerFree_envCd (s : State) : (s.answerFree).envCd = s.envCd := rfl
@[simp] theorem State.answerFree_swpCd (s : State) : (s.answerFree).swpCd = s.swpCd := rfl
@[simp] theorem State.answerFree_shadow (s : State) : (s.answerFree).shadow = s.shadow := rfl
@[simp] theorem State.answerFree_swpEn (s : State) : (s.answerFree).swpEn = s.swpEn := rfl
@[simp] theorem State.answerFree_len (s : State) : (s.answerFree).len = s.len := rfl
@[simp] theorem State.answerFree_fault (s : State) : (s.answerFree).fault = s.fault := rfl
@[simp] theorem State.answerFree_rsp (s : State) : (s.answerFree).rsp = ⟨some (Config.freeByte s.draws), none⟩ := rfl
@[simp] theorem State.answerFree_port (s : State) : (s.answerFree).port = s.port := rfl
@[simp] theorem State.answerFree_draws (s : State) : (s.answerFree).draws = s.draws + 1 := rfl

@[simp] theorem State.raise_regs (s : State) (a : Addr) (x : AramAccess) : (s.raiseAudioRamBounds a x).regs = s.regs := rfl
@[simp] theorem State.raise_aram (s : State) (a : Addr) (x : AramAccess) : (s.raiseAudioRamBounds a x).aram = s.aram := rfl
@[simp] theorem State.raise_acc (s : State) (a : Addr) (x : AramAccess) : (s.raiseAudioRamBounds a x).acc = s.acc := rfl
@[simp] theorem State.raise_fsStep (s : State) (a : Addr) (x : AramAccess) : (s.raiseAudioRamBounds a x).fsStep = s.fsStep := rfl
@[simp] theorem State.raise_envCd (s : State) (a : Addr) (x : AramAccess) : (s.raiseAudioRamBounds a x).envCd = s.envCd := rfl
@[simp] theorem State.raise_swpCd (s : State) (a : Addr) (x : AramAccess) : (s.raiseAudioRamBounds a x).swpCd = s.swpCd := rfl
@[simp] theorem State.raise_shadow (s : State) (a : Addr) (x : AramAccess) : (s.raiseAudioRamBounds a x).shadow = s.shadow := rfl
@[simp] theorem State.raise_swpEn (s : State) (a : Addr) (x : AramAccess) : (s.raiseAudioRamBounds a x).swpEn = s.swpEn := rfl
@[simp] theorem State.raise_len (s : State) (a : Addr) (x : AramAccess) : (s.raiseAudioRamBounds a x).len = s.len := rfl
@[simp] theorem State.raise_fault (s : State) (a : Addr) (x : AramAccess) : (s.raiseAudioRamBounds a x).fault = true := rfl
@[simp] theorem State.raise_rsp (s : State) (a : Addr) (x : AramAccess) : (s.raiseAudioRamBounds a x).rsp = ⟨none, some ⟨.audioRamBounds, a, x⟩⟩ := rfl
@[simp] theorem State.raise_port (s : State) (a : Addr) (x : AramAccess) : (s.raiseAudioRamBounds a x).port = s.port := rfl
@[simp] theorem State.raise_draws (s : State) (a : Addr) (x : AramAccess) : (s.raiseAudioRamBounds a x).draws = s.draws := rfl

@[simp] theorem State.accumulate_regs (s : State) (n : Nat) : (accumulate n s).regs = s.regs := rfl
@[simp] theorem State.accumulate_aram (s : State) (n : Nat) : (accumulate n s).aram = s.aram := rfl
@[simp] theorem State.accumulate_acc (s : State) (n : Nat) : (accumulate n s).acc = ⟨s.acc.fs + n, s.acc.env + n, s.acc.swp + n, s.acc.len + n⟩ := rfl
@[simp] theorem State.accumulate_fsStep (s : State) (n : Nat) : (accumulate n s).fsStep = s.fsStep := rfl
@[simp] theorem State.accumulate_envCd (s : State) (n : Nat) : (accumulate n s).envCd = s.envCd := rfl
@[simp] theorem State.accumulate_swpCd (s : State) (n : Nat) : (accumulate n s).swpCd = s.swpCd := rfl
@[simp] theorem State.accumulate_shadow (s : State) (n : Nat) : (accumulate n s).shadow = s.shadow := rfl
@[simp] theorem State.accumulate_swpEn (s : State) (n : Nat) : (accumulate n s).swpEn = s.swpEn := rfl
@[simp] theorem State.accumulate_len (s : State) (n : Nat) : (accumulate n s).len = s.len := rfl
@[simp] theorem State.accumulate_fault (s : State) (n : Nat) : (accumulate n s).fault = s.fault := rfl
@[simp] theorem State.accumulate_rsp (s : State) (n : Nat) : (accumulate n s).rsp = s.rsp := rfl
@[simp] theorem State.accumulate_port (s : State) (n : Nat) : (accumulate n s).port = s.port := rfl
@[simp] theorem State.accumulate_draws (s : State) (n : Nat) : (accumulate n s).draws = s.draws := rfl

@[simp] theorem State.fsClock_regs (s : State) : (fsClock s).regs = s.regs := rfl
@[simp] theorem State.fsClock_aram (s : State) : (fsClock s).aram = s.aram := rfl
@[simp] theorem State.fsClock_acc (s : State) : (fsClock s).acc = s.acc := rfl
@[simp] theorem State.fsClock_fsStep (s : State) : (fsClock s).fsStep = s.fsStep + 1 := rfl
@[simp] theorem State.fsClock_envCd (s : State) : (fsClock s).envCd = s.envCd := rfl
@[simp] theorem State.fsClock_swpCd (s : State) : (fsClock s).swpCd = s.swpCd := rfl
@[simp] theorem State.fsClock_shadow (s : State) : (fsClock s).shadow = s.shadow := rfl
@[simp] theorem State.fsClock_swpEn (s : State) : (fsClock s).swpEn = s.swpEn := rfl
@[simp] theorem State.fsClock_len (s : State) : (fsClock s).len = s.len := rfl
@[simp] theorem State.fsClock_fault (s : State) : (fsClock s).fault = s.fault := rfl
@[simp] theorem State.fsClock_rsp (s : State) : (fsClock s).rsp = s.rsp := rfl
@[simp] theorem State.fsClock_port (s : State) : (fsClock s).port = s.port := rfl
@[simp] theorem State.fsClock_draws (s : State) : (fsClock s).draws = s.draws := rfl

@[simp] theorem State.reloadSweep_regs (s : State) : (s.reloadSweep).regs = s.regs := rfl
@[simp] theorem State.reloadSweep_aram (s : State) : (s.reloadSweep).aram = s.aram := rfl
@[simp] theorem State.reloadSweep_acc (s : State) : (s.reloadSweep).acc = s.acc := rfl
@[simp] theorem State.reloadSweep_fsStep (s : State) : (s.reloadSweep).fsStep = s.fsStep := rfl
@[simp] theorem State.reloadSweep_envCd (s : State) : (s.reloadSweep).envCd = s.envCd := rfl
@[simp] theorem State.reloadSweep_swpCd (s : State) : (s.reloadSweep).swpCd = sweepReload s.sweepPeriod := rfl
@[simp] theorem State.reloadSweep_shadow (s : State) : (s.reloadSweep).shadow = s.shadow := rfl
@[simp] theorem State.reloadSweep_swpEn (s : State) : (s.reloadSweep).swpEn = sweepEnabled s.sweepPeriod s.sweepShift := rfl
@[simp] theorem State.reloadSweep_len (s : State) : (s.reloadSweep).len = s.len := rfl
@[simp] theorem State.reloadSweep_fault (s : State) : (s.reloadSweep).fault = s.fault := rfl
@[simp] theorem State.reloadSweep_rsp (s : State) : (s.reloadSweep).rsp = s.rsp := rfl
@[simp] theorem State.reloadSweep_port (s : State) : (s.reloadSweep).port = s.port := rfl
@[simp] theorem State.reloadSweep_draws (s : State) : (s.reloadSweep).draws = s.draws := rfl

@[simp] theorem State.commitSweep_regs (s : State) (f : BitVec 11) : (s.commitSweep f).regs = (s.regs.set .nr13 (f.extractLsb' 0 8)).set .nr14 ((s.nr .nr14).setField 0 (f.extractLsb' 8 3)) := rfl
@[simp] theorem State.commitSweep_aram (s : State) (f : BitVec 11) : (s.commitSweep f).aram = s.aram := rfl
@[simp] theorem State.commitSweep_acc (s : State) (f : BitVec 11) : (s.commitSweep f).acc = s.acc := rfl
@[simp] theorem State.commitSweep_fsStep (s : State) (f : BitVec 11) : (s.commitSweep f).fsStep = s.fsStep := rfl
@[simp] theorem State.commitSweep_envCd (s : State) (f : BitVec 11) : (s.commitSweep f).envCd = s.envCd := rfl
@[simp] theorem State.commitSweep_swpCd (s : State) (f : BitVec 11) : (s.commitSweep f).swpCd = s.swpCd := rfl
@[simp] theorem State.commitSweep_shadow (s : State) (f : BitVec 11) : (s.commitSweep f).shadow = f := rfl
@[simp] theorem State.commitSweep_swpEn (s : State) (f : BitVec 11) : (s.commitSweep f).swpEn = s.swpEn := rfl
@[simp] theorem State.commitSweep_len (s : State) (f : BitVec 11) : (s.commitSweep f).len = s.len := rfl
@[simp] theorem State.commitSweep_fault (s : State) (f : BitVec 11) : (s.commitSweep f).fault = s.fault := rfl
@[simp] theorem State.commitSweep_rsp (s : State) (f : BitVec 11) : (s.commitSweep f).rsp = s.rsp := rfl
@[simp] theorem State.commitSweep_port (s : State) (f : BitVec 11) : (s.commitSweep f).port = s.port := rfl
@[simp] theorem State.commitSweep_draws (s : State) (f : BitVec 11) : (s.commitSweep f).draws = s.draws := rfl

@[simp] theorem State.setLenEnable_regs (s : State) (c : Channel) (b : Bool) : (s.setLenEnable c b).regs = s.regs.set c.nrc4 ((s.nr c.nrc4).setBit 6 b) := rfl
@[simp] theorem State.setLenEnable_aram (s : State) (c : Channel) (b : Bool) : (s.setLenEnable c b).aram = s.aram := rfl
@[simp] theorem State.setLenEnable_acc (s : State) (c : Channel) (b : Bool) : (s.setLenEnable c b).acc = s.acc := rfl
@[simp] theorem State.setLenEnable_fsStep (s : State) (c : Channel) (b : Bool) : (s.setLenEnable c b).fsStep = s.fsStep := rfl
@[simp] theorem State.setLenEnable_envCd (s : State) (c : Channel) (b : Bool) : (s.setLenEnable c b).envCd = s.envCd := rfl
@[simp] theorem State.setLenEnable_swpCd (s : State) (c : Channel) (b : Bool) : (s.setLenEnable c b).swpCd = s.swpCd := rfl
@[simp] theorem State.setLenEnable_shadow (s : State) (c : Channel) (b : Bool) : (s.setLenEnable c b).shadow = s.shadow := rfl
@[simp] theorem State.setLenEnable_swpEn (s : State) (c : Channel) (b : Bool) : (s.setLenEnable c b).swpEn = s.swpEn := rfl
@[simp] theorem State.setLenEnable_len (s : State) (c : Channel) (b : Bool) : (s.setLenEnable c b).len = s.len := rfl
@[simp] theorem State.setLenEnable_fault (s : State) (c : Channel) (b : Bool) : (s.setLenEnable c b).fault = s.fault := rfl
@[simp] theorem State.setLenEnable_rsp (s : State) (c : Channel) (b : Bool) : (s.setLenEnable c b).rsp = s.rsp := rfl
@[simp] theorem State.setLenEnable_port (s : State) (c : Channel) (b : Bool) : (s.setLenEnable c b).port = s.port := rfl
@[simp] theorem State.setLenEnable_draws (s : State) (c : Channel) (b : Bool) : (s.setLenEnable c b).draws = s.draws := rfl

@[simp] theorem State.checkOverflow_regs (s : State) (n : Nat) : (s.checkOverflow n).regs = s.regs := by
  unfold State.checkOverflow; split <;> rfl
@[simp] theorem State.checkOverflow_aram (s : State) (n : Nat) : (s.checkOverflow n).aram = s.aram := by
  unfold State.checkOverflow; split <;> rfl
@[simp] theorem State.checkOverflow_acc (s : State) (n : Nat) : (s.checkOverflow n).acc = s.acc := by
  unfold State.checkOverflow; split <;> rfl
@[simp] theorem State.checkOverflow_fsStep (s : State) (n : Nat) : (s.checkOverflow n).fsStep = s.fsStep := by
  unfold State.checkOverflow; split <;> rfl
@[simp] theorem State.checkOverflow_envCd (s : State) (n : Nat) : (s.checkOverflow n).envCd = s.envCd := by
  unfold State.checkOverflow; split <;> rfl
@[simp] theorem State.checkOverflow_swpCd (s : State) (n : Nat) : (s.checkOverflow n).swpCd = s.swpCd := by
  unfold State.checkOverflow; split <;> rfl
@[simp] theorem State.checkOverflow_shadow (s : State) (n : Nat) : (s.checkOverflow n).shadow = s.shadow := by
  unfold State.checkOverflow; split <;> rfl
@[simp] theorem State.checkOverflow_len (s : State) (n : Nat) : (s.checkOverflow n).len = s.len := by
  unfold State.checkOverflow; split <;> rfl
@[simp] theorem State.checkOverflow_fault (s : State) (n : Nat) : (s.checkOverflow n).fault = s.fault := by
  unfold State.checkOverflow; split <;> rfl
@[simp] theorem State.checkOverflow_rsp (s : State) (n : Nat) : (s.checkOverflow n).rsp = s.rsp := by
  unfold State.checkOverflow; split <;> rfl
@[simp] theorem State.checkOverflow_port (s : State) (n : Nat) : (s.checkOverflow n).port = s.port := by
  unfold State.checkOverflow; split <;> rfl
@[simp] theorem State.checkOverflow_draws (s : State) (n : Nat) : (s.checkOverflow n).draws = s.draws := by
  unfold State.checkOverflow; split <;> rfl
@[simp] theorem State.checkOverflow_swpEn (s : State) (n : Nat) :
    (s.checkOverflow n).swpEn = (s.swpEn && !sweepOverflow n) := by
  unfold State.checkOverflow
  cases h : sweepOverflow n <;> simp

@[simp] theorem State.reset_aram : (State.reset).aram = [] := rfl
@[simp] theorem State.reset_acc : (State.reset).acc = ⟨0, 0, 0, 0⟩ := rfl
@[simp] theorem State.reset_fsStep : (State.reset).fsStep = 0 := rfl
@[simp] theorem State.reset_envCd : (State.reset).envCd = ⟨0, 0, 0⟩ := rfl
@[simp] theorem State.reset_swpCd : (State.reset).swpCd = 0 := rfl
@[simp] theorem State.reset_shadow : (State.reset).shadow = 0 := rfl
@[simp] theorem State.reset_swpEn : (State.reset).swpEn = false := rfl
@[simp] theorem State.reset_len : (State.reset).len = ⟨0, 0, 0, 0⟩ := rfl
@[simp] theorem State.reset_fault : (State.reset).fault = false := rfl
@[simp] theorem State.reset_rsp : (State.reset).rsp = Response.silent := rfl
@[simp] theorem State.reset_port : (State.reset).port = [] := rfl
@[simp] theorem State.reset_draws : (State.reset).draws = 0 := rfl

/-- Every register is 0x00 after reset (10_state.md R25). -/
theorem State.nr_reset (r : Reg) : State.reset.nr r = 0 := by
  cases r <;> rfl

end Sys2Proof.Machine
end

