-- ==== Sys2Proof/Laws/Machines.lean ====
section
/-! SUPPORT. Each state machine as one update of the few values it owns, a function of those values alone; what every
machine leaves alone; that the machines commute; and what one `TICK` does to any view of the state. -/

namespace Sys2Proof.Machine

/-! ## Updates that change nothing -/

theorem State.setNr_self (s : State) (r : Reg) : s.setNr r (s.nr r) = s := by
  simp [State.setNr, State.nr, RegBank.set_get]

theorem State.setEnvCd_self (s : State) (c : EnvChannel) : s.setEnvCd c (s.envCd.get c) = s := by
  cases c <;> rfl

theorem State.setLen_self (s : State) (c : Channel) : s.setLen c (s.len.get c) = s := by
  simp [State.setLen, LenBank.set_get]

theorem Byte.setBit_self (v : Byte) (n : Fin 8) : v.setBit n (v.bit n) = v := by
  apply Byte.ext_bits
  intro i hi
  rw [Byte.getLsbD_setBit _ _ _ _ hi]
  split
  · next h => rw [Byte.bit, h]
  · rfl

theorem State.setLenEnable_self (s : State) (c : Channel) : s.setLenEnable c (s.lenEnable c) = s := by
  simp only [State.setLenEnable, State.lenEnable, Byte.setBit_self]
  exact s.setNr_self _

@[simp] theorem State.lenEnable_setLen (s : State) (c c' : Channel) (n : Nat) :
    (s.setLen c n).lenEnable c' = s.lenEnable c' := rfl

/-! ## The envelope -/

/-- An envelope's countdown and register after one clock (42_envelope.md R151, R152). -/
def envNext (v : BitVec 3 × Byte) : BitVec 3 × Byte :=
  if envPeriod v.2 = 0 then v
  else if 2 ≤ v.1.toNat then (BitVec.ofNat 3 (v.1.toNat - 1), v.2)
  else (envPeriod v.2, v.2.setField 4 (stepVolume (envAmplify v.2) (envVolume v.2)))

/-- What envelope `c` owns. -/
def State.envView (c : EnvChannel) (s : State) : BitVec 3 × Byte := (s.envCd.get c, s.nr c.nrc2)

/-- Everything `envStep` can do. -/
theorem envStep_eq (c : EnvChannel) (s : State) :
    envStep c s = (s.setEnvCd c (envNext (s.envView c)).1).setNr c.nrc2 (envNext (s.envView c)).2 := by
  simp only [envStep, envNext, State.envView, decExpire]
  by_cases hp : envPeriod (s.nr c.nrc2) = 0
  · simp only [hp, if_true, State.setEnvCd_self]
    exact (s.setNr_self _).symm
  · by_cases hc : 2 ≤ (s.envCd.get c).toNat
    · simp only [hp, hc, if_false, if_true, Bool.false_eq_true]
      exact (State.setNr_self _ _).symm
    · simp only [hp, hc, if_false, if_true]

/-- The low nibble of an envelope register is never changed by the envelope (R151). -/
theorem envNext_lowNibble (v : BitVec 3 × Byte) : (envNext v).2.field 0 4 = v.2.field 0 4 := by
  simp only [envNext]
  split
  · rfl
  · split
    · rfl
    · exact Byte.field_setField_disjoint _ _ _ _ _ (.inl (by omega)) (by omega)

/-! ## The length counters -/

/-- A length counter and its enable bit after one clock (44_length.md R181). -/
def lenNext (v : Nat × Bool) : Nat × Bool := if v.2 = false then v else (v.1 - 1, decide (v.1 - 1 ≠ 0))

/-- What the length counter of channel `c` owns. -/
def State.lenView (c : Channel) (s : State) : Nat × Bool := (s.len.get c, s.lenEnable c)

/-- Everything `lenStep` can do. -/
theorem lenStep_eq (c : Channel) (s : State) :
    lenStep c s = (s.setLen c (lenNext (s.lenView c)).1).setLenEnable c (lenNext (s.lenView c)).2 := by
  by_cases he : s.lenEnable c = false
  · have h := (s.setLen c (s.len.get c)).setLenEnable_self c
    simp only [State.setLen_self] at h
    simp only [lenStep, lenNext, State.lenView, he, if_true, State.setLen_self]
    rw [he] at h
    exact h.symm
  · have hle := s.len.get_le c
    have hget : (s.setLen c (s.len.get c - 1)).len.get c = s.len.get c - 1 :=
      LenBank.get_set_same s.len c _ (by omega)
    simp only [lenStep, lenNext, State.lenView, he]
    by_cases h0 : s.len.get c = 0
    · have hs : s.setLen c 0 = s := by rw [← h0]; exact s.setLen_self c
      simp [h0, hs]
    · by_cases h1 : s.len.get c - 1 = 0
      · have hg0 : (s.setLen c 0).len.get c = 0 := by simpa [h1] using hget
        simp only [ne_eq, h0, not_false_eq_true, if_true, h1, hg0, not_true_eq_false, decide_false,
          Bool.true_eq_false, if_false]
      · have h := (s.setLen c (s.len.get c - 1)).setLenEnable_self c
        rw [State.lenEnable_setLen, Bool.eq_true_of_not_eq_false he] at h
        simp only [ne_eq, h0, not_false_eq_true, if_true, hget, h1, if_false, decide_true]
        exact h.symm

/-! ## The sweep -/

/-- What the sweep owns: `swp_cd`, `shadow`, `swp_en`, NR13 and `NR14[2:0]`. -/
structure SweepView where
  cd : BitVec 4
  shadow : BitVec 11
  en : Bool
  low : Byte
  high : BitVec 3
  deriving DecidableEq, Repr

/-- The sweep's values after one clock, from NR10 and the values before (43_sweep.md R160 to R164). -/
def sweepNext (nr10 : Byte) (v : SweepView) : SweepView :=
  let p : BitVec 3 := nr10.field 4 3
  let sh : BitVec 3 := nr10.field 0 3
  let neg := nr10.bit 3
  if 2 ≤ v.cd.toNat then { v with cd := BitVec.ofNat 4 (v.cd.toNat - 1) }
  else
    let v₁ : SweepView := { v with cd := sweepReload p, en := sweepEnabled p sh }
    if p = 0 then v₁
    else
      let cand := sweepCalc v.shadow.toNat sh.toNat neg
      let f := BitVec.ofNat 11 cand
      let v₂ : SweepView :=
        if cand ≤ 2047 ∧ sh ≠ 0 then { v₁ with shadow := f, low := f.extractLsb' 0 8, high := f.extractLsb' 8 3 } else v₁
      { v₂ with en := v₂.en && !sweepOverflow cand && !sweepOverflow (sweepCalc v₂.shadow.toNat sh.toNat neg) }

/-- The sweep's values in a state. -/
def State.sweepView (s : State) : SweepView :=
  ⟨s.swpCd, s.shadow, s.swpEn, s.nr .nr13, (s.nr .nr14).field 0 3⟩

/-- The state with the sweep's values replaced; `NR14[7:3]` is preserved. -/
def State.withSweep (s : State) (v : SweepView) : State :=
  (({ s with swpCd := v.cd, shadow := v.shadow, swpEn := v.en } : State).setNr .nr13 v.low).setNr .nr14
    ((s.nr .nr14).setField 0 v.high)

/-- Replacing only the countdown and the flag. -/
theorem State.withSweep_keep (s : State) (cd : BitVec 4) (en : Bool) :
    s.withSweep { s.sweepView with cd := cd, en := en } = { s with swpCd := cd, swpEn := en } := by
  have h13 : ∀ u : State, u.nr .nr13 = s.nr .nr13 → u.setNr .nr13 (s.nr .nr13) = u := by
    intro u hu
    rw [← hu]
    exact u.setNr_self _
  have h14 : ∀ u : State, u.nr .nr14 = s.nr .nr14 → u.setNr .nr14 (s.nr .nr14) = u := by
    intro u hu
    rw [← hu]
    exact u.setNr_self _
  have hself := Byte.setField_self (s.nr .nr14) 0 3
  simp only [State.withSweep, State.sweepView]
  rw [hself, h13 { s with swpCd := cd, swpEn := en } rfl, h14 { s with swpCd := cd, swpEn := en } rfl]

/-- The overflow check as one update. -/
theorem State.checkOverflow_eq (s : State) (n : Nat) :
    s.checkOverflow n = { s with swpEn := s.swpEn && !sweepOverflow n } := by
  unfold State.checkOverflow
  cases sweepOverflow n <;> simp

/-- The reload as one update of the sweep's values. -/
theorem State.reloadSweep_eq (s : State) :
    s.reloadSweep = s.withSweep { s.sweepView with
      cd := sweepReload s.sweepPeriod, en := sweepEnabled s.sweepPeriod s.sweepShift } :=
  (s.withSweep_keep _ _).symm

/-- The candidate read from a state whose sweep values were replaced. -/
theorem State.sweepCandidate_withSweep (s : State) (v : SweepView) :
    (s.withSweep v).sweepCandidate = sweepCalc v.shadow.toNat s.sweepShift.toNat s.sweepNeg := rfl

/-- An overflow check after the sweep values were replaced. -/
theorem State.checkOverflow_withSweep (s : State) (v : SweepView) (n : Nat) :
    (s.withSweep v).checkOverflow n = s.withSweep { v with en := v.en && !sweepOverflow n } := by
  rw [State.checkOverflow_eq]
  rfl

/-- Everything `sweepClock` can do. -/
theorem sweepClock_eq (s : State) : sweepClock s = s.withSweep (sweepNext (s.nr .nr10) s.sweepView) := by
  have hp : (s.nr .nr10).field 4 3 = s.sweepPeriod := rfl
  have hsh : (s.nr .nr10).field 0 3 = s.sweepShift := rfl
  have hneg : (s.nr .nr10).bit 3 = s.sweepNeg := rfl
  have hview : s.sweepView.cd = s.swpCd ∧ s.sweepView.shadow = s.shadow := ⟨rfl, rfl⟩
  simp only [sweepClock, sweepNext, decExpire, hp, hsh, hneg, hview]
  by_cases hcd : 2 ≤ s.swpCd.toNat
  · simp only [hcd, if_true, Bool.false_eq_true, if_false]
    exact (s.withSweep_keep _ _).symm
  · simp only [hcd, if_true, if_false, sweepExpiry]
    by_cases hp0 : s.sweepPeriod = 0
    · simp only [hp0, ne_eq, not_true_eq_false, and_false, if_false, if_true]
      rw [State.reloadSweep_eq, hp0]
      rfl
    · have hen : s.reloadSweep.swpEn = true := by
        rw [State.reloadSweep_swpEn, sweepEnabled, bne_iff_ne.mpr hp0, Bool.true_or]
      have hcand : s.reloadSweep.sweepCandidate = sweepCalc s.shadow.toNat s.sweepShift.toNat s.sweepNeg := rfl
      have hshift : s.reloadSweep.sweepShift = s.sweepShift := rfl
      simp only [hen, ne_eq, hp0, not_false_eq_true, and_self, if_true, if_false, sweepUpdate, hcand, hshift]
      generalize sweepCalc s.shadow.toNat s.sweepShift.toNat s.sweepNeg = cand
      by_cases hcom : cand ≤ 2047 ∧ ¬ s.sweepShift = 0
      · have hcommit : s.reloadSweep.commitSweep (BitVec.ofNat 11 cand) = s.withSweep
            ⟨sweepReload s.sweepPeriod, BitVec.ofNat 11 cand, sweepEnabled s.sweepPeriod s.sweepShift,
              (BitVec.ofNat 11 cand).extractLsb' 0 8, (BitVec.ofNat 11 cand).extractLsb' 8 3⟩ := rfl
        rw [if_pos hcom, if_pos hcom, hcommit, State.checkOverflow_withSweep, State.sweepCandidate_withSweep,
          State.checkOverflow_withSweep]
      · rw [if_neg hcom, if_neg hcom, State.reloadSweep_eq, State.checkOverflow_withSweep,
          State.sweepCandidate_withSweep, State.checkOverflow_withSweep]
        rfl

/-! ## What each machine leaves alone -/

@[simp] theorem envStep_aram (c : EnvChannel) (s : State) : (envStep c s).aram = s.aram := by
  rw [envStep_eq]; rfl
@[simp] theorem envClock_aram (s : State) : (envClock s).aram = s.aram := by
  simp [envClock]
@[simp] theorem envStep_acc (c : EnvChannel) (s : State) : (envStep c s).acc = s.acc := by
  rw [envStep_eq]; rfl
@[simp] theorem envClock_acc (s : State) : (envClock s).acc = s.acc := by
  simp [envClock]
@[simp] theorem envStep_fsStep (c : EnvChannel) (s : State) : (envStep c s).fsStep = s.fsStep := by
  rw [envStep_eq]; rfl
@[simp] theorem envClock_fsStep (s : State) : (envClock s).fsStep = s.fsStep := by
  simp [envClock]
@[simp] theorem envStep_swpCd (c : EnvChannel) (s : State) : (envStep c s).swpCd = s.swpCd := by
  rw [envStep_eq]; rfl
@[simp] theorem envClock_swpCd (s : State) : (envClock s).swpCd = s.swpCd := by
  simp [envClock]
@[simp] theorem envStep_shadow (c : EnvChannel) (s : State) : (envStep c s).shadow = s.shadow := by
  rw [envStep_eq]; rfl
@[simp] theorem envClock_shadow (s : State) : (envClock s).shadow = s.shadow := by
  simp [envClock]
@[simp] theorem envStep_swpEn (c : EnvChannel) (s : State) : (envStep c s).swpEn = s.swpEn := by
  rw [envStep_eq]; rfl
@[simp] theorem envClock_swpEn (s : State) : (envClock s).swpEn = s.swpEn := by
  simp [envClock]
@[simp] theorem envStep_len (c : EnvChannel) (s : State) : (envStep c s).len = s.len := by
  rw [envStep_eq]; rfl
@[simp] theorem envClock_len (s : State) : (envClock s).len = s.len := by
  simp [envClock]
@[simp] theorem envStep_fault (c : EnvChannel) (s : State) : (envStep c s).fault = s.fault := by
  rw [envStep_eq]; rfl
@[simp] theorem envClock_fault (s : State) : (envClock s).fault = s.fault := by
  simp [envClock]
@[simp] theorem envStep_rsp (c : EnvChannel) (s : State) : (envStep c s).rsp = s.rsp := by
  rw [envStep_eq]; rfl
@[simp] theorem envClock_rsp (s : State) : (envClock s).rsp = s.rsp := by
  simp [envClock]
@[simp] theorem envStep_port (c : EnvChannel) (s : State) : (envStep c s).port = s.port := by
  rw [envStep_eq]; rfl
@[simp] theorem envClock_port (s : State) : (envClock s).port = s.port := by
  simp [envClock]
@[simp] theorem envStep_draws (c : EnvChannel) (s : State) : (envStep c s).draws = s.draws := by
  rw [envStep_eq]; rfl
@[simp] theorem envClock_draws (s : State) : (envClock s).draws = s.draws := by
  simp [envClock]
@[simp] theorem lenStep_aram (c : Channel) (s : State) : (lenStep c s).aram = s.aram := by
  rw [lenStep_eq]; rfl
@[simp] theorem lenClock_aram (s : State) : (lenClock s).aram = s.aram := by
  simp [lenClock]
@[simp] theorem lenStep_acc (c : Channel) (s : State) : (lenStep c s).acc = s.acc := by
  rw [lenStep_eq]; rfl
@[simp] theorem lenClock_acc (s : State) : (lenClock s).acc = s.acc := by
  simp [lenClock]
@[simp] theorem lenStep_fsStep (c : Channel) (s : State) : (lenStep c s).fsStep = s.fsStep := by
  rw [lenStep_eq]; rfl
@[simp] theorem lenClock_fsStep (s : State) : (lenClock s).fsStep = s.fsStep := by
  simp [lenClock]
@[simp] theorem lenStep_envCd (c : Channel) (s : State) : (lenStep c s).envCd = s.envCd := by
  rw [lenStep_eq]; rfl
@[simp] theorem lenClock_envCd (s : State) : (lenClock s).envCd = s.envCd := by
  simp [lenClock]
@[simp] theorem lenStep_swpCd (c : Channel) (s : State) : (lenStep c s).swpCd = s.swpCd := by
  rw [lenStep_eq]; rfl
@[simp] theorem lenClock_swpCd (s : State) : (lenClock s).swpCd = s.swpCd := by
  simp [lenClock]
@[simp] theorem lenStep_shadow (c : Channel) (s : State) : (lenStep c s).shadow = s.shadow := by
  rw [lenStep_eq]; rfl
@[simp] theorem lenClock_shadow (s : State) : (lenClock s).shadow = s.shadow := by
  simp [lenClock]
@[simp] theorem lenStep_swpEn (c : Channel) (s : State) : (lenStep c s).swpEn = s.swpEn := by
  rw [lenStep_eq]; rfl
@[simp] theorem lenClock_swpEn (s : State) : (lenClock s).swpEn = s.swpEn := by
  simp [lenClock]
@[simp] theorem lenStep_fault (c : Channel) (s : State) : (lenStep c s).fault = s.fault := by
  rw [lenStep_eq]; rfl
@[simp] theorem lenClock_fault (s : State) : (lenClock s).fault = s.fault := by
  simp [lenClock]
@[simp] theorem lenStep_rsp (c : Channel) (s : State) : (lenStep c s).rsp = s.rsp := by
  rw [lenStep_eq]; rfl
@[simp] theorem lenClock_rsp (s : State) : (lenClock s).rsp = s.rsp := by
  simp [lenClock]
@[simp] theorem lenStep_port (c : Channel) (s : State) : (lenStep c s).port = s.port := by
  rw [lenStep_eq]; rfl
@[simp] theorem lenClock_port (s : State) : (lenClock s).port = s.port := by
  simp [lenClock]
@[simp] theorem lenStep_draws (c : Channel) (s : State) : (lenStep c s).draws = s.draws := by
  rw [lenStep_eq]; rfl
@[simp] theorem lenClock_draws (s : State) : (lenClock s).draws = s.draws := by
  simp [lenClock]
@[simp] theorem sweepClock_aram (s : State) : (sweepClock s).aram = s.aram := by
  rw [sweepClock_eq]; rfl
@[simp] theorem sweepClock_acc (s : State) : (sweepClock s).acc = s.acc := by
  rw [sweepClock_eq]; rfl
@[simp] theorem sweepClock_fsStep (s : State) : (sweepClock s).fsStep = s.fsStep := by
  rw [sweepClock_eq]; rfl
@[simp] theorem sweepClock_envCd (s : State) : (sweepClock s).envCd = s.envCd := by
  rw [sweepClock_eq]; rfl
@[simp] theorem sweepClock_len (s : State) : (sweepClock s).len = s.len := by
  rw [sweepClock_eq]; rfl
@[simp] theorem sweepClock_fault (s : State) : (sweepClock s).fault = s.fault := by
  rw [sweepClock_eq]; rfl
@[simp] theorem sweepClock_rsp (s : State) : (sweepClock s).rsp = s.rsp := by
  rw [sweepClock_eq]; rfl
@[simp] theorem sweepClock_port (s : State) : (sweepClock s).port = s.port := by
  rw [sweepClock_eq]; rfl
@[simp] theorem sweepClock_draws (s : State) : (sweepClock s).draws = s.draws := by
  rw [sweepClock_eq]; rfl

/-! ## Registers and views after each machine -/

/-- A register after an envelope step. -/
theorem envStep_nr (c : EnvChannel) (s : State) (r : Reg) :
    (envStep c s).nr r = if r = c.nrc2 then (envNext (s.envView c)).2 else s.nr r := by
  rw [envStep_eq, State.nr_setNr]
  rfl

/-- Another envelope's countdown after an envelope step, and its own. -/
theorem envStep_envCd (c c' : EnvChannel) (s : State) :
    (envStep c s).envCd.get c' = if c' = c then (envNext (s.envView c)).1 else s.envCd.get c' := by
  rw [envStep_eq]
  exact EnvBank.get_set s.envCd c c' _

theorem EnvChannel.nrc2_injective {c c' : EnvChannel} (h : c.nrc2 = c'.nrc2) : c = c' := by
  revert h; cases c <;> cases c' <;> decide

theorem Channel.nrc4_injective {c c' : Channel} (h : c.nrc4 = c'.nrc4) : c = c' := by
  revert h; cases c <;> cases c' <;> decide

/-- What envelope `c'` owns after a step of envelope `c`. -/
theorem envStep_view (c c' : EnvChannel) (s : State) :
    (envStep c s).envView c' = if c' = c then envNext (s.envView c) else s.envView c' := by
  simp only [State.envView, envStep_envCd, envStep_nr]
  by_cases h : c' = c
  · subst h; simp
  · have h' : c'.nrc2 ≠ c.nrc2 := fun e => h (EnvChannel.nrc2_injective e)
    simp [h, h']

/-- One `ENV_CLOCK` on what envelope `c` owns. -/
theorem envClock_view (c : EnvChannel) (s : State) : (envClock s).envView c = envNext (s.envView c) := by
  cases c <;> simp [envClock, envStep_view]

/-- A register no envelope owns. -/
theorem envClock_nr (s : State) {r : Reg} (h : ∀ c : EnvChannel, r ≠ c.nrc2) : (envClock s).nr r = s.nr r := by
  simp [envClock, envStep_nr, h]

/-- A register after a length step. -/
theorem lenStep_nr (c : Channel) (s : State) (r : Reg) :
    (lenStep c s).nr r = if r = c.nrc4 then (s.nr c.nrc4).setBit 6 (lenNext (s.lenView c)).2 else s.nr r := by
  rw [lenStep_eq, State.setLenEnable, State.nr_setNr]
  rfl

theorem lenNext_le (v : Nat × Bool) : (lenNext v).1 ≤ v.1 := by
  simp only [lenNext]; split <;> omega

theorem lenStep_len (c c' : Channel) (s : State) :
    (lenStep c s).len.get c' = if c' = c then (lenNext (s.lenView c)).1 else s.len.get c' := by
  have hle : (lenNext (s.lenView c)).1 ≤ lengthTop c :=
    Nat.le_trans (lenNext_le _) (s.len.get_le c)
  rw [lenStep_eq]
  by_cases h : c' = c
  · subst h; simp only [if_true]; exact LenBank.get_set_same s.len c' _ hle
  · simp only [h, if_false]; exact LenBank.get_set_ne s.len _ h

/-- What the length counter of `c'` owns after a step of `c`. -/
theorem lenStep_view (c c' : Channel) (s : State) :
    (lenStep c s).lenView c' = if c' = c then lenNext (s.lenView c) else s.lenView c' := by
  simp only [State.lenView, lenStep_len, State.lenEnable, lenStep_nr]
  by_cases h : c' = c
  · subst h; simp [Byte.bit_setBit]
  · have h' : c'.nrc4 ≠ c.nrc4 := fun e => h (Channel.nrc4_injective e)
    simp [h, h']

/-- One `LEN_CLOCK` on what the length counter of `c` owns. -/
theorem lenClock_view (c : Channel) (s : State) : (lenClock s).lenView c = lenNext (s.lenView c) := by
  cases c <;> simp [lenClock, lenStep_view]

/-- A register no length counter owns. -/
theorem lenClock_nr (s : State) {r : Reg} (h : ∀ c : Channel, r ≠ c.nrc4) : (lenClock s).nr r = s.nr r := by
  simp [lenClock, lenStep_nr, h]

/-- A restart register after `LEN_CLOCK`: only bit 6 can change. -/
theorem lenClock_nrc4 (c : Channel) (s : State) :
    (lenClock s).nr c.nrc4 = (s.nr c.nrc4).setBit 6 (lenNext (s.lenView c)).2 := by
  cases c <;> simp [lenClock, lenStep_nr, lenStep_view, Channel.nrc4]

/-- A field of a restart register below bit 6 is not touched by `LEN_CLOCK`. -/
theorem lenClock_field (s : State) (r : Reg) (lo w : Nat) (h : lo + w ≤ 6) :
    ((lenClock s).nr r).field lo w = (s.nr r).field lo w := by
  by_cases hr : ∀ c : Channel, r ≠ c.nrc4
  · rw [lenClock_nr s hr]
  · obtain ⟨c, rfl⟩ := not_forall_not.mp hr
    rw [lenClock_nrc4, Byte.field_setBit_six _ _ _ _ h]

/-- A register after `SWEEP_CLOCK`. -/
theorem sweepClock_nr (s : State) (r : Reg) :
    (sweepClock s).nr r =
      if r = .nr14 then (s.nr .nr14).setField 0 (sweepNext (s.nr .nr10) s.sweepView).high
      else if r = .nr13 then (sweepNext (s.nr .nr10) s.sweepView).low else s.nr r := by
  rw [sweepClock_eq, State.withSweep, State.nr_setNr, State.nr_setNr]
  rfl

/-- The sweep's values after `SWEEP_CLOCK`. -/
theorem sweepClock_view (s : State) : (sweepClock s).sweepView = sweepNext (s.nr .nr10) s.sweepView := by
  rw [sweepClock_eq]
  simp [State.sweepView, State.withSweep, State.nr_setNr, Byte.field_setField_same]

/-- The length view is not the sweep's. -/
theorem sweepClock_lenView (c : Channel) (s : State) : (sweepClock s).lenView c = s.lenView c := by
  simp only [State.lenView, State.lenEnable, sweepClock_len, sweepClock_nr]
  cases c <;> simp [Channel.nrc4, Byte.bit_setField_outside]

theorem sweepClock_envView (c : EnvChannel) (s : State) : (sweepClock s).envView c = s.envView c := by
  simp only [State.envView, sweepClock_envCd, sweepClock_nr]
  cases c <;> simp [EnvChannel.nrc2]

theorem envClock_lenView (c : Channel) (s : State) : (envClock s).lenView c = s.lenView c := by
  have h : ∀ e : EnvChannel, c.nrc4 ≠ e.nrc2 := by cases c <;> intro e <;> cases e <;> decide
  simp only [State.lenView, State.lenEnable, envClock_len, envClock_nr s h]

theorem lenClock_envView (c : EnvChannel) (s : State) : (lenClock s).envView c = s.envView c := by
  have h : ∀ k : Channel, c.nrc2 ≠ k.nrc4 := by intro k; cases c <;> cases k <;> decide
  simp only [State.envView, lenClock_envCd, lenClock_nr s h]

theorem envClock_sweepView (s : State) : (envClock s).sweepView = s.sweepView := by
  have h13 : ∀ e : EnvChannel, Reg.nr13 ≠ e.nrc2 := by intro e; cases e <;> decide
  have h14 : ∀ e : EnvChannel, Reg.nr14 ≠ e.nrc2 := by intro e; cases e <;> decide
  simp only [State.sweepView, envClock_nr s h13, envClock_nr s h14, envClock_swpCd, envClock_shadow, envClock_swpEn]

theorem lenClock_sweepView (s : State) : (lenClock s).sweepView = s.sweepView := by
  simp only [State.sweepView, lenClock_swpCd, lenClock_shadow, lenClock_swpEn, lenClock_field s .nr14 0 3 (by omega)]
  rw [lenClock_nr s (r := .nr13) (by intro c; cases c <;> decide)]

@[simp] theorem fsClock_nr (s : State) (r : Reg) : (fsClock s).nr r = s.nr r := rfl

/-! The response ports are in no view. -/

@[simp] theorem State.silent_envView (c : EnvChannel) (s : State) : s.silent.envView c = s.envView c := rfl
@[simp] theorem State.silent_lenView (c : Channel) (s : State) : s.silent.lenView c = s.lenView c := rfl
@[simp] theorem State.silent_sweepView (s : State) : s.silent.sweepView = s.sweepView := rfl

/-! ## The channels of one clock commute (42_envelope.md R150, 44_length.md R180) -/

theorem envStep_comm (c d : EnvChannel) (s : State) : envStep c (envStep d s) = envStep d (envStep c s) := by
  by_cases h : c = d
  · rw [h]
  have hn : c.nrc2 ≠ d.nrc2 := fun e => h (EnvChannel.nrc2_injective e)
  have hd : d ≠ c := Ne.symm h
  apply State.ext_values
  case regs =>
    intro r
    simp only [envStep_nr, envStep_view, if_neg h, if_neg hd]
    split <;> split <;> simp_all
  case envCd =>
    intro x
    simp only [envStep_envCd, envStep_view, if_neg h, if_neg hd]
    split <;> split <;> simp_all
  all_goals intros; simp

theorem lenStep_comm (c d : Channel) (s : State) : lenStep c (lenStep d s) = lenStep d (lenStep c s) := by
  by_cases h : c = d
  · rw [h]
  have hn : c.nrc4 ≠ d.nrc4 := fun e => h (Channel.nrc4_injective e)
  have hd : d ≠ c := Ne.symm h
  apply State.ext_values
  case regs =>
    intro r
    simp only [lenStep_nr, lenStep_view, if_neg h, if_neg hd]
    split <;> split <;> simp_all
  case len =>
    intro x
    simp only [lenStep_len, lenStep_view, if_neg h, if_neg hd]
    split <;> split <;> simp_all
  all_goals intros; simp

end Sys2Proof.Machine
end

