-- ==== Sys2Proof/Laws/Tick.lean ====
section
/-! SUPPORT. The scheduler: firings of different sub-timers commute, and what one `TICK` does to a view of the state that
one machine updates and the others leave alone. -/

namespace Sys2Proof.Machine

/-- No state machine writes an accumulator (40_tick_scheduler.md R91). -/
@[simp] theorem clock_acc (x : SubTimer) (s : State) : (SubTimer.clock x s).acc = s.acc := by
  cases x <;> simp [SubTimer.clock]

/-- No state machine reads an accumulator. -/
theorem clock_withAcc (x : SubTimer) (s : State) (a : AccBank) :
    SubTimer.clock x { s with acc := a } = { SubTimer.clock x s with acc := a } := by
  cases x with
  | fs => rfl
  | env => simp only [SubTimer.clock, envClock, envStep_eq]; rfl
  | swp => simp only [SubTimer.clock, sweepClock_eq]; rfl
  | len => simp only [SubTimer.clock, lenClock, lenStep_eq]; rfl

theorem clock_setAcc (x y : SubTimer) (s : State) (n : Nat) :
    SubTimer.clock x (s.setAcc y n) = (SubTimer.clock x s).setAcc y n := by
  rw [State.setAcc, clock_withAcc, State.setAcc, clock_acc]

theorem iterate_clock_setAcc (x y : SubTimer) (k : Nat) (s : State) (n : Nat) :
    (SubTimer.clock x)^[k] (s.setAcc y n) = ((SubTimer.clock x)^[k] s).setAcc y n :=
  Function.Commute.iterate_left (f := SubTimer.clock x) (g := fun u => u.setAcc y n)
    (fun u => clock_setAcc x y u n) k s

@[simp] theorem iterate_clock_acc (x : SubTimer) (k : Nat) (s : State) : ((SubTimer.clock x)^[k] s).acc = s.acc := by
  induction k generalizing s with
  | zero => rfl
  | succ k ih => rw [Function.iterate_succ_apply, ih, clock_acc]

theorem envClock_fsClock (s : State) : envClock (fsClock s) = fsClock (envClock s) := by
  simp only [envClock, envStep_eq]; rfl

theorem sweepClock_fsClock (s : State) : sweepClock (fsClock s) = fsClock (sweepClock s) := by
  simp only [sweepClock_eq]; rfl

theorem lenClock_fsClock (s : State) : lenClock (fsClock s) = fsClock (lenClock s) := by
  simp only [lenClock, lenStep_eq]; rfl

/-- The register an envelope owns, read after `ENV_CLOCK`. -/
theorem envClock_nrc2 (c : EnvChannel) (s : State) : (envClock s).nr c.nrc2 = (envNext (s.envView c)).2 :=
  congrArg Prod.snd (envClock_view c s)

theorem envClock_envCd_get (c : EnvChannel) (s : State) : (envClock s).envCd.get c = (envNext (s.envView c)).1 :=
  congrArg Prod.fst (envClock_view c s)

theorem lenClock_len_get (c : Channel) (s : State) : (lenClock s).len.get c = (lenNext (s.lenView c)).1 :=
  congrArg Prod.fst (lenClock_view c s)

theorem envClock_sweepClock (s : State) : envClock (sweepClock s) = sweepClock (envClock s) := by
  refine State.ext_values ?_ (by simp) (by simp) (by simp) ?_ ?_ ?_ ?_ (by simp) (by simp) (by simp) (by simp) (by simp)
  · intro r
    by_cases hr : ∀ c : EnvChannel, r ≠ c.nrc2
    · rw [envClock_nr _ hr, sweepClock_nr, sweepClock_nr, envClock_sweepView, envClock_nr _ hr,
        envClock_nr _ (r := .nr14) (by intro c; cases c <;> decide),
        envClock_nr _ (r := .nr10) (by intro c; cases c <;> decide)]
    · obtain ⟨c, rfl⟩ := not_forall_not.mp hr
      rw [envClock_nrc2, sweepClock_envView, sweepClock_nr, envClock_nrc2]
      cases c <;> rfl
  · intro c
    rw [envClock_envCd_get, sweepClock_envView, sweepClock_envCd, envClock_envCd_get]
  all_goals
    have h := (sweepClock_view s).trans (congrArg (sweepNext (s.nr .nr10)) (envClock_sweepView s).symm)
    rw [← envClock_nr s (r := .nr10) (by intro c; cases c <;> decide), ← sweepClock_view] at h
  · rw [envClock_swpCd]; exact congrArg SweepView.cd h
  · rw [envClock_shadow]; exact congrArg SweepView.shadow h
  · rw [envClock_swpEn]; exact congrArg SweepView.en h

theorem envClock_lenClock (s : State) : envClock (lenClock s) = lenClock (envClock s) := by
  refine State.ext_values ?_ (by simp) (by simp) (by simp) ?_ (by simp) (by simp) (by simp) ?_ (by simp) (by simp)
    (by simp) (by simp)
  · intro r
    by_cases hr : ∀ c : EnvChannel, r ≠ c.nrc2
    · rw [envClock_nr _ hr]
      by_cases hl : ∀ c : Channel, r ≠ c.nrc4
      · rw [lenClock_nr _ hl, lenClock_nr _ hl, envClock_nr _ hr]
      · obtain ⟨c, rfl⟩ := not_forall_not.mp hl
        rw [lenClock_nrc4, lenClock_nrc4, envClock_lenView, envClock_nr _ hr]
    · obtain ⟨c, rfl⟩ := not_forall_not.mp hr
      rw [envClock_nrc2, lenClock_envView, lenClock_nr _ (by intro k; cases c <;> cases k <;> decide), envClock_nrc2]
  · intro c
    rw [envClock_envCd_get, lenClock_envView, lenClock_envCd, envClock_envCd_get]
  · intro c
    rw [envClock_len, lenClock_len_get, lenClock_len_get, envClock_lenView]

/-- Bit 6 and bits 2:0 of a byte are replaced independently. -/
theorem Byte.setBit_six_setField_low (v : Byte) (b : Bool) (x : BitVec 3) :
    (v.setField 0 x).setBit 6 b = (v.setBit 6 b).setField 0 x := by
  apply Byte.ext_bits
  intro i hi
  simp only [Byte.getLsbD_setBit _ _ _ _ hi, Byte.getLsbD_setField _ _ _ _ hi]
  by_cases h1 : i = 6
  · subst h1; simp
  · simp [h1]

theorem sweepClock_lenClock (s : State) : sweepClock (lenClock s) = lenClock (sweepClock s) := by
  have h10 : (lenClock s).nr .nr10 = s.nr .nr10 := lenClock_nr s (by intro c; cases c <;> decide)
  refine State.ext_values ?_ (by simp) (by simp) (by simp) (by simp) ?_ ?_ ?_ ?_ (by simp) (by simp) (by simp) (by simp)
  · intro r
    by_cases hl : ∀ c : Channel, r ≠ c.nrc4
    · have h14 : r ≠ .nr14 := hl .ch1
      rw [lenClock_nr _ hl, sweepClock_nr, sweepClock_nr, lenClock_sweepView, h10, lenClock_nr _ hl]
      simp [h14]
    · obtain ⟨c, rfl⟩ := not_forall_not.mp hl
      rw [lenClock_nrc4, sweepClock_lenView, sweepClock_nr, sweepClock_nr, lenClock_sweepView, h10, lenClock_nrc4]
      cases c with
      | ch1 =>
        have hs : (lenClock s).nr .nr14 = (s.nr .nr14).setBit 6 (lenNext (s.lenView .ch1)).2 := lenClock_nrc4 .ch1 s
        simp only [Channel.nrc4, if_true, hs]
        exact (Byte.setBit_six_setField_low _ _ _).symm
      | ch2 => rfl
      | ch3 => rfl
      | ch4 => rfl
  all_goals try
    have h := (sweepClock_view s).trans (congrArg (sweepNext (s.nr .nr10)) (lenClock_sweepView s).symm)
    rw [← h10, ← sweepClock_view] at h
  · rw [lenClock_swpCd]; exact (congrArg SweepView.cd h).symm
  · rw [lenClock_shadow]; exact (congrArg SweepView.shadow h).symm
  · rw [lenClock_swpEn]; exact (congrArg SweepView.en h).symm
  · intro c
    rw [sweepClock_len, lenClock_len_get, lenClock_len_get, sweepClock_lenView]

/-- Different state machines commute: they read and write disjoint values (40_tick_scheduler.md R93). -/
theorem clock_comm (x y : SubTimer) : Function.Commute (SubTimer.clock x) (SubTimer.clock y) := by
  intro s
  cases x <;> cases y <;> simp only [SubTimer.clock] <;>
    simp only [envClock_fsClock, sweepClock_fsClock, lenClock_fsClock, envClock_sweepClock, envClock_lenClock,
      sweepClock_lenClock]

/-- Firings of two sub-timers commute. -/
theorem fire_comm (cfg : Config) (x y : SubTimer) (s : State) : fire cfg x (fire cfg y s) = fire cfg y (fire cfg x s) := by
  by_cases hxy : x = y
  · rw [hxy]
  · have hyx : ¬ y = x := fun h => hxy h.symm
    simp only [fire]
    by_cases hy : cfg.period y ≤ s.acc.get y <;> by_cases hx : cfg.period x ≤ s.acc.get x <;>
      simp only [hy, hx, if_true, if_false, State.setAcc_acc, iterate_clock_acc, AccBank.get_set, hxy, hyx,
        iterate_clock_setAcc]
    rw [State.setAcc, State.setAcc, State.setAcc, State.setAcc]
    simp only [iterate_clock_acc]
    rw [AccBank.set_comm _ _ _ hyx, ((clock_comm x y).iterate_iterate _ _).eq s]

/-- A value no state machine and no accumulator update changes. -/
theorem tick_const {α : Type} (cfg : Config) (φ : State → α) (hclock : ∀ x s, φ (SubTimer.clock x s) = φ s)
    (hacc : ∀ (s : State) (a : AccBank), φ { s with acc := a } = φ s) (n : Nat) (s : State) :
    φ (tick cfg n s) = φ s := by
  have hiter : ∀ x k s, φ ((SubTimer.clock x)^[k] s) = φ s := by
    intro x k
    induction k with
    | zero => intro s; rfl
    | succ k ih => intro s; rw [Function.iterate_succ_apply, ih, hclock]
  have hfire : ∀ x s, φ (fire cfg x s) = φ s := by
    intro x s
    simp only [fire]
    split
    · rw [State.setAcc, hacc, hiter]
    · rfl
  simp only [tick, fireAll, fireOrder, List.foldl, hfire]
  exact hacc s _

/-- A firing leaves the other accumulators alone. -/
theorem fire_acc_ne (cfg : Config) {x y : SubTimer} (h : y ≠ x) (s : State) :
    (fire cfg x s).acc.get y = s.acc.get y := by
  simp only [fire]
  split
  · simp [AccBank.get_set, h]
  · rfl

theorem fire_acc_self (cfg : Config) (x : SubTimer) (s : State) :
    (fire cfg x s).acc.get x = s.acc.get x % cfg.period x := by
  simp only [fire]
  split
  · simp [AccBank.get_set]
  · next h => exact (Nat.mod_eq_of_lt (Nat.not_le.mp h)).symm

theorem accumulate_get (n : Nat) (s : State) (x : SubTimer) : (accumulate n s).acc.get x = s.acc.get x + n := by
  cases x <;> rfl

/-- Every accumulator after `TICK n` (40_tick_scheduler.md R92, R95). -/
theorem tick_acc (cfg : Config) (n : Nat) (s : State) (x : SubTimer) :
    (tick cfg n s).acc.get x = (s.acc.get x + n) % cfg.period x := by
  simp only [tick, fireAll, fireOrder, List.foldl]
  cases x <;> simp [fire_acc_ne, fire_acc_self, accumulate_get, -State.accumulate_acc]

/-- A view that one machine updates by `g` and nothing else changes: what `TICK n` does to it. -/
theorem tick_view {α : Type} (cfg : Config) (φ : State → α) (x : SubTimer) (g : α → α)
    (hclock : ∀ s, φ (SubTimer.clock x s) = g (φ s)) (hother : ∀ y, y ≠ x → ∀ s, φ (SubTimer.clock y s) = φ s)
    (hacc : ∀ (s : State) (a : AccBank), φ { s with acc := a } = φ s) (n : Nat) (s : State) :
    φ (tick cfg n s) =
      if cfg.period x ≤ s.acc.get x + n then g^[clockCount cfg (s.acc.get x + n) (cfg.period x)] (φ s) else φ s := by
  have hiter : ∀ k s, φ ((SubTimer.clock x)^[k] s) = g^[k] (φ s) := by
    intro k
    induction k with
    | zero => intro s; rfl
    | succ k ih => intro s; rw [Function.iterate_succ_apply, ih, hclock, Function.iterate_succ_apply]
  have hiterOther : ∀ y, y ≠ x → ∀ k s, φ ((SubTimer.clock y)^[k] s) = φ s := by
    intro y hy k
    induction k with
    | zero => intro s; rfl
    | succ k ih => intro s; rw [Function.iterate_succ_apply, ih, hother y hy]
  have hfireOther : ∀ y, y ≠ x → ∀ s, φ (fire cfg y s) = φ s := by
    intro y hy s
    simp only [fire]
    split
    · rw [State.setAcc, hacc, hiterOther y hy]
    · rfl
  have hfire : ∀ s, φ (fire cfg x s) =
      if cfg.period x ≤ s.acc.get x then g^[clockCount cfg (s.acc.get x) (cfg.period x)] (φ s) else φ s := by
    intro s
    simp only [fire]
    split
    · rw [State.setAcc, hacc, hiter]
    · rfl
  have haccum : φ (accumulate n s) = φ s := hacc s _
  simp only [tick, fireAll, fireOrder, List.foldl]
  cases x <;> simp [hfire, hfireOther, fire_acc_ne, accumulate_get, haccum, -State.accumulate_acc]

/-- This hardware clocks a firing machine once (40_tick_scheduler.md R94). -/
@[simp] theorem clockCount_hardware (a p : Nat) : clockCount Config.hardware a p = 1 := rfl

theorem hardware_period_fs : Config.hardware.period .fs = 8192 := rfl
theorem hardware_period_env : Config.hardware.period .env = 65536 := rfl
theorem hardware_period_swp : Config.hardware.period .swp = 32768 := rfl
theorem hardware_period_len : Config.hardware.period .len = 16384 := rfl

/-- Every period is positive (00_scope.md R6). -/
theorem Config.period_pos (cfg : Config) (x : SubTimer) : 0 < cfg.period x := by
  cases x
  · exact cfg.pFs_pos
  · exact cfg.pEnv_pos
  · exact cfg.pSwp_pos
  · exact cfg.pLen_pos

/-! ## The views of one `TICK` -/

/-- `fs_step` after `TICK n`. -/
theorem tick_fsStep (cfg : Config) (n : Nat) (s : State) :
    (tick cfg n s).fsStep =
      if cfg.period .fs ≤ s.acc.fs + n then (· + 1)^[clockCount cfg (s.acc.fs + n) (cfg.period .fs)] s.fsStep
      else s.fsStep :=
  tick_view cfg (fun s => s.fsStep) .fs (· + 1) (fun _ => rfl)
    (fun y hy s => by cases y <;> simp_all [SubTimer.clock]) (fun _ _ => rfl) n s

/-- What envelope `c` owns after `TICK n`. -/
theorem tick_envView (cfg : Config) (c : EnvChannel) (n : Nat) (s : State) :
    (tick cfg n s).envView c =
      if cfg.period .env ≤ s.acc.env + n then envNext^[clockCount cfg (s.acc.env + n) (cfg.period .env)] (s.envView c)
      else s.envView c :=
  tick_view cfg (fun s => s.envView c) .env envNext (fun s => envClock_view c s)
    (fun y hy s => by
      cases y with
      | fs => rfl
      | env => exact absurd rfl hy
      | swp => exact sweepClock_envView c s
      | len => exact lenClock_envView c s) (fun _ _ => rfl) n s

/-- What the length counter of `c` owns after `TICK n`. -/
theorem tick_lenView (cfg : Config) (c : Channel) (n : Nat) (s : State) :
    (tick cfg n s).lenView c =
      if cfg.period .len ≤ s.acc.len + n then lenNext^[clockCount cfg (s.acc.len + n) (cfg.period .len)] (s.lenView c)
      else s.lenView c :=
  tick_view cfg (fun s => s.lenView c) .len lenNext (fun s => lenClock_view c s)
    (fun y hy s => by
      cases y with
      | fs => rfl
      | env => exact envClock_lenView c s
      | swp => exact sweepClock_lenView c s
      | len => exact absurd rfl hy) (fun _ _ => rfl) n s

/-- NR10 and the sweep's values together: NR10 is read, never written. -/
def State.sweepWithNr10 (s : State) : Byte × SweepView := (s.nr .nr10, s.sweepView)

/-- NR10 and the sweep's values after `TICK n`. -/
theorem tick_sweepView (cfg : Config) (n : Nat) (s : State) :
    (tick cfg n s).sweepWithNr10 =
      if cfg.period .swp ≤ s.acc.swp + n then
        (fun v => (v.1, sweepNext v.1 v.2))^[clockCount cfg (s.acc.swp + n) (cfg.period .swp)] s.sweepWithNr10
      else s.sweepWithNr10 :=
  tick_view cfg State.sweepWithNr10 .swp (fun v => (v.1, sweepNext v.1 v.2))
    (fun s => by
      simp only [State.sweepWithNr10, SubTimer.clock, sweepClock_view, sweepClock_nr]
      rfl)
    (fun y hy s => by
      cases y with
      | fs => rfl
      | env =>
        simp only [State.sweepWithNr10, SubTimer.clock, envClock_sweepView]
        rw [envClock_nr s (r := .nr10) (by intro c; cases c <;> decide)]
      | swp => exact absurd rfl hy
      | len =>
        simp only [State.sweepWithNr10, SubTimer.clock, lenClock_sweepView]
        rw [lenClock_nr s (r := .nr10) (by intro c; cases c <;> decide)])
    (fun _ _ => rfl) n s

/-- A register no state machine writes, after `TICK n` (10_state.md R12). -/
theorem tick_nr (cfg : Config) (n : Nat) (s : State) {r : Reg} (h2 : ∀ c : EnvChannel, r ≠ c.nrc2)
    (h4 : ∀ c : Channel, r ≠ c.nrc4) (h13 : r ≠ .nr13) : (tick cfg n s).nr r = s.nr r :=
  tick_const cfg (fun s => s.nr r)
    (fun x s => by
      cases x with
      | fs => rfl
      | env => exact envClock_nr s h2
      | swp =>
        have h14 : r ≠ .nr14 := h4 .ch1
        simp only [SubTimer.clock, sweepClock_nr, h14, h13, if_false]
      | len => exact lenClock_nr s h4) (fun _ _ => rfl) n s

/-- Bits 5:3 and bit 7 of a restart register after `TICK n`. -/
theorem tick_nrc4_keeps (cfg : Config) (n : Nat) (s : State) (c : Channel) :
    ((tick cfg n s).nr c.nrc4).field 3 3 = (s.nr c.nrc4).field 3 3 ∧
      ((tick cfg n s).nr c.nrc4).bit 7 = (s.nr c.nrc4).bit 7 := by
  have hne : ∀ e : EnvChannel, c.nrc4 ≠ e.nrc2 := by cases c <;> intro e <;> cases e <;> decide
  constructor
  · refine tick_const cfg (fun s => (s.nr c.nrc4).field 3 3) (fun x s => ?_) (fun _ _ => rfl) n s
    cases x with
    | fs => rfl
    | env => simp only [SubTimer.clock, envClock_nr s hne]
    | swp =>
      simp only [SubTimer.clock, sweepClock_nr]
      cases c <;> simp [Channel.nrc4, Byte.field_setField_disjoint]
    | len => exact lenClock_field s _ _ _ (by omega)
  · refine tick_const cfg (fun s => (s.nr c.nrc4).bit 7) (fun x s => ?_) (fun _ _ => rfl) n s
    cases x with
    | fs => rfl
    | env => simp only [SubTimer.clock, envClock_nr s hne]
    | swp =>
      simp only [SubTimer.clock, sweepClock_nr]
      cases c <;> simp [Channel.nrc4, Byte.bit_setField_outside]
    | len => simp only [SubTimer.clock, lenClock_nrc4, Byte.bit_setBit]; rfl

/-- Bits 2:0 of a restart register after `TICK n`: only channel 1's are the sweep's. -/
theorem tick_nrc4_low (cfg : Config) (n : Nat) (s : State) (c : Channel) (hc : c ≠ .ch1) :
    ((tick cfg n s).nr c.nrc4).field 0 3 = (s.nr c.nrc4).field 0 3 := by
  have hne : ∀ e : EnvChannel, c.nrc4 ≠ e.nrc2 := by cases c <;> intro e <;> cases e <;> decide
  have h14 : c.nrc4 ≠ .nr14 := by revert hc; cases c <;> decide
  have h13 : c.nrc4 ≠ .nr13 := by cases c <;> decide
  refine tick_const cfg (fun s => (s.nr c.nrc4).field 0 3) (fun x s => ?_) (fun _ _ => rfl) n s
  cases x with
  | fs => rfl
  | env => simp only [SubTimer.clock, envClock_nr s hne]
  | swp => simp only [SubTimer.clock, sweepClock_nr, h14, h13, if_false]
  | len => exact lenClock_field s _ _ _ (by omega)

/-- The low nibble of an envelope register after `TICK n` (42_envelope.md R151). -/
theorem tick_nrc2_low (cfg : Config) (n : Nat) (s : State) (c : EnvChannel) :
    ((tick cfg n s).nr c.nrc2).field 0 4 = (s.nr c.nrc2).field 0 4 := by
  have h4 : ∀ k : Channel, c.nrc2 ≠ k.nrc4 := by intro k; cases c <;> cases k <;> decide
  have h14 : c.nrc2 ≠ .nr14 := by cases c <;> decide
  have h13 : c.nrc2 ≠ .nr13 := by cases c <;> decide
  refine tick_const cfg (fun s => (s.nr c.nrc2).field 0 4) (fun x s => ?_) (fun _ _ => rfl) n s
  cases x with
  | fs => rfl
  | env => simp only [SubTimer.clock, envClock_nrc2]; exact envNext_lowNibble _
  | swp => simp only [SubTimer.clock, sweepClock_nr, h14, h13, if_false]
  | len => simp only [SubTimer.clock, lenClock_nr s h4]

@[simp] theorem tick_aram (cfg : Config) (n : Nat) (s : State) : (tick cfg n s).aram = s.aram :=
  tick_const cfg (fun s => s.aram) (fun x s => by cases x <;> simp [SubTimer.clock]) (fun _ _ => rfl) n s

@[simp] theorem tick_fault (cfg : Config) (n : Nat) (s : State) : (tick cfg n s).fault = s.fault :=
  tick_const cfg (fun s => s.fault) (fun x s => by cases x <;> simp [SubTimer.clock]) (fun _ _ => rfl) n s

@[simp] theorem tick_rsp (cfg : Config) (n : Nat) (s : State) : (tick cfg n s).rsp = s.rsp :=
  tick_const cfg (fun s => s.rsp) (fun x s => by cases x <;> simp [SubTimer.clock]) (fun _ _ => rfl) n s

@[simp] theorem tick_port (cfg : Config) (n : Nat) (s : State) : (tick cfg n s).port = s.port :=
  tick_const cfg (fun s => s.port) (fun x s => by cases x <;> simp [SubTimer.clock]) (fun _ _ => rfl) n s

@[simp] theorem tick_draws (cfg : Config) (n : Nat) (s : State) : (tick cfg n s).draws = s.draws :=
  tick_const cfg (fun s => s.draws) (fun x s => by cases x <;> simp [SubTimer.clock]) (fun _ _ => rfl) n s

/-! ## A change of the state the machines do not notice -/

/-- `TICK` commutes with any change of the state that no machine notices. -/
theorem tick_comm (cfg : Config) (f : State → State) (hclock : ∀ x s, SubTimer.clock x (f s) = f (SubTimer.clock x s))
    (hset : ∀ (s : State) (a : AccBank), f { s with acc := a } = { f s with acc := a }) (hget : ∀ s, (f s).acc = s.acc)
    (n : Nat) (s : State) : tick cfg n (f s) = f (tick cfg n s) := by
  have hfire : ∀ x s, fire cfg x (f s) = f (fire cfg x s) := by
    intro x s
    simp only [fire, hget]
    split
    · have hiter := (show Function.Semiconj f (SubTimer.clock x) (SubTimer.clock x) from
        fun u => (hclock x u).symm).iterate_right (clockCount cfg (s.acc.get x) (cfg.period x)) s
      rw [← hiter, State.setAcc, hget]
      exact (hset _ _).symm
    · rfl
  have haccum : accumulate n (f s) = f (accumulate n s) := by
    simp only [accumulate, hget]
    exact (hset s _).symm
  simp only [tick, fireAll, fireOrder, List.foldl, haccum, hfire]

/-- No machine reads or writes the port. -/
theorem tick_withPort (cfg : Config) (n : Nat) (s : State) (p : List PortSample) :
    tick cfg n { s with port := p } = { tick cfg n s with port := p } := by
  refine tick_comm cfg (fun s => { s with port := p }) (fun x s => ?_) (fun _ _ => rfl) (fun _ => rfl) n s
  cases x with
  | fs => rfl
  | env => simp only [SubTimer.clock, envClock, envStep_eq]; rfl
  | swp => simp only [SubTimer.clock, sweepClock_eq]; rfl
  | len => simp only [SubTimer.clock, lenClock, lenStep_eq]; rfl

end Sys2Proof.Machine
end

