-- ==== Sys2Proof/Laws/Exec.lean ====
section
/-! SUPPORT. What each family of commands does, said once: performing a command, register writes and reads, the trigger,
Audio RAM. -/

namespace Sys2Proof.Machine

/-! ## Performing a command -/

/-- A command on a block that has not faulted is performed. -/
theorem State.perform_ok {s : State} (h : s.fault = false) (effect : State → State) :
    s.perform effect = .next (effect s) := by simp [State.perform, h]

/-- A command on a faulted block stops (60_exceptions.md R213). -/
theorem State.perform_faulted {s : State} (h : s.fault = true) (effect : State → State) :
    s.perform effect = .fault .faultedBlock := by simp [State.perform, h]

/-- A performed command: the block had not faulted, and the next state is the command's effect. -/
theorem State.perform_next {s t : State} {effect : State → State} :
    s.perform effect = .next t ↔ s.fault = false ∧ t = effect s := by
  unfold State.perform
  split
  · next h => simp [h]
  · next h => simp [Bool.eq_false_of_not_eq_true h, eq_comm]

/-! ## One equation per family -/

/-- What a `WR` to register `r` does to the state (41_register_dispatch.md R116 to R136). -/
def writeEffect (r : Reg) (b : Byte) (s : State) : State :=
  match r with
  | .nr11 => lengthWrite .ch1 b s
  | .nr21 => lengthWrite .ch2 b s
  | .nr31 => lengthWrite .ch3 b s
  | .nr41 => lengthWrite .ch4 b s
  | .nr14 => restartWrite .ch1 b s
  | .nr24 => restartWrite .ch2 b s
  | .nr34 => restartWrite .ch3 b s
  | .nr44 => restartWrite .ch4 b s
  | .nr10 | .nr12 | .nr13 | .nr22 | .nr23 | .nr30 | .nr32 | .nr33 | .nr42 | .nr43 | .nr50 | .nr51 | .nr52 =>
    overwrite r b s

theorem exec_write (r : Reg) (b : Byte) (s : State) :
    exec (.write r b) s = s.perform fun s => (writeEffect r b s).silent := by
  cases r <;> rfl

/-- A write to a restart register (R120, R124, R129, R133). -/
theorem exec_restartWrite (c : Channel) (b : Byte) (s : State) :
    exec (.write c.nrc4 b) s = s.perform fun s => (restartWrite c b s).silent := by
  cases c <;> rfl

/-- A write to a length register (R117, R121, R126, R130). -/
theorem exec_lengthWrite (c : Channel) (b : Byte) (s : State) :
    exec (.write c.nrc1 b) s = s.perform fun s => (lengthWrite c b s).silent := by
  cases c <;> rfl

/-- A register whose write only stores: neither `NRc1` nor `NRc4` of any channel. -/
theorem writeEffect_plain {r : Reg} (h1 : ∀ c : Channel, r ≠ c.nrc1) (h4 : ∀ c : Channel, r ≠ c.nrc4) (b : Byte)
    (s : State) : writeEffect r b s = overwrite r b s := by
  cases r <;> first
    | rfl
    | exact absurd rfl (h1 .ch1) | exact absurd rfl (h1 .ch2) | exact absurd rfl (h1 .ch3) | exact absurd rfl (h1 .ch4)
    | exact absurd rfl (h4 .ch1) | exact absurd rfl (h4 .ch2) | exact absurd rfl (h4 .ch3) | exact absurd rfl (h4 .ch4)

theorem exec_read (r : Reg) (s : State) : exec (.read r) s = s.perform (readRegister r) := by
  cases r <;> rfl

theorem exec_tick (n : Cycles) (s : State) :
    exec (.tick n) s = s.perform fun s => (tick Config.hardware n.toNat s).silent := rfl

theorem exec_wrUnmapped (a : Addr) (b : Byte) (s : State) : exec (.wrUnmapped a b) s = s.perform State.silent := rfl

theorem exec_rdUnmapped (a : Addr) (s : State) : exec (.rdUnmapped a) s = s.perform State.answerFree := rfl

theorem exec_ramwr (a : Addr) (b : Byte) (s : State) :
    exec (.ramwr a b) s = s.perform (aramWrite Config.hardware a b) := rfl

theorem exec_ramrd (a : Addr) (s : State) : exec (.ramrd a) s = s.perform (aramRead Config.hardware a) := rfl

/-- Every command is performed as one effect on the whole state (20_memory.md R44). -/
theorem exec_performs (i : Instr) : ∃ effect : State → State, ∀ s, exec i s = s.perform effect :=
  Instr.family_cases (P := fun i => ∃ effect : State → State, ∀ s, exec i s = s.perform effect)
    (fun r b => ⟨_, exec_write r b⟩) (fun r => ⟨_, exec_read r⟩) (fun n => ⟨_, exec_tick n⟩)
    (fun a b => ⟨_, exec_wrUnmapped a b⟩) (fun a => ⟨_, exec_rdUnmapped a⟩) (fun a b => ⟨_, exec_ramwr a b⟩)
    (fun a => ⟨_, exec_ramrd a⟩) i

/-- On a block that has not faulted every command is performed. -/
theorem exec_completes (i : Instr) {s : State} (h : s.fault = false) : ∃ t, exec i s = .next t := by
  obtain ⟨effect, he⟩ := exec_performs i
  exact ⟨effect s, by rw [he, State.perform_ok h]⟩

/-- A faulted block performs no command. -/
theorem exec_faulted (i : Instr) {s : State} (h : s.fault = true) : exec i s = .fault .faultedBlock := by
  obtain ⟨effect, he⟩ := exec_performs i
  rw [he, State.perform_faulted h]

/-- Only a block that has not faulted performs a command. -/
theorem exec_next_fault {i : Instr} {s t : State} (h : exec i s = .next t) : s.fault = false := by
  obtain ⟨effect, he⟩ := exec_performs i
  rw [he, State.perform_next] at h
  exact h.1

/-- No command answers a refusal. -/
theorem exec_not_refused (i : Instr) (s : State) (r : Refusal) : exec i s ≠ .refused r := by
  obtain ⟨effect, he⟩ := exec_performs i
  rw [he, State.perform]
  split <;> simp

/-! ## The trigger (45_trigger.md) -/

/-- The fields no trigger step touches, and the sweep's values, which only channel 1 reloads (R191 to R193). -/
theorem triggerEnv_eq (c : Channel) (s : State) :
    ∃ e : EnvBank, triggerEnv c s = { s with envCd := e } ∧
      ∀ x, e.get x = if c.envelope? = some x then envPeriod (s.nr x.nrc2) else s.envCd.get x := by
  cases c with
  | ch1 => exact ⟨s.envCd.set .ch1 _, rfl, fun x => by cases x <;> rfl⟩
  | ch2 => exact ⟨s.envCd.set .ch2 _, rfl, fun x => by cases x <;> rfl⟩
  | ch3 => exact ⟨s.envCd, rfl, fun x => by cases x <;> rfl⟩
  | ch4 => exact ⟨s.envCd.set .ch4 _, rfl, fun x => by cases x <;> rfl⟩

/-- The length step of a trigger: bit 6 set, an exhausted counter reloaded (R192). -/
theorem triggerLen_eq (c : Channel) (s : State) :
    ∃ l : LenBank, triggerLen c s = { s.setNr c.nrc4 ((s.nr c.nrc4).setBit 6 true) with len := l } ∧
      ∀ x, l.get x = if x = c ∧ s.len.get c = 0 then lengthMax c else s.len.get x := by
  unfold triggerLen
  simp only [State.setLenEnable_len]
  by_cases h : s.len.get c = 0
  · simp only [h, if_true]
    refine ⟨s.len.set c (lengthMax c), rfl, fun x => ?_⟩
    by_cases hx : x = c
    · subst hx; simp [LenBank.get_set_same _ _ _ (lengthMax_le x)]
    · simp [hx, LenBank.get_set_ne _ _ hx]
  · simp only [h, if_false, and_false]
    exact ⟨s.len, rfl, fun _ => rfl⟩

/-- A trigger replaces one register, one countdown, one length counter and, for channel 1, the sweep's hidden state. -/
structure TriggerSpec (c : Channel) (s t : State) : Prop where
  /-- only bit 6 of the restart register is set -/
  nr : ∀ r, t.nr r = if r = c.nrc4 then (s.nr c.nrc4).setBit 6 true else s.nr r
  envCd : ∀ x, t.envCd.get x = if c.envelope? = some x then envPeriod (s.nr x.nrc2) else s.envCd.get x
  len : ∀ x, t.len.get x = if x = c ∧ s.len.get c = 0 then lengthMax c else s.len.get x
  swpCd : t.swpCd = if c = .ch1 then sweepReload s.sweepPeriod else s.swpCd
  shadow : t.shadow = if c = .ch1 then s.liveFrequency else s.shadow
  swpEn : t.swpEn =
    if c = .ch1 then
      sweepEnabled s.sweepPeriod s.sweepShift &&
        !sweepOverflow (sweepCalc s.liveFrequency.toNat s.sweepShift.toNat s.sweepNeg)
    else s.swpEn
  acc : t.acc = s.acc
  fsStep : t.fsStep = s.fsStep
  aram : t.aram = s.aram
  fault : t.fault = s.fault
  rsp : t.rsp = s.rsp
  port : t.port = s.port
  draws : t.draws = s.draws

/-- Everything `TRIGGER(c)` does (R190 to R195). -/
theorem trigger_spec (c : Channel) (s : State) : TriggerSpec c s (trigger c s) := by
  obtain ⟨e, he, hx⟩ := triggerEnv_eq c s
  obtain ⟨l, hl, hy⟩ := triggerLen_eq c { s with envCd := e }
  have hlive : ((s.nr .nr14).setBit 6 true).field 0 3 ++ s.nr .nr13 = s.liveFrequency :=
    congrArg (fun x : BitVec 3 => x ++ s.nr .nr13) (Byte.field_setBit_six (s.nr .nr14) 0 3 true (by omega))
  have hnr : ∀ r, ({ (({ s with envCd := e } : State).setNr c.nrc4
      ((({ s with envCd := e } : State).nr c.nrc4).setBit 6 true)) with len := l } : State).nr r =
        if r = c.nrc4 then (s.nr c.nrc4).setBit 6 true else s.nr r := fun r =>
    RegBank.get_set s.regs c.nrc4 r _
  unfold trigger
  rw [he, hl]
  cases c with
  | ch1 =>
    simp only [triggerSweep, State.checkOverflow_eq]
    constructor
    case nr => exact hnr
    case envCd => exact hx
    case len => exact hy
    all_goals try rfl
    · exact hlive
    · exact congrArg (fun x : BitVec 11 => sweepEnabled s.sweepPeriod s.sweepShift &&
        !sweepOverflow (sweepCalc x.toNat s.sweepShift.toNat s.sweepNeg)) hlive
  | ch2 => exact ⟨hnr, hx, hy, rfl, rfl, rfl, rfl, rfl, rfl, rfl, rfl, rfl, rfl⟩
  | ch3 => exact ⟨hnr, hx, hy, rfl, rfl, rfl, rfl, rfl, rfl, rfl, rfl, rfl, rfl⟩
  | ch4 => exact ⟨hnr, hx, hy, rfl, rfl, rfl, rfl, rfl, rfl, rfl, rfl, rfl, rfl⟩

/-- A write to a restart register with a 0 to 1 transition of bit 7 (41_register_dispatch.md R112). -/
theorem restartWrite_edge {c : Channel} {b : Byte} {s : State} (h0 : (s.nr c.nrc4).bit 7 = false) (h1 : b.bit 7 = true) :
    restartWrite c b s = trigger c (overwrite c.nrc4 b s) := by
  simp [restartWrite, restartEdge, restartBit, h0, h1]

/-- A write to a restart register without one. -/
theorem restartWrite_plain {c : Channel} {b : Byte} {s : State} (h : (s.nr c.nrc4).bit 7 = true ∨ b.bit 7 = false) :
    restartWrite c b s = overwrite c.nrc4 b s := by
  rcases h with h | h <;> simp [restartWrite, restartEdge, restartBit, h]

/-- The registers after a restart write: the register written, bit 6 set on an edge (R112, R192). -/
theorem restartWrite_nr (c : Channel) (b : Byte) (s : State) (r : Reg) :
    (restartWrite c b s).nr r =
      if r = c.nrc4 then (if restartEdge (s.nr c.nrc4) b then b.setBit 6 true else b) else s.nr r := by
  unfold restartWrite
  split
  · rw [(trigger_spec c _).nr, overwrite, State.nr_setNr_same]
    split
    · rfl
    · next h => rw [State.nr_setNr_ne _ _ h]
  · rw [overwrite, State.nr_setNr]

/-! ## Length register writes (44_length.md R183) -/

theorem lengthWrite_len (c x : Channel) (b : Byte) (s : State) :
    (lengthWrite c b s).len.get x = if x = c then lengthField c b else s.len.get x := by
  simp only [lengthWrite, State.setLen_len, overwrite, State.setNr_len]
  split
  · next h => subst h; exact LenBank.get_set_same _ _ _ (lengthField_le _ _)
  · next h => exact LenBank.get_set_ne _ _ h

theorem lengthWrite_nr (c : Channel) (b : Byte) (s : State) (r : Reg) :
    (lengthWrite c b s).nr r = if r = c.nrc1 then b else s.nr r := by
  simp only [lengthWrite, State.nr_setLen, overwrite, State.nr_setNr]

/-! ## Audio RAM -/

theorem aramRead_some {cfg : Config} {a : Addr} {o : Nat} (h : aramIndex? cfg a = some o) (s : State) :
    aramRead cfg a s = s.answer (s.aram.read o) := by simp [aramRead, h]

theorem aramRead_none {cfg : Config} {a : Addr} (h : aramIndex? cfg a = none) (s : State) :
    aramRead cfg a s = s.raiseAudioRamBounds a .read := by simp [aramRead, h]

theorem aramWrite_some {cfg : Config} {a : Addr} {o : Nat} (h : aramIndex? cfg a = some o) (b : Byte) (s : State) :
    aramWrite cfg a b s = ({ s with aram := s.aram.write o b } : State).silent := by simp [aramWrite, h]

theorem aramWrite_none {cfg : Config} {a : Addr} (h : aramIndex? cfg a = none) (b : Byte) (s : State) :
    aramWrite cfg a b s = s.raiseAudioRamBounds a .write := by simp [aramWrite, h]

/-- In range on this hardware: 0xFF30 to 0xFF3E (46_audio_ram.md R203). -/
theorem aramIndex?_hardware (a : Addr) :
    aramIndex? Config.hardware a = if 0xFF30 ≤ a.toNat ∧ a.toNat ≤ 0xFF3E then some (a.toNat - 0xFF30) else none := by
  rw [aramIndex?_eq]
  rfl

end Sys2Proof.Machine
end

