-- ==== Sys2Proof/Laws/Step.lean ====
section
/-! SUPPORT. What one step does with each kind of port sample, runs of several steps, and what keeps the invariant. -/

namespace Sys2Proof.Machine

/-! ## One step -/

/-- A presented command that decodes is performed. -/
theorem step_command {s : State} {c : Command} {later : List PortSample} {i : Instr}
    (hp : s.port = PortSample.ofCommand c :: later) (hd : decode c = .ok i) : step s = exec i { s with port := later } := by
  simp [step, State.fetch, hp, PortSample.request, PortSample.ofCommand, serve, hd]

/-- A presented record of a reserved kind is refused. -/
theorem step_reserved {s : State} {c : Command} {later : List PortSample} {k : Kind}
    (hp : s.port = PortSample.ofCommand c :: later) (hd : decode c = .error (.reservedCommand k)) :
    step s = .refused (.reservedCommand k) := by
  simp [step, State.fetch, hp, PortSample.request, PortSample.ofCommand, serve, hd]

/-- A sample without `cmd_valid`. -/
theorem step_idle {s : State} {c : Command} {later : List PortSample} (hp : s.port = ⟨false, false, c⟩ :: later) :
    step s = .next ({ s with port := later } : State).silent := by
  simp [step, State.fetch, hp, PortSample.request, serve, State.idle]

/-- Nothing more presented. -/
theorem step_empty {s : State} (hp : s.port = []) : step s = .next s.silent := by
  simp [step, State.fetch, hp, serve, State.idle]

/-- A sample with `rst`. -/
theorem step_reset {s : State} {v : Bool} {c : Command} {later : List PortSample} (hp : s.port = ⟨true, v, c⟩ :: later) :
    step s = .next { State.reset with port := later, draws := s.draws } := by
  simp [step, State.fetch, hp, PortSample.request, serve, State.assertReset]

/-- The reserved kinds are 5, 6 and 7 (30_encoding.md R66). -/
theorem decode_reserved {c : Command} (h : 5 ≤ c.kind.toNat) : decode c = .error (.reservedCommand c.kind) := by
  have hne : ∀ j : Kind, j.toNat < 5 → ¬ c.kind = j := by
    rintro j hj rfl
    exact absurd hj (Nat.not_lt.mpr h)
  unfold decode
  rw [if_neg (hne 0 (by decide)), if_neg (hne 1 (by decide)), if_neg (hne 2 (by decide)), if_neg (hne 3 (by decide)),
    if_neg (hne 4 (by decide))]

/-- The other kinds decode. -/
theorem decode_known {c : Command} (h : c.kind.toNat < 5) : ∃ i, decode c = .ok i := by
  obtain ⟨k, a, b, n⟩ := c
  have hk : k = 0 ∨ k = 1 ∨ k = 2 ∨ k = 3 ∨ k = 4 := by
    have hall : ∀ k : Kind, k.toNat < 5 → k = 0 ∨ k = 1 ∨ k = 2 ∨ k = 3 ∨ k = 4 := by decide
    exact hall k h
  rcases hk with rfl | rfl | rfl | rfl | rfl
  · exact ⟨_, decode_tick a b n⟩
  · cases hr : Reg.ofAddr a with
    | none => exact ⟨_, decode_wrUnmapped hr b n⟩
    | some r =>
      obtain rfl := Reg.ofAddr_eq_some.mp hr
      exact ⟨_, decode_write r b n⟩
  · cases hr : Reg.ofAddr a with
    | none => exact ⟨_, decode_rdUnmapped hr b n⟩
    | some r =>
      obtain rfl := Reg.ofAddr_eq_some.mp hr
      exact ⟨_, decode_read r b n⟩
  · exact ⟨_, decode_ramwr a b n⟩
  · exact ⟨_, decode_ramrd a b n⟩

/-- Everything a step can do, by the sample at the port. -/
theorem step_cases (s : State) :
    (s.port = [] ∧ step s = .next s.silent) ∨
    (∃ c later, s.port = ⟨false, false, c⟩ :: later ∧ step s = .next ({ s with port := later } : State).silent) ∨
    (∃ v c later, s.port = ⟨true, v, c⟩ :: later ∧
      step s = .next { State.reset with port := later, draws := s.draws }) ∨
    (∃ c later i, s.port = PortSample.ofCommand c :: later ∧ decode c = .ok i ∧
      step s = exec i { s with port := later }) ∨
    (∃ c later, s.port = PortSample.ofCommand c :: later ∧ 5 ≤ c.kind.toNat ∧
      step s = .refused (.reservedCommand c.kind)) := by
  match hp : s.port with
  | [] => exact .inl ⟨rfl, step_empty hp⟩
  | ⟨true, v, c⟩ :: later => exact .inr (.inr (.inl ⟨v, c, later, rfl, step_reset hp⟩))
  | ⟨false, false, c⟩ :: later => exact .inr (.inl ⟨c, later, rfl, step_idle hp⟩)
  | ⟨false, true, c⟩ :: later =>
    by_cases hk : c.kind.toNat < 5
    · obtain ⟨i, hi⟩ := decode_known hk
      exact .inr (.inr (.inr (.inl ⟨c, later, i, rfl, hi, step_command hp hi⟩)))
    · exact .inr (.inr (.inr (.inr ⟨c, later, rfl, Nat.not_lt.mp hk,
        step_reserved hp (decode_reserved (Nat.not_lt.mp hk))⟩)))

/-! ## Runs -/

theorem RunsTo.zero (s : State) : RunsTo 0 s s := rfl

/-- A run of `k + 1` steps is one step and a run of `k`. -/
theorem RunsTo.succ_iff {k : Nat} {s t : State} : RunsTo (k + 1) s t ↔ ∃ u, step s = .next u ∧ RunsTo k u t := by
  have hstep : Sys2Proof.core.step = step := rfl
  simp only [RunsTo, Host.Core.run, hstep]
  cases step s <;> simp

/-- The state after a sequence of `TICK` commands. -/
def ticks (ns : List Cycles) (s : State) : State :=
  ns.foldl (fun s n => (tick Config.hardware n.toNat s).silent) s

theorem ticks_fault (ns : List Cycles) (s : State) : (ticks ns s).fault = s.fault := by
  induction ns generalizing s with
  | nil => rfl
  | cons n ns ih => rw [ticks, List.foldl, ← ticks, ih]; simp

/-- A sequence of `TICK` commands at the port runs to its end. -/
theorem runsTo_ticks (ns : List Cycles) (s : State) (hf : s.fault = false) :
    RunsTo ns.length { s with port := tickPort ns } { ticks ns s with port := [] } := by
  induction ns generalizing s with
  | nil => exact RunsTo.zero _
  | cons n ns ih =>
    refine RunsTo.succ_iff.mpr ⟨{ (tick Config.hardware n.toNat s).silent with port := tickPort ns }, ?_, ih _ (by simp [hf])⟩
    rw [step_command (c := encode (.tick n)) (later := tickPort ns) (i := .tick n) rfl (decode_tick _ _ _), exec_tick,
      State.perform_ok (by exact hf), tick_withPort, tick_withPort]
    rfl

/-! ## The clocks of a sequence of `TICK` commands (40_tick_scheduler.md R98) -/

/-- Accumulators and response replaced. -/
def State.withAccRsp (a : AccBank) (r : Response) (s : State) : State := { s with acc := a, rsp := r }

/-- No state machine reads an accumulator or the response. -/
theorem clock_withAccRsp (x : SubTimer) (a : AccBank) (r : Response) :
    Function.Commute (SubTimer.clock x) (State.withAccRsp a r) := by
  intro s
  cases x with
  | fs => rfl
  | env => simp only [SubTimer.clock, envClock, envStep_eq]; rfl
  | swp => simp only [SubTimer.clock, sweepClock_eq]; rfl
  | len => simp only [SubTimer.clock, lenClock, lenStep_eq]; rfl

theorem State.clocked_withAccRsp (k : SubTimer → Nat) (a : AccBank) (r : Response) (s : State) :
    (s.withAccRsp a r).clocked k = (s.clocked k).withAccRsp a r := by
  simp only [State.clocked, ((clock_withAccRsp _ a r).iterate_left _).eq]

theorem State.clocked_zero (s : State) : s.clocked (fun _ => 0) = s := rfl

/-- Clocks add up, in any order (R93). -/
theorem State.clocked_clocked (k l : SubTimer → Nat) (s : State) :
    (s.clocked l).clocked k = s.clocked (fun x => k x + l x) := by
  have hc := fun x y m n u => ((clock_comm x y).iterate_iterate m n).eq u
  simp only [State.clocked, Function.iterate_add_apply]
  rw [hc .fs .len, hc .fs .swp, hc .fs .env, hc .env .len, hc .env .swp, hc .swp .len]

/-- Clocks raised by one `TICK n` on this hardware: one per sub-timer at or above its period (R94). -/
def tickClocks (n : Nat) (s : State) (x : SubTimer) : Nat :=
  if Config.hardware.period x ≤ s.acc.get x + n then 1 else 0

/-- One firing on this hardware is at most one clock. -/
theorem fire_eq_clock (x : SubTimer) (s : State) :
    fire Config.hardware x s =
      ((SubTimer.clock x)^[if Config.hardware.period x ≤ s.acc.get x then 1 else 0] s).withAccRsp
        (fire Config.hardware x s).acc s.rsp := by
  have hrsp : (SubTimer.clock x s).rsp = s.rsp := by cases x <;> simp [SubTimer.clock]
  simp only [fire]
  split
  · simp only [clockCount_hardware, Function.iterate_one, State.withAccRsp, State.setAcc, ← hrsp]
  · rfl

/-- `TICK n` is the clocks it raises, and its accumulators. -/
theorem tick_eq_clocked (n : Nat) (s : State) :
    tick Config.hardware n s =
      (s.clocked (tickClocks n s)).withAccRsp (tick Config.hardware n s).acc s.rsp := by
  have hiter := fun x m a r u => ((clock_withAccRsp x a r).iterate_left m).eq u
  have hwith : ∀ (u : State) (a a' : AccBank) (r r' : Response),
      (u.withAccRsp a r).withAccRsp a' r' = u.withAccRsp a' r' := fun _ _ _ _ _ => rfl
  have hrsp : ∀ (u : State) (a : AccBank) (r : Response), (u.withAccRsp a r).rsp = r := fun _ _ _ => rfl
  have h0 : accumulate n s = s.withAccRsp (accumulate n s).acc s.rsp := rfl
  have h1 := fire_eq_clock .fs (accumulate n s)
  have h2 := fire_eq_clock .env (fire Config.hardware .fs (accumulate n s))
  have h3 := fire_eq_clock .swp (fire Config.hardware .env (fire Config.hardware .fs (accumulate n s)))
  have h4 := fire_eq_clock .len
    (fire Config.hardware .swp (fire Config.hardware .env (fire Config.hardware .fs (accumulate n s))))
  simp only [ne_eq, reduceCtorEq, not_false_eq_true, fire_acc_ne, accumulate_get] at h1 h2 h3 h4
  simp only [tick, fireAll, fireOrder, List.foldl, State.clocked]
  generalize fire Config.hardware .len _ = t4 at *
  generalize fire Config.hardware .swp _ = t3 at *
  generalize fire Config.hardware .env _ = t2 at *
  generalize fire Config.hardware .fs _ = t1 at *
  generalize accumulate n s = t0 at *
  rw [h4, h3, h2, h1, h0]
  simp only [hiter, hwith, hrsp]
  rfl

/-- The clocks of a sequence of `TICK` commands: at most one per period of cycles, and exactly that many where no call is
longer than the period. -/
theorem ticks_eq_clocked (ns : List Cycles) (s : State) (h : ∀ x, s.acc.get x < Config.hardware.period x) :
    ∃ k : SubTimer → Nat,
      ticks ns s = (s.clocked k).withAccRsp (ticks ns s).acc (ticks ns s).rsp ∧
        ∀ x, (ticks ns s).acc.get x = (s.acc.get x + (ns.map BitVec.toNat).sum) % Config.hardware.period x ∧
          k x ≤ (s.acc.get x + (ns.map BitVec.toNat).sum) / Config.hardware.period x ∧
          ((∀ n ∈ ns, n.toNat ≤ Config.hardware.period x) →
            k x = (s.acc.get x + (ns.map BitVec.toNat).sum) / Config.hardware.period x) := by
  induction ns generalizing s with
  | nil =>
    refine ⟨fun _ => 0, rfl, fun x => ?_⟩
    simp [ticks, Nat.mod_eq_of_lt (h x), Nat.div_eq_of_lt (h x)]
  | cons n ns ih =>
    have hacc := tick_acc Config.hardware n.toNat s
    obtain ⟨k, hk, hx⟩ := ih (tick Config.hardware n.toNat s).silent fun x => by
      rw [State.silent_acc, hacc]; exact Nat.mod_lt _ (Config.period_pos _ x)
    refine ⟨fun x => k x + tickClocks n.toNat s x, ?_, fun x => ?_⟩
    · rw [ticks, List.foldl, ← ticks]
      generalize ticks ns (tick Config.hardware n.toNat s).silent = t at hk
      have hs : (tick Config.hardware n.toNat s).silent =
          (s.clocked (tickClocks n.toNat s)).withAccRsp (tick Config.hardware n.toNat s).acc Response.silent := by
        conv => lhs; rw [tick_eq_clocked]
        rfl
      rw [hk, hs, State.clocked_withAccRsp, State.clocked_clocked]
      rfl
    · obtain ⟨h1, h2, h3⟩ := hx x
      rw [ticks, List.foldl, ← ticks]
      rw [State.silent_acc, hacc] at h1 h2 h3
      simp only [List.map_cons, List.sum_cons, tickClocks, List.forall_mem_cons]
      have hp := Config.period_pos Config.hardware x
      have hlt := h x
      generalize Config.hardware.period x = p at *
      generalize s.acc.get x = a at *
      generalize (List.map BitVec.toNat ns).sum = z at *
      have hdm := Nat.div_add_mod (a + n.toNat) p
      have hz : (a + (n.toNat + z)) = ((a + n.toNat) % p + z) + p * ((a + n.toNat) / p) := by omega
      have hdiv : (a + (n.toNat + z)) / p = ((a + n.toNat) % p + z) / p + (a + n.toNat) / p := by
        rw [hz, Nat.add_mul_div_left _ _ hp]
      refine ⟨by rw [h1, hz, Nat.add_mul_mod_self_left], ?_, ?_⟩
      · rw [hdiv]
        split
        · next hle => exact Nat.add_le_add h2 (Nat.div_pos hle hp)
        · exact Nat.add_le_add h2 (Nat.zero_le _)
      · rintro ⟨hn, hns⟩
        rw [hdiv, h3 hns]
        split
        · next hle =>
          have : (a + n.toNat) / p = 1 := Nat.div_eq_of_lt_le (by omega) (by omega)
          omega
        · next hle => rw [Nat.div_eq_of_lt (Nat.not_le.mp hle)]

/-! ## The invariant (10_state.md R24) -/

theorem State.reset_aram_wf : State.reset.aram.wf = true := rfl

/-- A length load never exceeds 256 in channel 3 (R20). -/
theorem lengthField_ch3 (b : Byte) : lengthField .ch3 b ≤ 256 := by
  simp only [lengthField]; omega

theorem sweepReload_le (p : BitVec 3) : (sweepReload p).toNat ≤ 8 := by
  revert p; decide

/-- The sweep countdown stays at most 8 (R17). -/
theorem sweepNext_cd_le (nr10 : Byte) (v : SweepView) (h : v.cd.toNat ≤ 8) : (sweepNext nr10 v).cd.toNat ≤ 8 := by
  simp only [sweepNext]
  split
  · simp only [BitVec.toNat_ofNat]; omega
  · split
    · exact sweepReload_le _
    · split <;> exact sweepReload_le _

/-- What a state of the invariant must keep when accumulators, countdown, `len[3]` and Audio RAM are unchanged. -/
theorem State.Inv.of_same {cfg : Config} {s t : State} (h : s.Inv cfg) (acc : t.acc = s.acc) (cd : t.swpCd.toNat ≤ 8)
    (len : t.len.get .ch3 ≤ 256) (aram : t.aram = s.aram) : t.Inv cfg :=
  ⟨by rw [acc]; exact h.acc_lt, cd, len, by rw [aram]; exact h.aram_wf, by rw [aram]; exact h.aram_below⟩

theorem tick_swpCd_le (cfg : Config) (n : Nat) (s : State) (h : s.swpCd.toNat ≤ 8) : (tick cfg n s).swpCd.toNat ≤ 8 := by
  have hv := tick_sweepView cfg n s
  have hcd : (tick cfg n s).swpCd = (tick cfg n s).sweepWithNr10.2.cd := rfl
  rw [hcd, hv]
  split
  · generalize clockCount cfg _ _ = k
    have : ∀ (k : Nat) (v : Byte × SweepView), v.2.cd.toNat ≤ 8 →
        ((fun v : Byte × SweepView => (v.1, sweepNext v.1 v.2))^[k] v).2.cd.toNat ≤ 8 := by
      intro k
      induction k with
      | zero => exact fun v hv => hv
      | succ k ih => exact fun v hv => ih _ (sweepNext_cd_le _ _ hv)
    exact this k _ h
  · exact h

theorem tick_len_le (cfg : Config) (c : Channel) (n : Nat) (s : State) :
    (tick cfg n s).len.get c ≤ s.len.get c := by
  have hv := congrArg Prod.fst (tick_lenView cfg c n s)
  have hl : ((tick cfg n s).lenView c).1 = (tick cfg n s).len.get c := rfl
  rw [← hl, hv]
  split
  · generalize clockCount cfg _ _ = k
    have : ∀ (k : Nat) (v : Nat × Bool), (lenNext^[k] v).1 ≤ v.1 := by
      intro k
      induction k with
      | zero => exact fun v => Nat.le_refl _
      | succ k ih => exact fun v => Nat.le_trans (ih _) (lenNext_le v)
    exact this k _
  · exact Nat.le_refl _

/-- The response ports are no part of the invariant. -/
theorem State.Inv.silent {cfg : Config} {s : State} (h : s.Inv cfg) : s.silent.Inv cfg :=
  h.of_same rfl h.swpCd_le h.len3_le rfl

/-- `TICK` brings the accumulators below their periods and keeps the rest (R24, 40_tick_scheduler.md R95). -/
theorem tick_inv {cfg : Config} {s : State} (n : Nat) (h : s.Inv cfg) : (tick cfg n s).Inv cfg where
  acc_lt x := by rw [tick_acc]; exact Nat.mod_lt _ (Config.period_pos cfg x)
  swpCd_le := tick_swpCd_le cfg n s h.swpCd_le
  len3_le := Nat.le_trans (tick_len_le cfg .ch3 n s) h.len3_le
  aram_wf := by rw [tick_aram]; exact h.aram_wf
  aram_below := by rw [tick_aram]; exact h.aram_below

/-! ## What no command touches -/

theorem restartWrite_fault (c : Channel) (b : Byte) (s : State) : (restartWrite c b s).fault = s.fault := by
  unfold restartWrite
  split
  · exact (trigger_spec c _).fault
  · rfl

theorem restartWrite_port (c : Channel) (b : Byte) (s : State) : (restartWrite c b s).port = s.port := by
  unfold restartWrite
  split
  · exact (trigger_spec c _).port
  · rfl

/-- A register write never faults. -/
theorem writeEffect_fault (r : Reg) (b : Byte) (s : State) : (writeEffect r b s).fault = s.fault := by
  cases r <;> first | rfl | exact restartWrite_fault _ b s

theorem writeEffect_port (r : Reg) (b : Byte) (s : State) : (writeEffect r b s).port = s.port := by
  cases r <;> first | rfl | exact restartWrite_port _ b s

theorem aramRead_port (cfg : Config) (a : Addr) (s : State) : (aramRead cfg a s).port = s.port := by
  unfold aramRead; split <;> rfl

theorem aramWrite_port (cfg : Config) (a : Addr) (b : Byte) (s : State) : (aramWrite cfg a b s).port = s.port := by
  unfold aramWrite; split <;> rfl

/-- No command changes what the host presents next. -/
theorem exec_port {i : Instr} {s t : State} (h : exec i s = .next t) : t.port = s.port := by
  induction i using Instr.family_cases with
  | write r b =>
    rw [exec_write, State.perform_next] at h
    rw [h.2, State.silent_port, writeEffect_port]
  | read r =>
    rw [exec_read, State.perform_next] at h
    rw [h.2]; rfl
  | tick n =>
    rw [exec_tick, State.perform_next] at h
    rw [h.2, State.silent_port, tick_port]
  | wrUnmapped a b =>
    rw [exec_wrUnmapped, State.perform_next] at h
    rw [h.2]; rfl
  | rdUnmapped a =>
    rw [exec_rdUnmapped, State.perform_next] at h
    rw [h.2]; rfl
  | ramwr a b =>
    rw [exec_ramwr, State.perform_next] at h
    rw [h.2, aramWrite_port]
  | ramrd a =>
    rw [exec_ramrd, State.perform_next] at h
    rw [h.2, aramRead_port]

end Sys2Proof.Machine
end

