-- ==== Sys2Proof/Laws/Fields.lean ====
section
/-! SUPPORT. The bit fields and the sweep's formulas as plain numbers, and what one `TICK` of this hardware does to each
view of the state, machine by machine. -/

namespace Sys2Proof.Machine

/-! ## Fields as numbers (30_encoding.md R67 to R71) -/

theorem State.sweepPeriod_toNat (s : State) : s.sweepPeriod.toNat = (s.nr .nr10).toNat / 16 % 8 := by
  simp [State.sweepPeriod, Byte.field, Nat.shiftRight_eq_div_pow]

theorem State.sweepShift_toNat (s : State) : s.sweepShift.toNat = (s.nr .nr10).toNat % 8 := by
  simp [State.sweepShift, Byte.field]

theorem Byte.field_low (v : Byte) (w : Nat) : (v.field 0 w).toNat = v.toNat % 2 ^ w := by
  simp [Byte.field]

theorem envPeriod_toNat (v : Byte) : (envPeriod v).toNat = v.toNat % 8 := Byte.field_low v 3

theorem envVolume_toNat (v : Byte) : (envVolume v).toNat = v.toNat / 16 := by
  simp [envVolume, Byte.field, Nat.shiftRight_eq_div_pow]
  omega

/-- `{v[2:0], w[7:0]}` as a number (20_memory.md R42). -/
theorem Byte.field_append_toNat (v w : Byte) : (v.field 0 3 ++ w : BitVec 11).toNat = 256 * (v.toNat % 8) + w.toNat := by
  have h : (v.field 0 3).toNat = v.toNat % 8 := Byte.field_low v 3
  rw [BitVec.toNat_append, h, Nat.shiftLeft_eq, Nat.mul_comm, ← Nat.two_pow_add_eq_or_of_lt w.isLt]

theorem State.liveFrequency_toNat (s : State) :
    s.liveFrequency.toNat = 256 * ((s.nr .nr14).toNat % 8) + (s.nr .nr13).toNat := Byte.field_append_toNat _ _

/-- The exact candidate (43_sweep.md R161). -/
theorem sweepCalc_eq (f s : Nat) (neg : Bool) : sweepCalc f s neg = candidateFrequency f s neg := by
  simp [sweepCalc, candidateFrequency, Nat.shiftRight_eq_div_pow]

theorem sweepReload_toNat (p : BitVec 3) : (sweepReload p).toNat = if p.toNat = 0 then 8 else p.toNat := by
  revert p; decide

theorem sweepEnabled_iff (p sh : BitVec 3) : sweepEnabled p sh = true ↔ (p.toNat ≠ 0 ∨ sh.toNat ≠ 0) := by
  revert p sh; decide

theorem stepVolume_toNat (amplify : Bool) (v : BitVec 4) :
    (stepVolume amplify v).toNat = if amplify then min 15 (v.toNat + 1) else v.toNat - 1 := by
  revert amplify v; decide

/-- A byte from its two nibbles. -/
theorem Byte.setField_high_toNat (v : Byte) (x : BitVec 4) : (v.setField 4 x).toNat = 16 * x.toNat + v.toNat % 16 := by
  have hlow : (v.setField 4 x).toNat % 16 = v.toNat % 16 := by
    have h := congrArg BitVec.toNat (Byte.field_setField_disjoint v 4 0 4 x (.inl (by omega)) (by omega))
    rwa [Byte.field_low, Byte.field_low] at h
  have hhigh : (v.setField 4 x).toNat / 16 = x.toNat := by
    rw [← envVolume_toNat]
    exact congrArg BitVec.toNat (Byte.field_setField_same v 4 x (by omega))
  omega

/-- The envelope's register after one clock, as numbers. -/
theorem envNext_toNat (v : BitVec 3 × Byte) (hp : v.2.toNat % 8 ≠ 0) (hc : v.1.toNat < 2) :
    (envNext v).1.toNat = v.2.toNat % 8 ∧ (envNext v).2.toNat % 16 = v.2.toNat % 16 ∧
      (envNext v).2.toNat / 16 =
        if v.2.getLsbD 3 then min 15 (v.2.toNat / 16 + 1) else v.2.toNat / 16 - 1 := by
  have h0 : envPeriod v.2 ≠ 0 := fun h => hp (by rw [← envPeriod_toNat, h]; rfl)
  have hx := stepVolume_toNat (envAmplify v.2) (envVolume v.2)
  rw [envVolume_toNat] at hx
  have hlt := (stepVolume (envAmplify v.2) (envVolume v.2)).isLt
  simp only [envNext, h0, Nat.not_le.mpr hc, if_false]
  rw [Byte.setField_high_toNat]
  have ha : envAmplify v.2 = v.2.getLsbD 3 := rfl
  rw [ha] at hx hlt ⊢
  refine ⟨envPeriod_toNat _, by omega, ?_⟩
  rw [← hx]; omega

/-! ## One `TICK` of this hardware -/

/-- The envelope of channel `c` is clocked exactly when `acc_env` reaches its period (R92, R94). -/
theorem hardware_envView (c : EnvChannel) (n : Nat) (s : State) :
    (tick Config.hardware n s).envView c =
      if Config.hardware.pEnv ≤ s.acc.env + n then envNext (s.envView c) else s.envView c :=
  tick_envView Config.hardware c n s

theorem hardware_lenView (c : Channel) (n : Nat) (s : State) :
    (tick Config.hardware n s).lenView c =
      if Config.hardware.pLen ≤ s.acc.len + n then lenNext (s.lenView c) else s.lenView c :=
  tick_lenView Config.hardware c n s

theorem hardware_sweepView (n : Nat) (s : State) :
    (tick Config.hardware n s).sweepView =
      if Config.hardware.pSwp ≤ s.acc.swp + n then sweepNext (s.nr .nr10) s.sweepView else s.sweepView := by
  have h := congrArg Prod.snd (tick_sweepView Config.hardware n s)
  simp only [State.sweepWithNr10] at h
  rw [h]
  have hp : Config.hardware.period .swp = Config.hardware.pSwp := rfl
  rw [hp]
  split <;> rfl

/-- The accumulators, one by one (R95). -/
theorem hardware_acc_fs (n : Nat) (s : State) : (tick Config.hardware n s).acc.fs = (s.acc.fs + n) % 8192 := by
  have h := tick_acc Config.hardware n s .fs
  rwa [hardware_period_fs] at h

theorem hardware_acc_env (n : Nat) (s : State) : (tick Config.hardware n s).acc.env = (s.acc.env + n) % 65536 := by
  have h := tick_acc Config.hardware n s .env
  rwa [hardware_period_env] at h

theorem hardware_acc_swp (n : Nat) (s : State) : (tick Config.hardware n s).acc.swp = (s.acc.swp + n) % 32768 := by
  have h := tick_acc Config.hardware n s .swp
  rwa [hardware_period_swp] at h

theorem hardware_acc_len (n : Nat) (s : State) : (tick Config.hardware n s).acc.len = (s.acc.len + n) % 16384 := by
  have h := tick_acc Config.hardware n s .len
  rwa [hardware_period_len] at h

theorem hardware_fsStep (n : Nat) (s : State) :
    (tick Config.hardware n s).fsStep = if Config.hardware.pFs ≤ s.acc.fs + n then s.fsStep + 1 else s.fsStep :=
  tick_fsStep Config.hardware n s

/-- `fs_step` modulo 8 as a number (40_tick_scheduler.md R96). -/
theorem hardware_fsStep_toNat (n : Nat) (s : State) :
    (tick Config.hardware n s).fsStep.toNat =
      if Config.hardware.pFs ≤ s.acc.fs + n then (s.fsStep.toNat + 1) % 8 else s.fsStep.toNat := by
  rw [hardware_fsStep]
  split
  · rw [BitVec.toNat_add]; rfl
  · rfl

/-! ## Repeated `TICK`s of one period -/

theorem ticks_replicate_succ (k : Nat) (n : Cycles) (s : State) :
    ticks (List.replicate (k + 1) n) s = (tick Config.hardware n.toNat (ticks (List.replicate k n) s)).silent := by
  rw [List.replicate_succ', ticks, List.foldl_append]; rfl

/-- The periods fit `cmd_cycles`. -/
theorem hardware_pLen_toNat : (BitVec.ofNat 32 Config.hardware.pLen).toNat = Config.hardware.pLen := by
  rw [BitVec.toNat_ofNat]; exact Nat.mod_eq_of_lt (by decide)

theorem hardware_pEnv_toNat : (BitVec.ofNat 32 Config.hardware.pEnv).toNat = Config.hardware.pEnv := by
  rw [BitVec.toNat_ofNat]; exact Nat.mod_eq_of_lt (by decide)

/-- One more envelope clock in a ramp: the countdown and the volume after `k + 1` clocks from those after `k`. -/
theorem envNext_ramp (x : BitVec 3 × Byte) (k p v w : Nat) (d : Bool) (hp : 0 < p) (hp8 : p < 8) (hd : x.2.getLsbD 3 = d)
    (h8 : x.2.toNat % 8 = p)
    (i1 : x.1.toNat = p - k % p) (i2 : x.2.toNat % 16 = w) (i3 : x.2.toNat / 16 = if d then min 15 (v + k / p) else v - k / p) :
    (envNext x).1.toNat = p - (k + 1) % p ∧ (envNext x).2.toNat % 16 = w ∧
      (envNext x).2.toNat / 16 = if d then min 15 (v + (k + 1) / p) else v - (k + 1) / p := by
  have hmod := Nat.mod_lt k hp
  have e1 : p * (k / p) + k % p = k := Nat.div_add_mod k p
  by_cases hlast : k % p = p - 1
  · have hk : k + 1 = p * (k / p + 1) := by rw [Nat.mul_add]; omega
    have hdv : (k + 1) / p = k / p + 1 := by
      rw [hk, Nat.mul_div_cancel_left _ hp]
    have hm : (k + 1) % p = 0 := by
      rw [hk]; exact Nat.mul_mod_right _ _
    have hcd : x.1.toNat < 2 := by rw [i1]; omega
    obtain ⟨j1, j2, j3⟩ := envNext_toNat x (by omega) hcd
    refine ⟨by rw [j1, hm, h8]; rfl, by rw [j2, i2], ?_⟩
    rw [j3, hd, hdv, i3]
    cases d <;> simp <;> omega
  · have hk : k + 1 = (k % p + 1) + p * (k / p) := by omega
    have hdv : (k + 1) / p = k / p := by
      rw [hk, Nat.add_mul_div_left _ _ hp, Nat.div_eq_of_lt (by omega), Nat.zero_add]
    have hm : (k + 1) % p = k % p + 1 := by
      rw [hk, Nat.add_mul_mod_self_left, Nat.mod_eq_of_lt (by omega)]
    have hcd : 2 ≤ x.1.toNat := by rw [i1]; omega
    have h0 : envPeriod x.2 ≠ 0 := fun h => by
      have := envPeriod_toNat x.2; rw [h] at this; simp at this; omega
    simp only [envNext, h0, if_false, hcd, if_true]
    refine ⟨?_, i2, by rw [i3, hdv]⟩
    rw [BitVec.toNat_ofNat, hm, i1, Nat.mod_eq_of_lt (by omega)]
    omega

end Sys2Proof.Machine
end

