-- ==== Sys2Proof/Laws/Irrelevance.lean ====
section
/-! SUPPORT. State that no rule interprets: Audio RAM (46_audio_ram.md R200) and the uninterpreted registers (30_encoding.md
R70, R72, R73) pass through the scheduler and the trigger unread and unwritten. -/

namespace Sys2Proof.Machine

/-- The trigger does not look at Audio RAM. -/
theorem trigger_withAram (c : Channel) (s : State) (m : Memory) : trigger c (s.withAram m) = (trigger c s).withAram m := by
  have h1 := trigger_spec c (s.withAram m)
  have h2 := trigger_spec c s
  apply State.ext_values
  · intro r; rw [h1.nr]; exact (h2.nr r).symm
  · exact h1.aram
  · rw [h1.acc]; exact h2.acc.symm
  · rw [h1.fsStep]; exact h2.fsStep.symm
  · intro r; rw [h1.envCd]; exact (h2.envCd r).symm
  · rw [h1.swpCd]; exact h2.swpCd.symm
  · rw [h1.shadow]; exact h2.shadow.symm
  · rw [h1.swpEn]; exact h2.swpEn.symm
  · intro r; rw [h1.len]; exact (h2.len r).symm
  · rw [h1.fault]; exact h2.fault.symm
  · rw [h1.rsp]; exact h2.rsp.symm
  · rw [h1.port]; exact h2.port.symm
  · rw [h1.draws]; exact h2.draws.symm

/-- `TICK` does not look at Audio RAM. -/
theorem tick_withAram (cfg : Config) (n : Nat) (s : State) (m : Memory) : tick cfg n (s.withAram m) = (tick cfg n s).withAram m := by
  refine tick_comm cfg (fun s => s.withAram m) (fun x s => ?_) (fun _ _ => rfl) (fun _ => rfl) n s
  cases x with
  | fs => rfl
  | env => simp only [SubTimer.clock, envClock, envStep_eq]; rfl
  | swp => simp only [SubTimer.clock, sweepClock_eq]; rfl
  | len => simp only [SubTimer.clock, lenClock, lenStep_eq]; rfl

theorem nr_withReg (s : State) (r x : Reg) (v : Byte) : (s.withReg r v).nr x = if x = r then v else s.nr x := RegBank.get_set _ _ _ _

theorem set_withReg (s : State) {r x : Reg} (v w : Byte) (h : x ≠ r) : (s.withReg r v).setNr x w = (s.setNr x w).withReg r v := by
  simp only [State.withReg, State.setNr]
  rw [RegBank.set_comm _ _ _ (Ne.symm h)]

theorem clock_withReg {r : Reg} (hr : r ∈ uninterpreted) (v : Byte) (x : SubTimer) (s : State) :
    SubTimer.clock x (s.withReg r v) = (SubTimer.clock x s).withReg r v := by
  have hne : ∀ q : Reg, q ∉ uninterpreted → q ≠ r := by rintro q hq rfl; exact hq hr
  have hn : ∀ q : Reg, q ∉ uninterpreted → (s.withReg r v).nr q = s.nr q := fun q hq => by rw [nr_withReg, if_neg (hne q hq)]
  have henv : ∀ (c : EnvChannel) (s : State), envStep c (s.withReg r v) = (envStep c s).withReg r v := by
    intro c s
    have hc : c.nrc2 ∉ uninterpreted := by cases c <;> decide
    have hv : (s.withReg r v).envView c = s.envView c := by
      simp only [State.envView, nr_withReg, if_neg (hne _ hc)]; rfl
    rw [envStep_eq, envStep_eq, hv, ← set_withReg _ _ _ (hne _ hc)]; rfl
  have hlen : ∀ (c : Channel) (s : State), lenStep c (s.withReg r v) = (lenStep c s).withReg r v := by
    intro c s
    have hc : c.nrc4 ∉ uninterpreted := by cases c <;> decide
    have hv : (s.withReg r v).lenView c = s.lenView c := by
      simp only [State.lenView, State.lenEnable, nr_withReg, if_neg (hne _ hc)]; rfl
    have hnr : (s.withReg r v).nr c.nrc4 = s.nr c.nrc4 := by rw [nr_withReg, if_neg (hne _ hc)]
    rw [lenStep_eq, lenStep_eq, hv]
    simp only [State.setLenEnable, State.nr_setLen, hnr]
    rw [← set_withReg _ _ _ (hne _ hc)]; rfl
  cases x with
  | fs => rfl
  | env => simp only [SubTimer.clock, envClock, henv]
  | len => simp only [SubTimer.clock, lenClock, hlen]
  | swp =>
    have h10 := hn .nr10 (by decide)
    have h13 := hn .nr13 (by decide)
    have h14 := hn .nr14 (by decide)
    have hv : (s.withReg r v).sweepView = s.sweepView := by
      simp only [State.sweepView, h13, h14]; rfl
    simp only [SubTimer.clock, sweepClock_eq, h10, hv, State.withSweep, h14]
    rw [← set_withReg _ _ _ (hne .nr14 (by decide)), ← set_withReg _ _ _ (hne .nr13 (by decide))]; rfl

theorem trigger_withReg {r : Reg} (hr : r ∈ uninterpreted) (v : Byte) (c : Channel) (s : State) :
    trigger c (s.withReg r v) = (trigger c s).withReg r v := by
  have hne : ∀ q : Reg, q ∉ uninterpreted → q ≠ r := by rintro q hq rfl; exact hq hr
  have hn : ∀ q : Reg, q ∉ uninterpreted → (s.withReg r v).nr q = s.nr q := fun q hq => by rw [nr_withReg, if_neg (hne q hq)]
  have hc : c.nrc4 ∉ uninterpreted := by cases c <;> decide
  have h1 := trigger_spec c (s.withReg r v)
  have h2 := trigger_spec c s
  have e10 : (s.withReg r v).sweepPeriod = s.sweepPeriod := by simp only [State.sweepPeriod, hn .nr10 (by decide)]
  have e11 : (s.withReg r v).sweepShift = s.sweepShift := by simp only [State.sweepShift, hn .nr10 (by decide)]
  have e12 : (s.withReg r v).sweepNeg = s.sweepNeg := by simp only [State.sweepNeg, hn .nr10 (by decide)]
  have e13 : (s.withReg r v).liveFrequency = s.liveFrequency := by simp only [State.liveFrequency, hn .nr14 (by decide), hn .nr13 (by decide)]
  generalize trigger c s = t at *
  apply State.ext_values
  · intro x; rw [h1.nr, nr_withReg t, h2.nr, hn _ hc, nr_withReg]
    by_cases hx : x = r
    · subst hx; simp [Ne.symm (hne _ hc)]
    · simp [hx]
  · rw [h1.aram]; exact h2.aram.symm
  · rw [h1.acc]; exact h2.acc.symm
  · rw [h1.fsStep]; exact h2.fsStep.symm
  · intro x; rw [h1.envCd, hn _ (by cases x <;> decide)]; exact (h2.envCd x).symm
  · rw [h1.swpCd, e10]; exact h2.swpCd.symm
  · rw [h1.shadow, e13]; exact h2.shadow.symm
  · rw [h1.swpEn, e10, e11, e12, e13]; exact h2.swpEn.symm
  · intro x; rw [h1.len]; exact (h2.len x).symm
  · rw [h1.fault]; exact h2.fault.symm
  · rw [h1.rsp]; exact h2.rsp.symm
  · rw [h1.port]; exact h2.port.symm
  · rw [h1.draws]; exact h2.draws.symm

theorem withReg_withReg (s : State) (r : Reg) (v w : Byte) : (s.withReg r v).withReg r w = s.withReg r w := by
  simp only [State.withReg, RegBank.set_set]

end Sys2Proof.Machine
end

