-- ==== Sys2Proof/Laws/PerInstr.lean ====
section
/-! SUPPORT. Facts stated of each command as syntax, one lemma per constructor. -/

namespace Sys2Proof.Laws.TableRow

/-- The record of the command is matched by a row of opcode_table.json, and that row makes the command again from the
fields it uses (30_encoding.md R62, R75). -/
def Statement (i : Instr) : Prop :=
  ∃ row ∈ OpcodeRow.exact ++ OpcodeRow.byKind, row.matches (encode i).sel = true ∧ row.make (encode i) = i

/-- The `WR` row of a register. -/
theorem ofWrite (r : Reg) (b : Byte) : Statement (.write r b) := by
  refine ⟨⟨0x7FFFF, (1 : Kind) ++ r.addr, fun c => .write r c.data⟩, ?_, ?_, ?_⟩
  · rw [OpcodeRow.exact_eq]
    exact List.mem_append_left _ (List.mem_append_left _ (List.mem_map_of_mem (Reg.mem_all r)))
  · rw [Command.sel, encode_write, OpcodeRow.matches_exact]
    simp
  · rw [encode_write]

/-- The `RD` row of a register. -/
theorem ofRead (r : Reg) : Statement (.read r) := by
  refine ⟨⟨0x7FFFF, (2 : Kind) ++ r.addr, fun _ => .read r⟩, ?_, ?_, rfl⟩
  · rw [OpcodeRow.exact_eq]
    exact List.mem_append_left _ (List.mem_append_right _ (List.mem_map_of_mem (Reg.mem_all r)))
  · rw [Command.sel, encode_read, OpcodeRow.matches_exact]
    simp

/-- A row with a kind and any address. -/
theorem ofKind {i : Instr} (k : Kind) (make : Command → Instr) (hk : (encode i).kind = k) (hm : make (encode i) = i)
    (hmem : (⟨0x70000, k ++ (0 : Addr), make⟩ : OpcodeRow) ∈ OpcodeRow.byKind) : Statement i := by
  refine ⟨_, List.mem_append_right _ hmem, ?_, hm⟩
  rw [Command.sel, OpcodeRow.matches_byKind, hk]
  exact beq_self_eq_true k

theorem wrNr10 (b : Byte) : Statement (.wrNr10 b) := ofWrite .nr10 b
theorem wrNr11 (b : Byte) : Statement (.wrNr11 b) := ofWrite .nr11 b
theorem wrNr12 (b : Byte) : Statement (.wrNr12 b) := ofWrite .nr12 b
theorem wrNr13 (b : Byte) : Statement (.wrNr13 b) := ofWrite .nr13 b
theorem wrNr14 (b : Byte) : Statement (.wrNr14 b) := ofWrite .nr14 b
theorem wrNr21 (b : Byte) : Statement (.wrNr21 b) := ofWrite .nr21 b
theorem wrNr22 (b : Byte) : Statement (.wrNr22 b) := ofWrite .nr22 b
theorem wrNr23 (b : Byte) : Statement (.wrNr23 b) := ofWrite .nr23 b
theorem wrNr24 (b : Byte) : Statement (.wrNr24 b) := ofWrite .nr24 b
theorem wrNr30 (b : Byte) : Statement (.wrNr30 b) := ofWrite .nr30 b
theorem wrNr31 (b : Byte) : Statement (.wrNr31 b) := ofWrite .nr31 b
theorem wrNr32 (b : Byte) : Statement (.wrNr32 b) := ofWrite .nr32 b
theorem wrNr33 (b : Byte) : Statement (.wrNr33 b) := ofWrite .nr33 b
theorem wrNr34 (b : Byte) : Statement (.wrNr34 b) := ofWrite .nr34 b
theorem wrNr41 (b : Byte) : Statement (.wrNr41 b) := ofWrite .nr41 b
theorem wrNr42 (b : Byte) : Statement (.wrNr42 b) := ofWrite .nr42 b
theorem wrNr43 (b : Byte) : Statement (.wrNr43 b) := ofWrite .nr43 b
theorem wrNr44 (b : Byte) : Statement (.wrNr44 b) := ofWrite .nr44 b
theorem wrNr50 (b : Byte) : Statement (.wrNr50 b) := ofWrite .nr50 b
theorem wrNr51 (b : Byte) : Statement (.wrNr51 b) := ofWrite .nr51 b
theorem wrNr52 (b : Byte) : Statement (.wrNr52 b) := ofWrite .nr52 b
theorem rdNr10 : Statement .rdNr10 := ofRead .nr10
theorem rdNr11 : Statement .rdNr11 := ofRead .nr11
theorem rdNr12 : Statement .rdNr12 := ofRead .nr12
theorem rdNr13 : Statement .rdNr13 := ofRead .nr13
theorem rdNr14 : Statement .rdNr14 := ofRead .nr14
theorem rdNr21 : Statement .rdNr21 := ofRead .nr21
theorem rdNr22 : Statement .rdNr22 := ofRead .nr22
theorem rdNr23 : Statement .rdNr23 := ofRead .nr23
theorem rdNr24 : Statement .rdNr24 := ofRead .nr24
theorem rdNr30 : Statement .rdNr30 := ofRead .nr30
theorem rdNr31 : Statement .rdNr31 := ofRead .nr31
theorem rdNr32 : Statement .rdNr32 := ofRead .nr32
theorem rdNr33 : Statement .rdNr33 := ofRead .nr33
theorem rdNr34 : Statement .rdNr34 := ofRead .nr34
theorem rdNr41 : Statement .rdNr41 := ofRead .nr41
theorem rdNr42 : Statement .rdNr42 := ofRead .nr42
theorem rdNr43 : Statement .rdNr43 := ofRead .nr43
theorem rdNr44 : Statement .rdNr44 := ofRead .nr44
theorem rdNr50 : Statement .rdNr50 := ofRead .nr50
theorem rdNr51 : Statement .rdNr51 := ofRead .nr51
theorem rdNr52 : Statement .rdNr52 := ofRead .nr52

theorem tick (n : Cycles) : Statement (.tick n) :=
  ofKind 0 (fun c => .tick c.cycles) rfl rfl (.head _)

theorem wrUnmapped (a : Addr) (b : Byte) : Statement (.wrUnmapped a b) :=
  ofKind 1 (fun c => .wrUnmapped c.addr c.data) rfl rfl (.tail _ (.head _))

theorem rdUnmapped (a : Addr) : Statement (.rdUnmapped a) :=
  ofKind 2 (fun c => .rdUnmapped c.addr) rfl rfl (.tail _ (.tail _ (.head _)))

theorem ramwr (a : Addr) (b : Byte) : Statement (.ramwr a b) :=
  ofKind 3 (fun c => .ramwr c.addr c.data) rfl rfl (.tail _ (.tail _ (.tail _ (.head _))))

theorem ramrd (a : Addr) : Statement (.ramrd a) :=
  ofKind 4 (fun c => .ramrd c.addr) rfl rfl (.tail _ (.tail _ (.tail _ (.tail _ (.head _)))))

end Sys2Proof.Laws.TableRow
end

