-- ==== Sys2Proof/Tests/Slice0.lean ====
section
/-! SUPPORT. The model's own tests. Expected values are those of 95_test_vectors.md (its row is named) or worked out from
the rule named; words are written out from 30_encoding.md and opcode_table.json. The last part shows, for every
statement with hypotheses, states and operands that meet them. -/

set_option maxRecDepth 8000

namespace Sys2Proof.Tests

open Sys2Proof.Machine

/-! ## Well-formedness: the one check, on both commands it guards (30_encoding.md R65) -/

theorem test_write_to_a_register_address_is_no_unmapped_write :
    (Reg.all.all fun r => !(Instr.wrUnmapped r.addr 0x55).wellFormed) = true := by decide

theorem test_read_of_a_register_address_is_no_unmapped_read :
    (Reg.all.all fun r => !(Instr.rdUnmapped r.addr).wellFormed) = true := by decide

theorem test_unmapped_addresses_are_well_formed :
    ([0xFF0F, 0xFF15, 0xFF1F, 0xFF27, 0xFF30, 0x0000, 0xFFFF].all fun a =>
      (Instr.wrUnmapped a 0x55).wellFormed && (Instr.rdUnmapped a).wellFormed) = true := by decide

/-! ## Decoding. A word is `data(8) _ in no field(5) _ kind(3) _ addr(16)`, `TICK`'s with `cycles(32)` before it. -/

theorem test_decode_wr_channel1 :
    decodeTableWord 32 0b01011010_00000_001_1111111100010000 = some (.wrNr10 0x5A) ∧
    decodeTableWord 32 0b01110111_00000_001_1111111100010001 = some (.wrNr11 0x77) ∧
    decodeTableWord 32 0b10010100_00000_001_1111111100010010 = some (.wrNr12 0x94) ∧
    decodeTableWord 32 0b10110001_00000_001_1111111100010011 = some (.wrNr13 0xB1) ∧
    decodeTableWord 32 0b11001110_00000_001_1111111100010100 = some (.wrNr14 0xCE) := by decide

theorem test_decode_wr_channel2 :
    decodeTableWord 32 0b01011010_00000_001_1111111100010110 = some (.wrNr21 0x5A) ∧
    decodeTableWord 32 0b01110111_00000_001_1111111100010111 = some (.wrNr22 0x77) ∧
    decodeTableWord 32 0b10010100_00000_001_1111111100011000 = some (.wrNr23 0x94) ∧
    decodeTableWord 32 0b10110001_00000_001_1111111100011001 = some (.wrNr24 0xB1) := by decide

theorem test_decode_wr_channel3 :
    decodeTableWord 32 0b01011010_00000_001_1111111100011010 = some (.wrNr30 0x5A) ∧
    decodeTableWord 32 0b01110111_00000_001_1111111100011011 = some (.wrNr31 0x77) ∧
    decodeTableWord 32 0b10010100_00000_001_1111111100011100 = some (.wrNr32 0x94) ∧
    decodeTableWord 32 0b10110001_00000_001_1111111100011101 = some (.wrNr33 0xB1) ∧
    decodeTableWord 32 0b11001110_00000_001_1111111100011110 = some (.wrNr34 0xCE) := by decide

theorem test_decode_wr_channel4 :
    decodeTableWord 32 0b01011010_00000_001_1111111100100000 = some (.wrNr41 0x5A) ∧
    decodeTableWord 32 0b01110111_00000_001_1111111100100001 = some (.wrNr42 0x77) ∧
    decodeTableWord 32 0b10010100_00000_001_1111111100100010 = some (.wrNr43 0x94) ∧
    decodeTableWord 32 0b10110001_00000_001_1111111100100011 = some (.wrNr44 0xB1) := by decide

theorem test_decode_wr_global :
    decodeTableWord 32 0b01011010_00000_001_1111111100100100 = some (.wrNr50 0x5A) ∧
    decodeTableWord 32 0b01110111_00000_001_1111111100100101 = some (.wrNr51 0x77) ∧
    decodeTableWord 32 0b10010100_00000_001_1111111100100110 = some (.wrNr52 0x94) := by decide

theorem test_decode_rd_channel1 :
    decodeTableWord 24 0b00000_010_1111111100010000 = some .rdNr10 ∧
    decodeTableWord 24 0b00000_010_1111111100010001 = some .rdNr11 ∧
    decodeTableWord 24 0b00000_010_1111111100010010 = some .rdNr12 ∧
    decodeTableWord 24 0b00000_010_1111111100010011 = some .rdNr13 ∧
    decodeTableWord 24 0b00000_010_1111111100010100 = some .rdNr14 := by decide

theorem test_decode_rd_channel2 :
    decodeTableWord 24 0b00000_010_1111111100010110 = some .rdNr21 ∧
    decodeTableWord 24 0b00000_010_1111111100010111 = some .rdNr22 ∧
    decodeTableWord 24 0b00000_010_1111111100011000 = some .rdNr23 ∧
    decodeTableWord 24 0b00000_010_1111111100011001 = some .rdNr24 := by decide

theorem test_decode_rd_channel3 :
    decodeTableWord 24 0b00000_010_1111111100011010 = some .rdNr30 ∧
    decodeTableWord 24 0b00000_010_1111111100011011 = some .rdNr31 ∧
    decodeTableWord 24 0b00000_010_1111111100011100 = some .rdNr32 ∧
    decodeTableWord 24 0b00000_010_1111111100011101 = some .rdNr33 ∧
    decodeTableWord 24 0b00000_010_1111111100011110 = some .rdNr34 := by decide

theorem test_decode_rd_channel4 :
    decodeTableWord 24 0b00000_010_1111111100100000 = some .rdNr41 ∧
    decodeTableWord 24 0b00000_010_1111111100100001 = some .rdNr42 ∧
    decodeTableWord 24 0b00000_010_1111111100100010 = some .rdNr43 ∧
    decodeTableWord 24 0b00000_010_1111111100100011 = some .rdNr44 := by decide

theorem test_decode_rd_global :
    decodeTableWord 24 0b00000_010_1111111100100100 = some .rdNr50 ∧
    decodeTableWord 24 0b00000_010_1111111100100101 = some .rdNr51 ∧
    decodeTableWord 24 0b00000_010_1111111100100110 = some .rdNr52 := by decide

/-- 65536 cycles (P1a), address and data ignored (R61). -/
theorem test_decode_tick :
    decodeTableWord 64 0b00000000000000010000000000000000_10101010_00000_000_1111111100010100 = some (.tick 65536) := by decide

theorem test_decode_unmapped :
    decodeTableWord 32 0b10101010_00000_001_1111111100010101 = some (.wrUnmapped 0xFF15 0xAA) ∧
    decodeTableWord 32 0b10101010_00000_010_1111111100010101 = some (.rdUnmapped 0xFF15) := by decide

theorem test_decode_ram :
    decodeTableWord 32 0b11101111_00000_011_1111111100111110 = some (.ramwr 0xFF3E 0xEF) ∧
    decodeTableWord 32 0b00000000_00000_100_1111111100111111 = some (.ramrd 0xFF3F) := by decide

/-- X1: kinds 5, 6, 7. -/
theorem test_decode_refuses_reserved_kinds :
    decodeTableWord 24 0b00000_101_1111111100010100 = none ∧
    decodeTableWord 24 0b00000_110_0000000000000000 = none ∧
    decodeTableWord 24 0b00000_111_1111111111111111 = none := by decide

/-- Bits 23:19 are in no field (log 7). -/
theorem test_decode_ignores_bits_in_no_field :
    decodeTableWord 32 0b10000000_11111_001_1111111100010100 = some (.wrNr14 0x80) := by decide

theorem test_encode :
    encode (.wrNr11 0xC5) = ⟨1, 0xFF11, 0xC5, 0⟩ ∧ encode (.tick 65536) = ⟨0, 0, 0, 65536⟩ ∧
    encode (.rdNr12) = ⟨2, 0xFF12, 0, 0⟩ ∧ encode (.ramwr 0xFF30 0x12) = ⟨3, 0xFF30, 0x12, 0⟩ ∧
    encode (.ramrd 0xFF3F) = ⟨4, 0xFF3F, 0, 0⟩ ∧ (encode (.wrNr14 0x80)).sel = 0x1FF14 ∧
    (encode (.ramrd 0xFF30)).sel = 0x4FF30 := by decide

theorem test_word_of_a_record : (encode (.wrNr14 0x80)).toWord = 0b10000000_00000_001_1111111100010100 := by decide

/-! ## One command on a small state -/

/-- Values read from the state after a command; `none` when it stops. -/
def after {α : Type} (i : Instr) (s : State) (view : State → α) : Option α :=
  match exec i s with
  | .next t => some (view t)
  | .fault _ => none
  | .refused _ => none

/-- The reset state with some registers replaced. -/
def regsFrom (l : List (Reg × Byte)) : State := l.foldl (fun s p => s.setNr p.1 p.2) State.reset

/-- W1 -/
theorem test_wr_nr10 :
    after (.wrNr10 0x7F) State.reset (fun t => (t.nr .nr10, t.swpCd, t.swpEn, t.shadow)) = some (0x7F, 0, false, 0) := by
  decide

/-- W2 -/
theorem test_wr_nr11 : after (.wrNr11 0xC5) State.reset (fun t => (t.nr .nr11, t.len)) = some (0xC5, ⟨5, 0, 0, 0⟩) := by decide

/-- R121 -/
theorem test_wr_nr21 : after (.wrNr21 0x42) State.reset (fun t => (t.nr .nr21, t.len)) = some (0x42, ⟨0, 2, 0, 0⟩) := by decide

/-- W3 -/
theorem test_wr_nr31 : after (.wrNr31 0xFF) State.reset (fun t => (t.nr .nr31, t.len)) = some (0xFF, ⟨0, 0, 255, 0⟩) := by
  decide

/-- W4 -/
theorem test_wr_nr41 : after (.wrNr41 0xFF) State.reset (fun t => (t.nr .nr41, t.len)) = some (0xFF, ⟨0, 0, 0, 63⟩) := by
  decide

/-- S6, and the other plain registers. -/
theorem test_wr_plain :
    ([.wrNr12 0x83, .wrNr13 0x83, .wrNr22 0x83, .wrNr23 0x83, .wrNr30 0x83, .wrNr32 0x83, .wrNr33 0x83, .wrNr42 0x83,
      .wrNr43 0x83, .wrNr50 0x83, .wrNr51 0x83, .wrNr52 0x83].map fun i =>
        after i State.reset fun t => ((Reg.all.filter fun r => t.nr r ≠ 0).map fun r => (r, t.nr r), t.len, t.swpCd)) =
      ([.nr12, .nr13, .nr22, .nr23, .nr30, .nr32, .nr33, .nr42, .nr43, .nr50, .nr51, .nr52].map fun r =>
        some ([(r, 0x83)], ⟨0, 0, 0, 0⟩, 0)) := by decide

/-- TR1: shadow 2047, 3070 > 2047. -/
theorem test_wr_nr14_triggers :
    after (.wrNr14 0x87) (regsFrom [(.nr10, 0x11), (.nr13, 0xFF)])
      (fun t => (t.nr .nr14, t.shadow, t.swpCd, t.swpEn, t.len, t.envCd)) =
      some (0xC7, 2047, 1, false, ⟨63, 0, 0, 0⟩, ⟨0, 0, 0⟩) := by decide

/-- TR2: 1536 fits. -/
theorem test_wr_nr14_enables_the_sweep :
    after (.wrNr14 0x84) (regsFrom [(.nr10, 0x11)]) (fun t => (t.nr .nr14, t.shadow, t.swpCd, t.swpEn)) =
      some (0xC4, 1024, 1, true) := by decide

/-- TR8 -/
theorem test_wr_nr24_triggers :
    after (.wrNr24 0x80) (regsFrom [(.nr22, 0xF5)]) (fun t => (t.nr .nr24, t.envCd, t.len, t.swpCd)) =
      some (0xC0, ⟨0, 5, 0⟩, ⟨0, 63, 0, 0⟩, 0) := by decide

/-- W10: stored bit 7 already 1. -/
theorem test_wr_nr24_without_edge :
    after (.wrNr24 0x87) (regsFrom [(.nr24, 0xC7), (.nr22, 0xF5)]) (fun t => (t.nr .nr24, t.envCd, t.len)) =
      some (0x87, ⟨0, 0, 0⟩, ⟨0, 0, 0, 0⟩) := by decide

/-- TR10 -/
theorem test_wr_nr34_triggers :
    after (.wrNr34 0x80) State.reset (fun t => (t.nr .nr34, t.len, t.envCd)) = some (0xC0, ⟨0, 0, 256, 0⟩, ⟨0, 0, 0⟩) := by
  decide

/-- TR9: a non-zero counter is not reloaded. -/
theorem test_wr_nr34_keeps_a_running_counter :
    after (.wrNr34 0xC0) { State.reset with len := ⟨0, 0, 255, 0⟩ } (fun t => (t.nr .nr34, t.len)) =
      some (0xC0, ⟨0, 0, 255, 0⟩) := by decide

/-- TR11 -/
theorem test_wr_nr44_triggers :
    after (.wrNr44 0x80) (regsFrom [(.nr42, 0x0A)]) (fun t => (t.nr .nr44, t.envCd, t.len)) =
      some (0xC0, ⟨0, 0, 2⟩, ⟨0, 0, 0, 63⟩) := by decide

/-- S7, the two reads; and one register of each other group. -/
theorem test_rd :
    ([Instr.rdNr11, .rdNr14, .rdNr21, .rdNr34, .rdNr43, .rdNr52].map fun i =>
      after i (regsFrom [(.nr14, 0xC0), (.nr21, 0x02), (.nr34, 0x87), (.nr43, 0x5A), (.nr52, 0xFF)]) fun t => t.rsp) =
      [some ⟨some 0x00, none⟩, some ⟨some 0xC0, none⟩, some ⟨some 0x02, none⟩, some ⟨some 0x87, none⟩,
        some ⟨some 0x5A, none⟩, some ⟨some 0xFF, none⟩] := by decide

/-- W6: a `WR` never reaches Audio RAM. -/
theorem test_wr_unmapped : exec (.wrUnmapped 0xFF30 0x55) State.reset = .next State.reset := rfl

/-- W8: some byte is returned, nothing of the block changes. -/
theorem test_rd_unmapped :
    after (.rdUnmapped 0xFF15) State.reset (fun t => (t.rsp.rdata.isSome, { t with rsp := Response.silent, draws := 0 })) =
      some (true, State.reset) := by rfl

/-- A2 -/
theorem test_ramwr : after (.ramwr 0xFF3E 0xEF) State.reset (fun t => (t.aram, t.fault)) = some ([(14, 0xEF)], false) := by
  decide

/-- A5 -/
theorem test_ramwr_out_of_range :
    after (.ramwr 0xFF2F 1) State.reset (fun t => (t.aram, t.fault, t.rsp)) =
      some ([], true, ⟨none, some ⟨.audioRamBounds, 0xFF2F, .write⟩⟩) := by decide

/-- A3 -/
theorem test_ramrd :
    after (.ramrd 0xFF3E) { State.reset with aram := [(14, 0xEF)] } (fun t => t.rsp) = some ⟨some 0xEF, none⟩ := by decide

/-- A4 -/
theorem test_ramrd_out_of_range :
    after (.ramrd 0xFF3F) State.reset (fun t => (t.fault, t.rsp)) =
      some (true, ⟨none, some ⟨.audioRamBounds, 0xFF3F, .read⟩⟩) := by decide

/-- A8 -/
theorem test_faulted_block : exec .rdNr12 { State.reset with fault := true } = .fault .faultedBlock := rfl

/-- T5, from the state after T4. -/
theorem test_tick_coarse :
    after (.tick 20000) { State.reset with acc := ⟨1, 16385, 16385, 1⟩, fsStep := 2 }
      (fun t => (t.acc, t.fsStep, t.swpCd, t.swpEn)) = some (⟨3617, 36385, 3617, 3617⟩, 3, 8, false) := by decide

/-- T7: each of the four once; T9: `fs_step` wraps. -/
theorem test_tick_all_four :
    after (.tick 100000) { State.reset with fsStep := 7 } (fun t => (t.acc, t.fsStep, t.swpCd)) =
      some (⟨1696, 34464, 1696, 1696⟩, 0, 8) := by decide

/-- T10: the variant `MULTI_FIRE = true`. -/
theorem test_tick_multi_fire :
    (tick { Config.hardware with multiFire := true } 40000 State.reset).fsStep = 4 ∧
      (tick { Config.hardware with multiFire := true } 40000 State.reset).acc = ⟨7232, 40000, 7232, 7232⟩ := by decide

/-! ## The state machines, vector by vector -/

/-- E1 to E10: `NR12`, `env_cd[1]` before and after one clock. -/
theorem test_env_step :
    ([(0x8B, 3), (0x8B, 2), (0x8B, 1), (0x8B, 0), (0x83, 1), (0xFB, 1), (0x03, 1), (0x88, 5), (0x8F, 1), (0xF1, 1)].map
        fun v : Byte × BitVec 3 =>
          let t := envStep .ch1 { regsFrom [(.nr12, v.1)] with envCd := ⟨v.2, 0, 0⟩ }
          (t.nr .nr12, t.envCd.ch1)) =
      [(0x8B, 2), (0x8B, 1), (0x9B, 3), (0x9B, 3), (0x73, 3), (0xFB, 3), (0x03, 3), (0x88, 5), (0x9F, 7), (0xE1, 1)] := by
  decide

/-- The calculation of 95_test_vectors.md 2.4. -/
theorem test_sweep_calc :
    [sweepCalc 1024 1 false, sweepCalc 1536 1 false, sweepCalc 256 2 true, sweepCalc 192 2 true, sweepCalc 2047 7 false,
      sweepCalc 2047 0 true, sweepCalc 1023 0 false, sweepCalc 1024 0 false, sweepCalc 5 3 false] =
      [1536, 2304, 192, 144, 2062, 0, 2046, 2048, 5] := by decide

/-- The sweep's values after one clock of `v`, with NR10 given. -/
def sweepTest (nr10 : Byte) (cd : BitVec 4) (shadow : BitVec 11) (nr13 nr14 : Byte) (en : Bool) :
    BitVec 4 × BitVec 11 × Byte × Byte × Bool :=
  let t := sweepClock { regsFrom [(.nr10, nr10), (.nr13, nr13), (.nr14, nr14)] with swpCd := cd, shadow := shadow, swpEn := en }
  (t.swpCd, t.shadow, t.nr .nr13, t.nr .nr14, t.swpEn)

/-- SW1 to SW6 -/
theorem test_sweep_clock_commits :
    [sweepTest 0x11 8 1024 0x00 0xC4 true, sweepTest 0x11 1 1024 0x00 0xC4 true, sweepTest 0x11 1 1536 0x00 0xC6 false,
      sweepTest 0x2A 1 256 0x00 0xC1 true, sweepTest 0x2A 1 192 0xC0 0xC0 true, sweepTest 0x00 0 0 0 0 false] =
      [(7, 1024, 0x00, 0xC4, true), (1, 1536, 0x00, 0xC6, false), (1, 1536, 0x00, 0xC6, false),
        (2, 192, 0xC0, 0xC0, true), (2, 144, 0x90, 0xC0, true), (8, 0, 0, 0, false)] := by decide

/-- SW7 to SW12 -/
theorem test_sweep_clock_checks :
    [sweepTest 0x01 1 1024 0x00 0xC4 false, sweepTest 0x10 1 1000 0xE8 0xC3 true, sweepTest 0x10 1 1024 0x00 0xC4 false,
      sweepTest 0x11 0 0 0x34 0x05 false, sweepTest 0x17 1 2047 0xFF 0x87 true, sweepTest 0x13 1 5 0x05 0x80 true] =
      [(8, 1024, 0x00, 0xC4, true), (1, 1000, 0xE8, 0xC3, true), (1, 1024, 0x00, 0xC4, false), (1, 0, 0x00, 0x00, true),
        (1, 2047, 0xFF, 0x87, false), (1, 5, 0x05, 0x80, true)] := by decide

/-- `NRc4` and `len[c]` after one clock. -/
def lenTest (c : Channel) (nrc4 : Byte) (len : LenBank) : Byte × Nat :=
  let t := lenStep c { regsFrom [(c.nrc4, nrc4)] with len := len }
  (t.nr c.nrc4, t.len.get c)

/-- L1 to L7 -/
theorem test_len_step :
    [lenTest .ch2 0xC0 ⟨0, 2, 0, 0⟩, lenTest .ch2 0xC0 ⟨0, 1, 0, 0⟩, lenTest .ch2 0x80 ⟨0, 0, 0, 0⟩,
      lenTest .ch1 0x40 ⟨0, 0, 0, 0⟩, lenTest .ch1 0x87 ⟨40, 0, 0, 0⟩, lenTest .ch3 0xC7 ⟨0, 0, 256, 0⟩,
      lenTest .ch4 0x47 ⟨0, 0, 0, 1⟩] =
      [(0xC0, 1), (0x80, 0), (0x80, 0), (0x00, 0), (0x87, 40), (0xC7, 255), (0x07, 0)] := by decide

/-! ## One step -/

/-- A presented table word is fetched and performed (P1a, command 1). -/
theorem test_step_runs_the_fetched_word :
    step (State.reset.withFetchWord 32 0b10001011_00000_001_1111111100010010) = .next (regsFrom [(.nr12, 0x8B)]) := by rfl

/-- X1 -/
theorem test_step_refuses_a_reserved_kind :
    step (State.reset.withFetchWord 24 0b00000_101_0000000000000000) = .refused (.reservedCommand 5) := rfl

/-- X2 -/
theorem test_step_resets_a_faulted_block :
    step { regsFrom [(.nr12, 0x8B)] with fault := true, port := [⟨true, true, encode (.wrNr12 0x55)⟩] } =
      .next State.reset := rfl

/-- From reset, with nothing presented, the block stays as it is (30_encoding.md R61). -/
theorem test_step_from_reset : step State.reset = .next State.reset := rfl

theorem test_reset_memory_is_canonical : State.reset.aram.wf = true := by decide

/-! ## Witnesses: the hypotheses of the statements are met, clause by clause -/

/-- `P`-shaped evidence that a step answers a next state. -/
def answersNext (o : Host.Outcome State Fault Refusal) : Bool :=
  match o with
  | .next _ => true
  | .fault _ => false
  | .refused _ => false

/-- The state that presents one command. -/
def presenting (c : Command) (s : State) : State := { s with port := [PortSample.ofCommand c] }

/-- A block that has faulted. -/
def faulted : State := { State.reset with fault := true }

theorem witness_DecodeInvertsEncode :
    (Instr.wrUnmapped 0xFF15 0xAA).WellFormed ∧ (Instr.rdUnmapped 0xFF27).WellFormed ∧ (Instr.wrNr52 0xFF).WellFormed := by
  decide

theorem witness_DecodedCommandKeepsItsUsedFields :
    decode ⟨0, 1, 2, 3⟩ = .ok (.tick 3) ∧ decode ⟨1, 0xFF10, 2, 3⟩ = .ok (.wrNr10 2) ∧
      decode ⟨2, 0xFF10, 2, 3⟩ = .ok .rdNr10 ∧ decode ⟨3, 0xFF30, 2, 3⟩ = .ok (.ramwr 0xFF30 2) ∧
      decode ⟨4, 0xFF30, 2, 3⟩ = .ok (.ramrd 0xFF30) := ⟨rfl, rfl, rfl, rfl, rfl⟩

theorem witness_DecodeFollowsOpcodeTable :
    (4 : Kind).toNat < 5 ∧ 5 ≤ (5 : Kind).toNat ∧ 5 ≤ (7 : Kind).toNat ∧
      decodeByTable ⟨1, 0xFF14, 0x80, 0⟩ = .ok (.wrNr14 0x80) ∧
      decodeByTable ⟨5, 0, 0, 0⟩ = .error (.reservedCommand 5) := ⟨by decide, by decide, by decide, rfl, rfl⟩

theorem witness_StepPerformsThePresentedCommand :
    (presenting (encode .rdNr12) State.reset).port = [PortSample.ofCommand (encode .rdNr12)] ∧
      decode (encode .rdNr12) = .ok .rdNr12 := ⟨rfl, rfl⟩

theorem witness_StepWithoutCommandKeepsTheState :
    ({ State.reset with port := [⟨false, false, encode (.wrNr12 1)⟩] } : State).port =
      [⟨false, false, encode (.wrNr12 1)⟩] ∧ State.reset.port = [] := ⟨rfl, rfl⟩

theorem witness_ReservedKindsAreRefused :
    ∀ k ∈ [(5 : Kind), 6, 7], (presenting ⟨k, 0, 0, 0⟩ State.reset).port = [PortSample.ofCommand ⟨k, 0, 0, 0⟩] ∧
      5 ≤ k.toNat := by decide

theorem witness_ResetWinsFromEveryState :
    ({ faulted with port := [⟨true, true, encode (.wrNr12 1)⟩] } : State).port = [⟨true, true, encode (.wrNr12 1)⟩] ∧
      ({ faulted with port := [⟨true, false, encode .rdNr10⟩] } : State).port = [⟨true, false, encode .rdNr10⟩] :=
  ⟨rfl, rfl⟩

/-- A state of the invariant at its bounds, stepped. -/
theorem witness_StepKeepsTheInvariant :
    let s := presenting (encode (.tick 8192))
      { State.reset with acc := ⟨8191, 65535, 32767, 16383⟩, swpCd := 8, len := ⟨63, 63, 256, 63⟩, aram := [(14, 1)] }
    s.Inv Config.hardware ∧ answersNext (step s) = true :=
  ⟨⟨by intro x; cases x <;> decide, by decide, by decide, by decide, fun k b h => by cases h with
    | head => decide
    | tail _ h => cases h⟩, by decide⟩

theorem witness_StepStopsOnlyForFaultedOrReserved :
    step (presenting (encode .rdNr12) faulted) = .fault .faultedBlock ∧
      step (presenting ⟨7, 0, 0, 0⟩ faulted) = .refused (.reservedCommand 7) ∧ answersNext (step faulted) = true :=
  ⟨rfl, rfl, rfl⟩

theorem witness_OnlyAudioRamBoundsFaults :
    State.reset.fault = false ∧
      (Config.hardware.aramBase.toNat ≤ (0xFF30 : Addr).toNat ∧
        (0xFF3E : Addr).toNat ≤ Config.hardware.aramBase.toNat + 14) ∧
      ¬ Config.hardware.aramBase.toNat ≤ (0xFF2F : Addr).toNat ∧
      ¬ (0xFF3F : Addr).toNat ≤ Config.hardware.aramBase.toNat + 14 := by decide

theorem witness_OutOfRangeAudioRamAccessFaults :
    State.reset.fault = false ∧
      (∀ a ∈ [(0x0000 : Addr), 0xFF2F, 0xFF3F, 0xFFFF], ¬ (0xFF30 ≤ a.toNat ∧ a.toNat ≤ 0xFF3E)) ∧
      ∀ a ∈ [(0xFF30 : Addr), 0xFF3E], 0xFF30 ≤ a.toNat ∧ a.toNat ≤ 0xFF3E := ⟨rfl, by simp, by simp⟩

theorem witness_FaultedBlockPerformsNoCommand : faulted.fault = true := rfl

theorem witness_OnlyResetLeavesTheFaultedState :
    faulted.fault = true ∧ answersNext (step faulted) = true ∧
      answersNext (step { faulted with port := [⟨true, false, encode .rdNr10⟩] }) = true ∧
      answersNext (step { faulted with port := [⟨false, false, encode .rdNr10⟩] }) = true := by decide

/-- A command at each bound, a reset over a reserved record, and a reserved record that is not presented. -/
theorem witness_StepKeepsTheBlockUnfaulted :
    State.reset.fault = false ∧
      ∀ p ∈ [PortSample.ofCommand (encode (.ramwr 0xFF30 1)), PortSample.ofCommand (encode (.ramrd 0xFF3E)),
        PortSample.ofCommand (encode (.rdUnmapped 0)), ⟨true, true, ⟨7, 0, 0, 0⟩⟩, ⟨false, false, ⟨7, 0, 0, 0⟩⟩],
        p.InRange := by
  unfold PortSample.InRange; decide

/-- A run that faults has no end state, a reset after the fault notwithstanding (log 14). -/
theorem test_reset_does_not_mend_a_run :
    ¬ RunsSafely { State.reset with port := [PortSample.ofCommand (encode (.ramrd 0)), ⟨true, false, encode .rdNr10⟩] } := by
  rintro ⟨-, -, -, h⟩
  exact absurd (h 1 _ (by decide) (by decide) rfl) (by decide)

theorem witness_CommandsWithinRangeRunSafely :
    State.reset.fault = false ∧
      ∀ c ∈ [encode (.tick 1), encode (.wrNr14 0x80), encode (.rdUnmapped 0), encode (.ramwr 0xFF30 1), encode (.ramrd 0xFF3E)],
        c.kind.toNat < 5 ∧ (3 ≤ c.kind.toNat → Config.hardware.aramBase.toNat ≤ c.addr.toNat ∧
          c.addr.toNat ≤ Config.hardware.aramBase.toNat + 14) := by decide

theorem witness_AudioRamWriteStoresTheByte :
    State.reset.fault = false ∧ State.reset.aram.wf = true ∧ aramIndex? Config.hardware 0xFF30 = some 0 ∧
      aramIndex? Config.hardware 0xFF3E = some 14 ∧ aramIndex? Config.hardware 0xFF2F = none ∧
      aramIndex? Config.hardware 0xFF3F = none := by decide

theorem witness_AudioRamReadReturnsTheByte :
    State.reset.fault = false ∧
      (Config.hardware.aramBase.toNat ≤ (0xFF3E : Addr).toNat ∧
        (0xFF3E : Addr).toNat ≤ Config.hardware.aramBase.toNat + 14) ∧
      ¬ (0xFF3F : Addr).toNat ≤ Config.hardware.aramBase.toNat + 14 := by decide

/-- A base whose window runs past the last address: no wrap. -/
theorem witness_AudioRamForEveryBase :
    State.reset.aram.wf = true ∧ aramIndex? { Config.hardware with aramBase := 0xFFF8 } 0xFFFF = some 7 ∧
      aramIndex? { Config.hardware with aramBase := 0xFFF8 } 0xFFF8 = some 0 ∧
      aramIndex? { Config.hardware with aramBase := 0xFFF8 } 0x0000 = none := by decide

theorem witness_AudioRamContentsMatterToNothingElse :
    answersNext (exec (.tick 65536) State.reset) = true ∧ answersNext (exec (.ramrd 0xFF30) State.reset) = true ∧
      answersNext (exec (.ramwr 0xFF30 1) State.reset) = true := by decide

theorem witness_NonRestartWritesOverwrite :
    State.reset.fault = false ∧ Reg.nr52 ∉ [Reg.nr11, .nr21, .nr31, .nr41] := by decide

theorem witness_LengthRegisterWriteLoadsTheCounter : State.reset.fault = false := rfl

/-- The transitions 1 to 1, 1 to 0 and 0 to 0. -/
theorem witness_RestartWriteWithoutEdgeOnlyStores :
    (regsFrom [(.nr14, 0x80)]).fault = false ∧ ((regsFrom [(.nr14, 0x80)]).nr .nr14).getLsbD 7 = true ∧
      ((0x00 : Byte)).getLsbD 7 = false ∧ State.reset.fault = false := by decide

/-- The transition 0 to 1, with an exhausted and with a running counter. -/
theorem witness_TriggerSetsEnableAndReloadsExhaustedLength :
    State.reset.fault = false ∧ (State.reset.nr .nr14).getLsbD 7 = false ∧ (0x80 : Byte).getLsbD 7 = true ∧
      State.reset.len.get .ch1 = 0 ∧ ({ State.reset with len := ⟨1, 0, 0, 0⟩ } : State).len.get .ch1 ≠ 0 := by decide

theorem witness_TriggerReloadsTheEnvelopeCountdown :
    State.reset.fault = false ∧ (State.reset.nr .nr44).getLsbD 7 = false ∧ (State.reset.nr .nr34).getLsbD 7 = false ∧
      (0x80 : Byte).getLsbD 7 = true := by decide

/-- Candidates 2046 and 2048 with period field 7 (TR5, TR4), and period field 0. -/
theorem witness_TriggerReloadsTheSweep :
    State.reset.fault = false ∧ (State.reset.nr .nr14).getLsbD 7 = false ∧ (0x83 : Byte).getLsbD 7 = true ∧
      candidateFrequency 1023 0 false = 2046 ∧ candidateFrequency 1024 0 false = 2048 := by decide

theorem witness_UnrecognizedWriteDoesNothing :
    (presenting ⟨1, 0xFF15, 1, 0⟩ State.reset).fault = false ∧
      (presenting ⟨1, 0xFF15, 1, 0⟩ State.reset).port = [PortSample.ofCommand ⟨1, 0xFF15, 1, 0⟩] ∧
      ∀ r : Reg, r.addr ≠ 0xFF15 := ⟨rfl, rfl, by intro r; cases r <;> decide⟩

theorem witness_RegisterReadReturnsTheStoredByte : State.reset.fault = false := rfl

theorem witness_UnrecognizedReadReturnsAFreeByte : State.reset.fault = false := rfl

theorem witness_WriteThenReadRoundTrip : State.reset.fault = false := rfl

theorem witness_NoteWithoutLengthControl :
    State.reset.fault = false ∧ (State.reset.nr .nr14).getLsbD 7 = false ∧ (0x80 : Byte).getLsbD 7 = true ∧
      (0x87 : Byte).getLsbD 7 = true ∧ (0x87 : Byte).getLsbD 6 = false := by decide

theorem witness_RetriggerNeedsAFallingEdge :
    (regsFrom [(.nr24, 0xC0)]).fault = false ∧ (0x80 : Byte).getLsbD 7 = true ∧ (0x00 : Byte).getLsbD 7 = false ∧
      ((regsFrom [(.nr24, 0xC0)]).nr .nr24).getLsbD 7 = true ∧ (regsFrom [(.nr24, 0xC0)]).len.get .ch2 = 0 := by decide

theorem witness_TickReducesEveryAccumulator :
    State.reset.fault = false ∧ 8192 ≤ State.reset.acc.fs + (8192 : Cycles).toNat ∧
      ¬ 8192 ≤ State.reset.acc.fs + (8191 : Cycles).toNat := by decide

theorem witness_FrameSequencerCountsModuloEight :
    State.reset.fault = false ∧ Config.hardware.pFs ≤ State.reset.acc.fs + (8192 : Cycles).toNat ∧
      ¬ Config.hardware.pFs ≤ State.reset.acc.fs + (8191 : Cycles).toNat := by decide

/-- Countdowns 2 and 1 at a clock; period field 0; no clock. -/
theorem witness_EnvelopeClockStepsTheVolume :
    (regsFrom [(.nr12, 0x8B)]).fault = false ∧
      Config.hardware.pEnv ≤ (regsFrom [(.nr12, 0x8B)]).acc.env + (65536 : Cycles).toNat ∧
      ((regsFrom [(.nr12, 0x8B)]).nr .nr12).toNat % 8 ≠ 0 ∧ 2 ≤ (2 : BitVec 3).toNat ∧ (1 : BitVec 3).toNat < 2 ∧
      ¬ Config.hardware.pEnv ≤ State.reset.acc.env + (65535 : Cycles).toNat ∧ (State.reset.nr .nr12).toNat % 8 = 0 := by
  decide

theorem witness_EnvelopePeriodZeroFreezes :
    (regsFrom [(.nr12, 0x88)]).fault = false ∧ ((regsFrom [(.nr12, 0x88)]).nr .nr12).toNat % 8 = 0 := by decide

/-- A clock that commits (SW2), one that does not (SW3), one without expiry (SW1). -/
theorem witness_SweepClockCommitsAndChecks :
    State.reset.fault = false ∧ Config.hardware.pSwp ≤ State.reset.acc.swp + (32768 : Cycles).toNat ∧
      (1 : BitVec 4).toNat < 2 ∧ candidateFrequency 1024 1 false ≤ 2047 ∧ ¬ candidateFrequency 1536 1 false ≤ 2047 ∧
      ¬ (8 : BitVec 4).toNat < 2 ∧ ¬ Config.hardware.pSwp ≤ State.reset.acc.swp + (32767 : Cycles).toNat := by decide

theorem witness_CommittedFrequencyIsTheShadow : State.reset.fault = false := rfl

theorem witness_LengthClockCountsDown :
    (regsFrom [(.nr24, 0xC0)]).fault = false ∧
      Config.hardware.pLen ≤ (regsFrom [(.nr24, 0xC0)]).acc.len + (16384 : Cycles).toNat ∧
      ((regsFrom [(.nr24, 0xC0)]).nr .nr24).getLsbD 6 = true ∧ (State.reset.nr .nr24).getLsbD 6 = false := by decide

theorem witness_EnableOnExhaustedCounterLastsOneClock :
    State.reset.fault = false ∧ State.reset.len.get .ch1 = 0 ∧ (0x40 : Byte).getLsbD 6 = true ∧
      (0x40 : Byte).getLsbD 7 = false ∧ Config.hardware.pLen ≤ State.reset.acc.len + (16384 : Cycles).toNat := by decide

/-- SW10 and S2 (b). -/
theorem witness_MachinesRunWithoutATrigger :
    let s := regsFrom [(.nr10, 0x11), (.nr13, 0x34), (.nr14, 0x05), (.nr22, 0xE9)]
    s.fault = false ∧ s.swpCd = 0 ∧ s.shadow = 0 ∧ (s.nr .nr10).toNat / 16 % 8 ≠ 0 ∧ (s.nr .nr10).toNat % 8 ≠ 0 ∧
      Config.hardware.pSwp ≤ s.acc.swp + (65536 : Cycles).toNat ∧ s.envCd.get .ch2 = 0 ∧ (s.nr .nr22).toNat % 8 ≠ 0 ∧
      Config.hardware.pEnv ≤ s.acc.env + (65536 : Cycles).toNat ∧ (s.nr .nr22).getLsbD 3 = true ∧
      (s.nr .nr22).toNat / 16 < 15 ∧ (0x11 : Byte).getLsbD 3 = false ∧ 0 < (0x11 : Byte).toNat / 16 := by decide

theorem witness_TickZeroChangesNothing :
    let s := { State.reset with acc := ⟨8191, 65535, 32767, 16383⟩ }
    s.fault = false ∧ ∀ x, s.acc.get x < Config.hardware.period x := ⟨rfl, by intro x; cases x <;> decide⟩

theorem witness_FiringOrderIsUnobservable : [SubTimer.len, .swp, .env, .fs].Perm [.fs, .env, .swp, .len] := by decide

theorem witness_ChannelOrderIsUnobservable :
    [EnvChannel.ch4, .ch1, .ch2].Perm [.ch1, .ch2, .ch4] ∧ [Channel.ch3, .ch4, .ch1, .ch2].Perm [.ch1, .ch2, .ch3, .ch4] := by
  decide

theorem witness_FineTicksLoseNoClock :
    State.reset.fault = false ∧ (∀ x, State.reset.acc.get x < Config.hardware.period x) ∧
      (∀ n ∈ [(8192 : Cycles), 3000, 1], n.toNat ≤ Config.hardware.pFs) ∧
      ∀ n ∈ [(16384 : Cycles), 8193], n.toNat ≤ Config.hardware.period .len :=
  ⟨rfl, by intro x; cases x <;> decide, by simp [Config.hardware, Config.clkHz], by simp [Config.period, Config.hardware, Config.clkHz]⟩

theorem witness_MultiFireAgreesOnFineTicks :
    (∀ x, State.reset.acc.get x < Config.hardware.period x) ∧ ∀ x, 8192 ≤ Config.hardware.period x :=
  ⟨by intro x; cases x <;> decide, by intro x; cases x <;> decide⟩

/-- 65536 and 196608 cycles from reset fire the same machines. -/
theorem witness_CoarseTickClocksEachMachineOnce :
    State.reset.fault = false ∧ ∀ x, (Config.hardware.period x ≤ State.reset.acc.get x + (65536 : Cycles).toNat ↔
      Config.hardware.period x ≤ State.reset.acc.get x + (196608 : Cycles).toNat) :=
  ⟨rfl, by intro x; cases x <;> decide⟩

theorem witness_NoteEndsAfterItsLength :
    let s := { regsFrom [(.nr34, 0xC0)] with len := ⟨0, 0, 256, 0⟩ }
    s.fault = false ∧ (s.nr .nr34).getLsbD 6 = true ∧ 1 ≤ s.len.get .ch3 := by decide

theorem witness_EnvelopeRampsEveryPeriod :
    let s := { regsFrom [(.nr12, 0x8B)] with envCd := ⟨3, 0, 0⟩ }
    s.fault = false ∧ (s.nr .nr12).toNat % 8 ≠ 0 ∧ (s.envCd.get .ch1).toNat = (s.nr .nr12).toNat % 8 := by decide

theorem witness_HostOnlyBitsChangeOnlyByWrite :
    answersNext (exec (.tick 65536) State.reset) = true ∧ (∀ b, Instr.tick 65536 ≠ .write .nr14 b) ∧
      (∀ r b, Instr.rdNr10 ≠ .write r b) ∧ ∀ n, Instr.rdNr10 ≠ .tick n :=
  ⟨by decide, by simp [Instr.write], fun r b => by cases r <;> simp [Instr.write], by simp⟩

theorem witness_HiddenStateHasOnlyItsWriters :
    answersNext (exec (.wrNr12 1) State.reset) = true ∧ (∀ n, Instr.wrNr12 1 ≠ .tick n) ∧
      (∀ b, Instr.wrNr12 1 ≠ .wrNr14 b) ∧ (∀ b, Instr.wrNr12 1 ≠ .write .nr24 b) ∧
      (∀ b, Instr.wrNr12 1 ≠ .write .nr11 b) ∧ (∀ a, Instr.wrNr12 1 ≠ .ramrd a) ∧
      (∀ a b, Instr.wrNr12 1 ≠ .ramwr a b) ∧ faulted.fault = true ∧ answersNext (step faulted) = true ∧
      ∀ v c later, faulted.port ≠ ⟨true, v, c⟩ :: later :=
  ⟨by decide, by simp, by simp, by simp [Instr.write], by simp [Instr.write], by simp, by simp, rfl, rfl,
    by simp [faulted, State.reset, State.resetWith]⟩

theorem witness_UninterpretedRegistersMatterToNothing :
    answersNext (exec .rdNr10 State.reset) = true ∧ Instr.rdNr10 ≠ .read .nr52 := by decide

end Sys2Proof.Tests
end

section
/-! PROOF. The frame sequencer (40_tick_scheduler.md R96). -/

namespace Sys2Proof.Machine

/-- On a block that has not faulted `TICK n` answers with the scheduler's state. -/
theorem exec_tick_next (n : Cycles) {s : State} (h : s.fault = false) :
    exec (.tick n) s = .next (tick Config.hardware n.toNat s).silent := by
  rw [exec_tick, State.perform_ok h]

/-- `fs_step` as a number after `TICK n` on this hardware, which raises `FS_STEP` at most once (40_tick_scheduler.md
R94, R96). -/
theorem tick_hardware_fsStep_toNat (n : Nat) (s : State) :
    (tick Config.hardware n s).fsStep.toNat =
      if Config.hardware.pFs ≤ s.acc.fs + n then (s.fsStep.toNat + 1) % 8 else s.fsStep.toNat := by
  rw [tick_fsStep, clockCount_hardware, Function.iterate_one, Config.period, apply_ite BitVec.toNat,
    BitVec.toNat_add]
  rfl

/-- Settles O35: the next state is the scheduler's, and of the four machines only `FS_STEP` writes `fs_step`. -/
theorem frameSequencerCountsModuloEight : Obligations.FrameSequencerCountsModuloEight := by
  intro n s hfault
  exact ⟨_, exec_tick_next n hfault, tick_hardware_fsStep_toNat n.toNat s⟩

end Sys2Proof.Machine
end

section
/-! PROOF. Register dispatch: writes that start no trigger, and writes to unrecognized addresses
(41_register_dispatch.md R111, R113). -/

namespace Sys2Proof.Machine

/-! ## Writes to the registers that are not restart registers -/

/-- The registers whose write never triggers: all but `NRc4` (R111, R112). -/
def nonRestart : List Reg := Reg.all.filter fun r => r ∉ [Reg.nr14, .nr24, .nr34, .nr44]

theorem ne_nrc4_of_mem_nonRestart {r : Reg} (h : r ∈ nonRestart) (c : Channel) : r ≠ c.nrc4 := by
  rintro rfl
  cases c <;> exact absurd h (by decide)

theorem Channel.nrc1_mem (c : Channel) : c.nrc1 ∈ [Reg.nr11, .nr21, .nr31, .nr41] := by
  cases c <;> decide

/-- The length registers load their counter (R117, R121, R126, R130). -/
theorem writeEffect_nrc1 (c : Channel) (b : Byte) (s : State) : writeEffect c.nrc1 b s = lengthWrite c b s := by
  cases c <;> rfl

/-- A write that starts no trigger stores the byte and replaces at most the length counters, these only at `NRc1`
(R111). -/
theorem writeEffect_nonRestart {r : Reg} (h4 : ∀ c : Channel, r ≠ c.nrc4) (b : Byte) (s : State) :
    ∃ l : LenBank, writeEffect r b s = { overwrite r b s with len := l } ∧
      ((∀ c : Channel, r ≠ c.nrc1) → l = s.len) := by
  by_cases h1 : ∃ c : Channel, r = c.nrc1
  · obtain ⟨c, rfl⟩ := h1
    exact ⟨s.len.set c (lengthField c b), writeEffect_nrc1 c b s, fun h => absurd rfl (h c)⟩
  · exact ⟨s.len, writeEffect_plain (not_exists.mp h1) h4 b s, fun _ => rfl⟩

/-- Settles O22: the 17 writes are those of `nonRestart`, and each stores its byte and replaces at most the length
counters. -/
theorem nonRestartWritesOverwrite : Obligations.NonRestartWritesOverwrite := by
  change ∀ w ∈ nonRestart.map fun r => (Instr.write r, r), _
  rw [List.forall_mem_map]
  intro r hr b s hfault
  obtain ⟨l, heffect, hlen⟩ := writeEffect_nonRestart (ne_nrc4_of_mem_nonRestart hr) b s
  have hexec : exec (.write r b) s = .next ({ overwrite r b s with len := l } : State).silent := by
    rw [exec_write, State.perform_ok hfault, heffect]
  have hregs : SameRegsBut [r] s ({ overwrite r b s with len := l } : State).silent := fun q hq =>
    State.nr_setNr_ne s b (List.ne_of_not_mem_cons hq)
  refine ⟨_, hexec, State.nr_setNr_same s r b, hregs, fun _ _ => rfl, ⟨rfl, rfl, rfl⟩, ⟨rfl, rfl⟩, fun _ => rfl,
    ⟨rfl, rfl, rfl⟩, ⟨rfl, rfl⟩, fun hr1 c _ => ?_⟩
  have hl : l = s.len := hlen fun c h => hr1 (h ▸ Channel.nrc1_mem c)
  exact congrArg (LenBank.get · c) hl

/-! ## Writes to unrecognized addresses -/

/-- Settles O28: the record decodes to `WR_UNMAPPED`, which only empties the response ports. -/
theorem unrecognizedWriteDoesNothing : Obligations.UnrecognizedWriteDoesNothing := by
  rintro s ⟨k, a, b, n⟩ later hfault hport hkind haddr
  obtain rfl : k = 1 := hkind
  have hdecode : decode ⟨1, a, b, n⟩ = .ok (.wrUnmapped a b) := decode_wrUnmapped (Reg.ofAddr_eq_none.mpr haddr) b n
  have hexec : exec (.wrUnmapped a b) { s with port := later } = .next { s with port := later, rsp := ⟨none, none⟩ } :=
    State.perform_ok (s := { s with port := later }) hfault State.silent
  exact ⟨hdecode, hexec, (step_command hport hdecode).trans hexec⟩

end Sys2Proof.Machine
end

section
/-! PROOF. The envelope with period field 0 (42_envelope.md R152). -/

namespace Sys2Proof.Machine

theorem envPeriod_eq_zero_iff (v : Byte) : envPeriod v = 0 ↔ v.toNat % 8 = 0 := by
  rw [← envPeriod_toNat]
  exact BitVec.toNat_inj.symm

/-- Period field 0 stops the envelope's clock (R152). -/
theorem envNext_of_period_zero {v : BitVec 3 × Byte} (hp : v.2.toNat % 8 = 0) : envNext v = v :=
  if_pos ((envPeriod_eq_zero_iff v.2).mpr hp)

/-- With period field 0 a `TICK` changes nothing the envelope owns, whether it clocks the envelope or not. -/
theorem tick_envView_of_period_zero (c : EnvChannel) (n : Nat) {s : State} (hp : (s.nr c.nrc2).toNat % 8 = 0) :
    (tick Config.hardware n s).envView c = s.envView c := by
  rw [hardware_envView, envNext_of_period_zero hp, ite_self]

/-- The induction over the ticks: each keeps the view, so the period field is 0 again for the next. -/
theorem ticks_envView_of_period_zero (c : EnvChannel) (ns : List Cycles) {s : State}
    (hp : (s.nr c.nrc2).toNat % 8 = 0) : (ticks ns s).envView c = s.envView c := by
  induction ns generalizing s with
  | nil => rfl
  | cons n ns ih =>
    have hview : (tick Config.hardware n.toNat s).silent.envView c = s.envView c := by
      rw [State.silent_envView, tick_envView_of_period_zero c n.toNat hp]
    have hreg : (tick Config.hardware n.toNat s).silent.nr c.nrc2 = s.nr c.nrc2 := congrArg Prod.snd hview
    rw [ticks, List.foldl_cons, ← ticks, ih (by rw [hreg, hp]), hview]

/-- Settles O37: the run ends in the state of `ticks`, whose envelope view, countdown and register, is the initial one. -/
theorem envelopePeriodZeroFreezes : Obligations.EnvelopePeriodZeroFreezes := by
  change ∀ w ∈ [EnvChannel.ch1, .ch2, .ch4].map fun c => (c, c.nrc2), _
  rw [List.forall_mem_map]
  intro c _ ns s hfault hperiod
  obtain ⟨hcd, hreg⟩ := Prod.ext_iff.mp (ticks_envView_of_period_zero c ns hperiod)
  exact ⟨_, runsTo_ticks ns s hfault, hreg, hcd⟩

end Sys2Proof.Machine
end

section
/-! PROOF. Restart writes that trigger: length enable and length counter, envelope countdown, and the frame
(45_trigger.md R190 to R192). -/

namespace Sys2Proof

/-- The channel an envelope belongs to. -/
def EnvChannel.channel : EnvChannel → Channel
  | .ch1 => .ch1
  | .ch2 => .ch2
  | .ch4 => .ch4

theorem EnvChannel.envelope?_channel (e : EnvChannel) : e.channel.envelope? = some e := by
  cases e <;> rfl

end Sys2Proof

namespace Sys2Proof.Machine

/-! ## A write that triggers -/

/-- The trigger runs on the registers as just written (41_register_dispatch.md R112). -/
theorem exec_restartWrite_edge {c : Channel} {b : Byte} {s : State} (hfault : s.fault = false)
    (hold : (s.nr c.nrc4).getLsbD 7 = false) (hnew : b.getLsbD 7 = true) :
    exec (.write c.nrc4 b) s = .next (trigger c (overwrite c.nrc4 b s)).silent := by
  rw [exec_restartWrite, State.perform_ok hfault, restartWrite_edge hold hnew]

/-- The registers after a write that triggers: the byte with bit 6 set, nothing else (R192). -/
theorem trigger_overwrite_nr (c : Channel) (b : Byte) (s : State) (r : Reg) :
    (trigger c (overwrite c.nrc4 b s)).nr r = if r = c.nrc4 then b ||| 0x40 else s.nr r := by
  rw [(trigger_spec c _).nr, overwrite, State.nr_setNr_same, Byte.setBit_six_true]
  exact ite_congr rfl (fun _ => rfl) (State.nr_setNr_ne s b)

theorem trigger_overwrite_nrc4 (c : Channel) (b : Byte) (s : State) :
    (trigger c (overwrite c.nrc4 b s)).nr c.nrc4 = b ||| 0x40 := by
  rw [trigger_overwrite_nr, if_pos rfl]

theorem trigger_overwrite_nr_ne (b : Byte) (s : State) {c : Channel} {r : Reg} (h : r ≠ c.nrc4) :
    (trigger c (overwrite c.nrc4 b s)).nr r = s.nr r := by
  rw [trigger_overwrite_nr, if_neg h]

/-! ## Length enable and length counter (R192) -/

/-- `LENMAX(c)` as the rule writes it. -/
theorem lengthMax_eq (c : Channel) : lengthMax c = if c = .ch3 then 256 else 63 := by
  cases c <;> rfl

/-- A triggered counter is reloaded only if it is exhausted. -/
theorem trigger_len_same (c : Channel) (s : State) :
    (trigger c s).len.get c = if s.len.get c = 0 then (if c = .ch3 then 256 else 63) else s.len.get c := by
  simp only [(trigger_spec c s).len, true_and, lengthMax_eq]

theorem trigger_len_ne (s : State) {c x : Channel} (h : x ≠ c) : (trigger c s).len.get x = s.len.get x := by
  rw [(trigger_spec c s).len, if_neg fun hx => h hx.1]

/-- Only channel 1 reloads the sweep (R190). -/
theorem trigger_sameSweep (s : State) {c : Channel} (h : c ≠ .ch1) : SameSweep s (trigger c s) := by
  have spec := trigger_spec c s
  exact ⟨spec.swpCd.trans (if_neg h), spec.shadow.trans (if_neg h), spec.swpEn.trans (if_neg h)⟩

/-- Settles O25: the write ends in `trigger` of the overwritten state, and `trigger_spec` gives every field of it. -/
theorem triggerSetsEnableAndReloadsExhaustedLength : Obligations.TriggerSetsEnableAndReloadsExhaustedLength := by
  change ∀ w ∈ [Channel.ch1, .ch2, .ch3, .ch4].map fun c => (Instr.write c.nrc4, c.nrc4, c), _
  rw [List.forall_mem_map]
  intro c _ b s hfault hold hnew
  have spec := trigger_spec c (overwrite c.nrc4 b s)
  refine ⟨_, exec_restartWrite_edge hfault hold hnew, trigger_overwrite_nrc4 c b s, trigger_len_same c _, ?regs, ?len,
    fun hc => trigger_sameSweep _ hc, ⟨spec.acc, spec.fsStep⟩, ?aram, ⟨spec.fault, spec.port, spec.draws⟩, rfl, rfl⟩
  case regs => exact fun r hr => trigger_overwrite_nr_ne b s (List.ne_of_not_mem_cons hr)
  case len => exact fun x hx => trigger_len_ne _ (List.ne_of_not_mem_cons hx)
  case aram => exact fun o => congrArg (Memory.read · o) spec.aram

/-! ## Envelope countdown (R191) -/

/-- An envelope register is no restart register. -/
theorem nrc2_ne_nrc4 (e : EnvChannel) (c : Channel) : e.nrc2 ≠ c.nrc4 := by
  cases e <;> cases c <;> decide

/-- The countdowns after a write that triggers; the period is read from `NRc2`, which the write does not touch. -/
theorem trigger_overwrite_envCd (c : Channel) (b : Byte) (s : State) (e : EnvChannel) :
    (trigger c (overwrite c.nrc4 b s)).envCd.get e =
      if c.envelope? = some e then envPeriod (s.nr e.nrc2) else s.envCd.get e := by
  rw [(trigger_spec c _).envCd, overwrite, State.nr_setNr_ne s b (nrc2_ne_nrc4 e c), State.setNr_envCd]

/-- Settles O26: a channel's trigger reloads the countdown of its own envelope, and channel 3 has none. -/
theorem triggerReloadsTheEnvelopeCountdown : Obligations.TriggerReloadsTheEnvelopeCountdown := by
  constructor
  · change ∀ w ∈ [EnvChannel.ch1, .ch2, .ch4].map fun e => (Instr.write e.channel.nrc4, e.channel.nrc4, e.nrc2, e), _
    rw [List.forall_mem_map]
    intro e _ b s hfault hold hnew
    have henv (x : EnvChannel) : (trigger e.channel (overwrite e.channel.nrc4 b s)).envCd.get x =
        if e = x then envPeriod (s.nr x.nrc2) else s.envCd.get x := by
      simp only [trigger_overwrite_envCd, EnvChannel.envelope?_channel, Option.some.injEq]
    refine ⟨_, exec_restartWrite_edge hfault hold hnew, ?reload, trigger_overwrite_nr_ne b s (nrc2_ne_nrc4 e _), ?others⟩
    case reload => rw [State.silent_envCd, henv, if_pos rfl, envPeriod_toNat]
    case others => exact fun x hx => (henv x).trans (if_neg (List.ne_of_not_mem_cons hx).symm)
  · intro b s hfault hold hnew
    exact ⟨_, exec_restartWrite_edge (c := .ch3) hfault hold hnew, fun x _ =>
      (trigger_overwrite_envCd .ch3 b s x).trans (if_neg nofun)⟩

end Sys2Proof.Machine
end

section
/-! PROOF. Audio RAM is reached by RAMRD and RAMWR only, and its contents affect no other state (46_audio_ram.md R200). -/

namespace Sys2Proof.Machine

/-! ## Effects that do not reach Audio RAM -/

/-- The effect neither reads nor writes Audio RAM: whatever bytes stand there, it does the same around them. -/
def LeavesAramAlone (effect : State → State) : Prop :=
  ∀ s m, effect (s.withAram m) = (effect s).withAram m

theorem restartWrite_leavesAramAlone (c : Channel) (b : Byte) : LeavesAramAlone (restartWrite c b) := by
  intro s m
  have htrigger : trigger c (overwrite c.nrc4 b (s.withAram m)) = (trigger c (overwrite c.nrc4 b s)).withAram m :=
    trigger_withAram c (overwrite c.nrc4 b s) m
  have hedge : restartEdge ((s.withAram m).nr c.nrc4) b = restartEdge (s.nr c.nrc4) b := rfl
  unfold restartWrite
  rw [hedge, htrigger]
  split <;> rfl

/-- Every `WR`: it stores a byte and perhaps a length, or it triggers. -/
theorem writeEffect_leavesAramAlone (r : Reg) (b : Byte) : LeavesAramAlone (writeEffect r b) := by
  cases r with
  | nr14 => exact restartWrite_leavesAramAlone .ch1 b
  | nr24 => exact restartWrite_leavesAramAlone .ch2 b
  | nr34 => exact restartWrite_leavesAramAlone .ch3 b
  | nr44 => exact restartWrite_leavesAramAlone .ch4 b
  | _ => exact fun _ _ => rfl

theorem LeavesAramAlone.silent {effect : State → State} (h : LeavesAramAlone effect) :
    LeavesAramAlone fun s => (effect s).silent := fun s m => congrArg State.silent (h s m)

/-! ## Every command's effect under other contents -/

/-- What other Audio RAM contents make of a command's effect: the same state but for Audio RAM and the response, and of
these Audio RAM only by RAMWR and the response only by RAMRD. -/
def AramShowsOnlyByItsCommands (i : Instr) (effect : State → State) : Prop :=
  ∀ s m, ∃ m' x, effect (s.withAram m) = ((effect s).withAram m').withRsp x ∧
    ((∀ a b, i ≠ .ramwr a b) → m' = m) ∧ ((∀ a, i ≠ .ramrd a) → x = (effect s).rsp)

theorem LeavesAramAlone.showsOnlyByItsCommands {effect : State → State} (h : LeavesAramAlone effect) (i : Instr) :
    AramShowsOnlyByItsCommands i effect := fun s m => ⟨m, (effect s).rsp, h s m, fun _ => rfl, fun _ => rfl⟩

theorem aramWrite_showsOnlyByItsCommands (cfg : Config) (a : Addr) (b : Byte) :
    AramShowsOnlyByItsCommands (.ramwr a b) (aramWrite cfg a b) := by
  intro s m
  cases h : aramIndex? cfg a with
  | some o =>
    simp only [aramWrite_some h]
    exact ⟨m.write o b, _, rfl, fun hne => absurd rfl (hne a b), fun _ => rfl⟩
  | none =>
    simp only [aramWrite_none h]
    exact ⟨m, _, rfl, fun _ => rfl, fun _ => rfl⟩

theorem aramRead_showsOnlyByItsCommands (cfg : Config) (a : Addr) :
    AramShowsOnlyByItsCommands (.ramrd a) (aramRead cfg a) := by
  intro s m
  cases h : aramIndex? cfg a with
  | some o =>
    simp only [aramRead_some h]
    exact ⟨m, ⟨some (m.read o), none⟩, rfl, fun _ => rfl, fun hne => absurd rfl (hne a)⟩
  | none =>
    simp only [aramRead_none h]
    exact ⟨m, _, rfl, fun _ => rfl, fun _ => rfl⟩

/-- Every command is performed as an effect that shows Audio RAM only by RAMRD and RAMWR. -/
theorem exec_performs_aramShowsOnlyByItsCommands (i : Instr) :
    ∃ effect, (∀ s, exec i s = s.perform effect) ∧ AramShowsOnlyByItsCommands i effect := by
  induction i using Instr.family_cases with
  | write r b => exact ⟨_, exec_write r b, (writeEffect_leavesAramAlone r b).silent.showsOnlyByItsCommands _⟩
  | read r => exact ⟨_, exec_read r, LeavesAramAlone.showsOnlyByItsCommands (fun _ _ => rfl) _⟩
  | tick n =>
    exact ⟨_, exec_tick n, (LeavesAramAlone.silent (tick_withAram Config.hardware n.toNat)).showsOnlyByItsCommands _⟩
  | wrUnmapped a b => exact ⟨_, exec_wrUnmapped a b, LeavesAramAlone.showsOnlyByItsCommands (fun _ _ => rfl) _⟩
  | rdUnmapped a => exact ⟨_, exec_rdUnmapped a, LeavesAramAlone.showsOnlyByItsCommands (fun _ _ => rfl) _⟩
  | ramwr a b => exact ⟨_, exec_ramwr a b, aramWrite_showsOnlyByItsCommands Config.hardware a b⟩
  | ramrd a => exact ⟨_, exec_ramrd a, aramRead_showsOnlyByItsCommands Config.hardware a⟩

/-- Only RAMWR writes Audio RAM: under the contents the state already has, the effect is itself with those contents. -/
theorem AramShowsOnlyByItsCommands.aram {i : Instr} {effect : State → State} (h : AramShowsOnlyByItsCommands i effect)
    (hi : ∀ a b, i ≠ .ramwr a b) (s : State) : (effect s).aram = s.aram := by
  obtain ⟨m', x, heffect, haram, -⟩ := h s s.aram
  exact (congrArg State.aram heffect).trans (haram hi)

/-- Settles O21: the command's effect shows Audio RAM only by RAMRD and RAMWR. -/
theorem audioRamContentsMatterToNothingElse : Obligations.AudioRamContentsMatterToNothingElse := by
  intro i s t m hexec
  obtain ⟨effect, hperform, hshows⟩ := exec_performs_aramShowsOnlyByItsCommands i
  rw [hperform, State.perform_next] at hexec
  obtain ⟨hfault, rfl⟩ := hexec
  obtain ⟨m', x, hother, -, hrsp⟩ := hshows s m
  refine ⟨⟨rfl, fun _ _ => aramIndex?_lt⟩, fun hi => hshows.aram hi s, ((effect s).withAram m').withRsp x, ?_, rfl, hrsp⟩
  rw [hperform, State.perform_ok (s := s.withAram m) hfault, hother]

end Sys2Proof.Machine
end

section
/-! PROOF. Restart writes without a trigger, and what a write and its successor do to length enable and trigger
(70_reset_and_hazards.md R233, R239, R240). -/

namespace Sys2Proof.Machine

/-- A claim about the four restart registers is a claim about every channel. -/
theorem forall_restartRegister {P : (Byte → Instr) × Reg × Channel → Prop}
    (h : ∀ c : Channel, P (Instr.write c.nrc4, c.nrc4, c)) :
    ∀ w ∈ [(Instr.wrNr14, Reg.nr14, Channel.ch1), (Instr.wrNr24, Reg.nr24, Channel.ch2),
      (Instr.wrNr34, Reg.nr34, Channel.ch3), (Instr.wrNr44, Reg.nr44, Channel.ch4)], P w := by
  change ∀ w ∈ [Channel.ch1, .ch2, .ch3, .ch4].map fun c => (Instr.write c.nrc4, c.nrc4, c), P w
  rw [List.forall_mem_map]
  exact fun c _ => h c

/-! ## A write that only stores (41_register_dispatch.md R112) -/

/-- Without a 0 to 1 transition of bit 7 nothing runs after the store. -/
theorem exec_restartWrite_plain {c : Channel} {b : Byte} {s : State} (hfault : s.fault = false)
    (hnoEdge : (s.nr c.nrc4).getLsbD 7 = true ∨ b.getLsbD 7 = false) :
    exec (.write c.nrc4 b) s = .next (overwrite c.nrc4 b s).silent := by
  rw [exec_restartWrite, State.perform_ok hfault, restartWrite_plain hnoEdge]

/-- All but register `r` and the response is as before. -/
def OnlyRegisterDiffers (r : Reg) (s t : State) : Prop :=
  SameRegsBut [r] s t ∧ SameLenBut [] s t ∧ SameEnvCdBut [] s t ∧ SameSweep s t ∧ SameTimers s t ∧ SameAram s t ∧
    SameRest s t

/-- A store changes its own register only. -/
theorem overwrite_silent_onlyRegisterDiffers (r : Reg) (b : Byte) (s : State) :
    OnlyRegisterDiffers r s (overwrite r b s).silent :=
  ⟨fun _ hq => State.nr_setNr_ne s b (List.ne_of_not_mem_cons hq), fun _ _ => rfl, fun _ _ => rfl, ⟨rfl, rfl, rfl⟩,
    ⟨rfl, rfl⟩, fun _ => rfl, rfl, rfl, rfl⟩

theorem overwrite_silent_nr_same (r : Reg) (b : Byte) (s : State) : (overwrite r b s).silent.nr r = b :=
  State.nr_setNr_same s r b

/-! ## A note without length control (R239) -/

/-- Settles O32: the trigger sets bit 6 and keeps bit 7 at 1, so the second write meets no transition. -/
theorem noteWithoutLengthControl : Obligations.NoteWithoutLengthControl := by
  refine forall_restartRegister fun c b b' s hfault hold hnew hb7 hb6 => ?_
  let t : State := (trigger c (overwrite c.nrc4 b s)).silent
  have hreg : t.nr c.nrc4 = b ||| 0x40 := trigger_overwrite_nrc4 c b s
  have henable : (t.nr c.nrc4).getLsbD 6 = true := by rw [hreg]; simp
  have hrestart : (t.nr c.nrc4).getLsbD 7 = true := by rw [hreg]; simp [hnew]
  have hfault' : t.fault = false := (trigger_spec c _).fault.trans hfault
  have hstored : (overwrite c.nrc4 b' t).silent.nr c.nrc4 = b' := overwrite_silent_nr_same c.nrc4 b' t
  exact ⟨t, _, exec_restartWrite_edge hfault hold hnew, henable,
    exec_restartWrite_plain hfault' (.inl hrestart), hstored, (congrArg (·.getLsbD 6) hstored).trans hb6,
    overwrite_silent_onlyRegisterDiffers c.nrc4 b' t⟩

/-! ## Triggering again (R233) -/

/-- The trigger of channel 1 loads `shadow` from NR13 and the three low bits of the byte just written (45_trigger.md
R193). -/
theorem trigger_overwrite_shadow_toNat (b : Byte) (s : State) :
    (trigger .ch1 (overwrite .nr14 b s)).shadow.toNat = 256 * (b.toNat % 8) + (s.nr .nr13).toNat := by
  rw [(trigger_spec .ch1 _).shadow, if_pos rfl, State.liveFrequency_toNat, overwrite, State.nr_setNr_same,
    State.nr_setNr_ne s b (by decide)]

/-- Settles O33: with bit 7 at 1 the write only stores; after `z` bit 7 is 0, so the write of `b` triggers on registers,
counters and countdowns that `z` left alone. -/
theorem retriggerNeedsAFallingEdge : Obligations.RetriggerNeedsAFallingEdge := by
  refine forall_restartRegister fun c b z s hfault hb7 hz7 => ⟨fun hrestart => ?_, ?_⟩
  · have hstored : (overwrite c.nrc4 b s).silent.nr c.nrc4 = b := overwrite_silent_nr_same c.nrc4 b s
    exact ⟨_, exec_restartWrite_plain hfault (.inl hrestart), hstored, (congrArg (·.getLsbD 7) hstored).trans hb7,
      overwrite_silent_onlyRegisterDiffers c.nrc4 b s⟩
  · let t : State := (overwrite c.nrc4 z s).silent
    have hfell : (t.nr c.nrc4).getLsbD 7 = false :=
      (congrArg (·.getLsbD 7) (overwrite_silent_nr_same c.nrc4 z s)).trans hz7
    refine ⟨t, _, exec_restartWrite_plain hfault (.inr hz7), exec_restartWrite_edge (s := t) hfault hfell hb7,
      trigger_overwrite_nrc4 c b t, trigger_len_same c _, fun e he => ?envelope, fun hc => ?shadow⟩
    case envelope =>
      have hnrc2 : t.nr e.nrc2 = s.nr e.nrc2 := State.nr_setNr_ne s z (nrc2_ne_nrc4 e c)
      rw [State.silent_envCd, trigger_overwrite_envCd, if_pos he, hnrc2, envPeriod]
    case shadow =>
      obtain rfl : c = .ch1 := hc
      have hnr13 : t.nr .nr13 = s.nr .nr13 := State.nr_setNr_ne s (r := .nr14) z (by decide)
      exact (trigger_overwrite_shadow_toNat b t).trans (by rw [hnr13])

/-! ## Length enable without a trigger (R240) -/

/-- An exhausted counter clears its enable bit at the next clock and stays exhausted (44_length.md R181). -/
theorem lenNext_exhausted (enabled : Bool) : lenNext (0, enabled) = (0, false) := by
  cases enabled <;> rfl

/-- The length view after a store to `NRc4`: the same counter, enabled as the byte says. -/
theorem overwrite_nrc4_lenView (c : Channel) (b : Byte) (s : State) :
    (overwrite c.nrc4 b s).lenView c = (s.len.get c, b.getLsbD 6) :=
  Prod.ext rfl (congrArg (·.getLsbD 6) (State.nr_setNr_same s c.nrc4 b))

/-- Settles O41: the store leaves the counter exhausted, and the length clock that `TICK` raises clears bit 6. -/
theorem enableOnExhaustedCounterLastsOneClock : Obligations.EnableOnExhaustedCounterLastsOneClock := by
  refine forall_restartRegister fun c b n s hfault hlen hb6 hnoEdge hclock => ?_
  let t : State := (overwrite c.nrc4 b s).silent
  have hbefore : t.lenView c = (s.len.get c, b.getLsbD 6) := overwrite_nrc4_lenView c b s
  have hafter : (tick Config.hardware n.toNat t).silent.lenView c = (0, false) := by
    have hclock' : Config.hardware.pLen ≤ t.acc.len + n.toNat := hclock
    have hlen' : s.len.get c = 0 := hlen
    rw [State.silent_lenView, hardware_lenView, if_pos hclock', hbefore, hlen', lenNext_exhausted]
  obtain ⟨hlen', henable'⟩ := Prod.ext_iff.mp hafter
  exact ⟨t, _, exec_restartWrite_plain hfault hnoEdge, (congrArg Prod.snd hbefore).trans hb6,
    exec_tick_next (s := t) n hfault, henable', hlen'⟩

end Sys2Proof.Machine
end

section
/-! PROOF. The sweep and the envelope run without a trigger (70_reset_and_hazards.md R241). -/

namespace Sys2Proof.Machine

/-- Frequency 0 is its own sweep candidate, whatever the shift and the direction (43_sweep.md R161). -/
theorem sweepCalc_zero (sh : Nat) (neg : Bool) : sweepCalc 0 sh neg = 0 := by
  cases neg <;> simp [sweepCalc]

/-- An expiry with `shadow = 0` and non-zero period and shift commits frequency 0 (43_sweep.md R163). -/
theorem sweepNext_commits_zero {nr10 : Byte} {v : SweepView} (hcd : v.cd.toNat < 2) (hshadow : v.shadow = 0)
    (hperiod : nr10.field 4 3 ≠ 0) (hshift : nr10.field 0 3 ≠ 0) :
    (sweepNext nr10 v).shadow = 0 ∧ (sweepNext nr10 v).low = 0 ∧ (sweepNext nr10 v).high = 0 := by
  have hcand : sweepCalc v.shadow.toNat (nr10.field 0 3).toNat (nr10.bit 3) = 0 := by
    rw [hshadow]; exact sweepCalc_zero _ _
  simp only [sweepNext, Nat.not_le.mpr hcd, hperiod, hcand, if_false]
  rw [if_pos ⟨Nat.zero_le _, hshift⟩]
  exact ⟨rfl, rfl, rfl⟩

/-- A `TICK` that clocks the sweep at countdown 0 or 1 with `shadow = 0` erases the frequency. -/
theorem tick_erases_frequency {n : Nat} {s : State} (hcd : s.swpCd.toNat < 2) (hshadow : s.shadow = 0)
    (hperiod : (s.nr .nr10).toNat / 16 % 8 ≠ 0) (hshift : (s.nr .nr10).toNat % 8 ≠ 0)
    (hclock : Config.hardware.pSwp ≤ s.acc.swp + n) :
    (tick Config.hardware n s).nr .nr13 = 0 ∧ ((tick Config.hardware n s).nr .nr14).toNat % 8 = 0 ∧
      (tick Config.hardware n s).shadow = 0 := by
  have hview : (tick Config.hardware n s).sweepView = sweepNext (s.nr .nr10) s.sweepView := by
    rw [hardware_sweepView, if_pos hclock]
  have hperiod' : s.sweepPeriod ≠ 0 := fun h => hperiod (by rw [← State.sweepPeriod_toNat, h]; rfl)
  have hshift' : s.sweepShift ≠ 0 := fun h => hshift (by rw [← State.sweepShift_toNat, h]; rfl)
  obtain ⟨hzero, hlow, hhigh⟩ := sweepNext_commits_zero (v := s.sweepView) hcd hshadow hperiod' hshift'
  rw [← hview] at hzero hlow hhigh
  have hhigh' : (((tick Config.hardware n s).nr .nr14).field 0 3).toNat = 0 := congrArg BitVec.toNat hhigh
  exact ⟨hlow, (Byte.field_low _ 3).symm.trans hhigh', hzero⟩

/-- A `TICK` that clocks the envelope at countdown 0 or 1 with a non-zero period steps the volume (42_envelope.md
R151). -/
theorem tick_steps_volume {c : EnvChannel} {n : Nat} {s : State} (hcd : (s.envCd.get c).toNat < 2)
    (hperiod : (s.nr c.nrc2).toNat % 8 ≠ 0) (hclock : Config.hardware.pEnv ≤ s.acc.env + n) :
    ((tick Config.hardware n s).nr c.nrc2).toNat / 16 =
      if (s.nr c.nrc2).getLsbD 3 then min 15 ((s.nr c.nrc2).toNat / 16 + 1) else (s.nr c.nrc2).toNat / 16 - 1 := by
  have hview : (tick Config.hardware n s).envView c = envNext (s.envView c) := by
    rw [hardware_envView, if_pos hclock]
  have hreg : (tick Config.hardware n s).nr c.nrc2 = (envNext (s.envView c)).2 := congrArg Prod.snd hview
  obtain ⟨-, -, hvolume⟩ := envNext_toNat (s.envView c) hperiod hcd
  rw [hreg, hvolume]
  rfl

/-- Settles O42: a countdown of 0 expires at the first clock, for the sweep and for each envelope. -/
theorem machinesRunWithoutATrigger : Obligations.MachinesRunWithoutATrigger := by
  refine fun n s hfault => ⟨fun hcd hshadow hperiod hshift hclock => ?sweep, ?envelope⟩
  case sweep =>
    have hcd' : s.swpCd.toNat < 2 := by rw [hcd]; decide
    refine ⟨_, exec_tick_next n hfault, ?_⟩
    simpa only [State.nr_silent, State.silent_shadow] using tick_erases_frequency hcd' hshadow hperiod hshift hclock
  case envelope =>
    change ∀ w ∈ [EnvChannel.ch1, .ch2, .ch4].map fun c => (c, c.nrc2), _
    rw [List.forall_mem_map]
    intro c _ hcd hperiod hclock
    have hcd' : (s.envCd.get c).toNat < 2 := by rw [show s.envCd.get c = 0 from hcd]; decide
    have hvolume := tick_steps_volume hcd' hperiod hclock
    refine ⟨_, exec_tick_next n hfault, fun hup hlt => ?_, fun hdown hpos => ?_⟩
    · rw [State.nr_silent, hvolume, if_pos hup]
      exact Nat.min_eq_right hlt
    · rw [State.nr_silent, hvolume, if_neg (ne_true_of_eq_false hdown)]
      exact Nat.sub_add_cancel hpos

end Sys2Proof.Machine
end

section
/-! PROOF. The decoder: its round trip with the encoder, and its agreement with the opcode table
(30_encoding.md R60 to R66). -/

namespace Sys2Proof

/-! ## Round trip with the encoder -/

/-- Settles O1: for each family of commands the record is the one its decoding lemma reads. -/
theorem decodeInvertsEncode : Obligations.DecodeInvertsEncode := by
  intro i hwf
  induction i using Instr.family_cases with
  | write r b => rw [encode_write, decode_write]
  | read r => rw [encode_read, decode_read]
  | tick n => exact decode_tick 0 0 n
  | wrUnmapped a b => exact decode_wrUnmapped (Option.isNone_iff_eq_none.mp hwf) b 0
  | rdUnmapped a => exact decode_rdUnmapped (Option.isNone_iff_eq_none.mp hwf) 0 0
  | ramwr a b => exact decode_ramwr a b 0
  | ramrd a => exact decode_ramrd a 0 0

/-- Settles O2: one case per way a record can decode; in each the record encoded again is known. -/
theorem decodedCommandKeepsItsUsedFields : Obligations.DecodedCommandKeepsItsUsedFields := by
  rintro ⟨k, a, b, n⟩ i hdecode
  obtain ⟨rfl, rfl⟩ | ⟨rfl, r, rfl, rfl⟩ | ⟨rfl, ha, rfl⟩ | ⟨rfl, r, rfl, rfl⟩ | ⟨rfl, ha, rfl⟩ | ⟨rfl, rfl⟩ |
    ⟨rfl, rfl⟩ := decode_cases hdecode
  · exact ⟨rfl, rfl, fun h => absurd rfl h, by simp, fun _ => rfl⟩
  · exact ⟨Instr.wellFormed_write r b, by simp [encode_write]⟩
  · exact ⟨Option.isNone_iff_eq_none.mpr ha, rfl, fun _ => rfl, fun _ => rfl, by simp⟩
  · exact ⟨Instr.wellFormed_read r, by simp [encode_read]⟩
  · exact ⟨Option.isNone_iff_eq_none.mpr ha, rfl, fun _ => rfl, by simp, by simp⟩
  · exact ⟨rfl, rfl, fun _ => rfl, fun _ => rfl, by simp⟩
  · exact ⟨rfl, rfl, fun _ => rfl, by simp, by simp⟩

/-- Settles O4: the branch of each kind names only the fields that kind uses. -/
theorem unusedFieldsAreIgnored : Obligations.UnusedFieldsAreIgnored := by
  intro a b n
  exact ⟨(decode_tick a b n).trans (decode_tick 0 0 n).symm, rfl, rfl,
    (decode_ramwr a b n).trans (decode_ramwr a b 0).symm, (decode_ramrd a b n).trans (decode_ramrd a 0 0).symm⟩

/-- Settles O5: each record is at a known register address, at an unrecognized one, or of a kind without registers. -/
theorem specRecordsDecode : Obligations.SpecRecordsDecode :=
  ⟨decode_write .nr14 _ _, decode_write .nr21 _ _, decode_tick _ _ _, decode_read .nr12 _ _, decode_ramwr _ _ _,
    decode_ramrd _ _ _, decode_wrUnmapped rfl _ _, decode_rdUnmapped rfl _ _, rfl⟩

/-! ## The exact rows -/

/-- The `WR` row of a register. -/
def OpcodeRow.writeRow (r : Reg) : OpcodeRow := ⟨0x7FFFF, (1 : Kind) ++ r.addr, fun c => .write r c.data⟩

/-- The `RD` row of a register. -/
def OpcodeRow.readRow (r : Reg) : OpcodeRow := ⟨0x7FFFF, (2 : Kind) ++ r.addr, fun _ => .read r⟩

theorem OpcodeRow.exact_eq_rows : OpcodeRow.exact = Reg.all.map OpcodeRow.writeRow ++ Reg.all.map OpcodeRow.readRow :=
  OpcodeRow.exact_eq

theorem OpcodeRow.writeRow_matches (r : Reg) (k : Kind) (a : Addr) :
    (OpcodeRow.writeRow r).matches (k ++ a) = (k == 1 && r.addr == a) := by
  rw [OpcodeRow.writeRow, OpcodeRow.matches_exact, Bool.beq_comm (a := a)]

theorem OpcodeRow.readRow_matches (r : Reg) (k : Kind) (a : Addr) :
    (OpcodeRow.readRow r).matches (k ++ a) = (k == 2 && r.addr == a) := by
  rw [OpcodeRow.readRow, OpcodeRow.matches_exact, Bool.beq_comm (a := a)]

/-- The first exact row that matches: the register's `WR` row for kind 1, its `RD` row for kind 2. -/
theorem OpcodeRow.find?_exact (k : Kind) (a : Addr) :
    OpcodeRow.exact.find? (fun row => row.matches (k ++ a)) =
      if k = 1 then (Reg.ofAddr a).map OpcodeRow.writeRow
      else if k = 2 then (Reg.ofAddr a).map OpcodeRow.readRow else none := by
  have hnone : Reg.all.find? (fun _ => false) = none := rfl
  rw [OpcodeRow.exact_eq_rows, List.find?_append, List.find?_map, List.find?_map]
  simp only [Function.comp_def, OpcodeRow.writeRow_matches, OpcodeRow.readRow_matches]
  by_cases h1 : k = 1
  · subst h1
    rw [if_pos rfl, Reg.ofAddr, show ((1 : Kind) == 2) = false from rfl]
    simp [hnone]
  · rw [if_neg h1, beq_false_of_ne h1]
    by_cases h2 : k = 2
    · subst h2
      rw [if_pos rfl, Reg.ofAddr]
      simp [hnone]
    · rw [if_neg h2, beq_false_of_ne h2]
      simp [hnone]

/-- No two registers share an address, so at most one of the 21 stands at `a`. -/
theorem Reg.countP_addr_le_one (a : Addr) : Reg.all.countP (fun r => r.addr == a) ≤ 1 := by
  have hnodup : (Reg.all.map Reg.addr).Nodup := by decide
  have hcount := List.nodup_iff_count_le_one.mp hnodup a
  rwa [List.count, List.countP_map] at hcount

/-- At most one exact row matches a selector: its kind picks the `WR` or the `RD` rows, its address one of these. -/
theorem OpcodeRow.exact_matches_le_one (k : Kind) (a : Addr) :
    (OpcodeRow.exact.filter fun row => row.matches (k ++ a)).length ≤ 1 := by
  rw [← List.countP_eq_length_filter, OpcodeRow.exact_eq_rows, List.countP_append, List.countP_map, List.countP_map]
  simp only [Function.comp_def, OpcodeRow.writeRow_matches, OpcodeRow.readRow_matches]
  have hone := Reg.countP_addr_le_one a
  by_cases h1 : k = 1
  · subst h1
    simpa using hone
  · rw [beq_false_of_ne h1]
    by_cases h2 : k = 2
    · subst h2
      simpa using hone
    · rw [beq_false_of_ne h2]
      simp

/-! ## The rows with any address -/

/-- The five rows, each with its kind. -/
theorem OpcodeRow.byKind_eq : OpcodeRow.byKind =
    [⟨0x70000, (0 : Kind) ++ (0 : Addr), fun c => .tick c.cycles⟩,
     ⟨0x70000, (1 : Kind) ++ (0 : Addr), fun c => .wrUnmapped c.addr c.data⟩,
     ⟨0x70000, (2 : Kind) ++ (0 : Addr), fun c => .rdUnmapped c.addr⟩,
     ⟨0x70000, (3 : Kind) ++ (0 : Addr), fun c => .ramwr c.addr c.data⟩,
     ⟨0x70000, (4 : Kind) ++ (0 : Addr), fun c => .ramrd c.addr⟩] := rfl

/-- A kind is one of the five that are commands, or reserved (R60, R66). -/
theorem Kind.cases (k : Kind) : k = 0 ∨ k = 1 ∨ k = 2 ∨ k = 3 ∨ k = 4 ∨ 5 ≤ k.toNat := by
  revert k; decide

/-- Each kind below 5 has exactly one row with any address, the reserved kinds none. -/
theorem OpcodeRow.byKind_matches_length (k : Kind) (a : Addr) :
    (OpcodeRow.byKind.filter fun row => row.matches (k ++ a)).length = if k.toNat < 5 then 1 else 0 := by
  simp only [OpcodeRow.byKind_eq, List.filter, OpcodeRow.matches_byKind]
  revert k; decide

/-- The row with any address that a kind below 5 has. -/
theorem OpcodeRow.find?_byKind (k : Kind) (a : Addr) :
    OpcodeRow.byKind.find? (fun row => row.matches (k ++ a)) = OpcodeRow.byKind[k.toNat]? := by
  simp only [OpcodeRow.byKind_eq, List.find?, OpcodeRow.matches_byKind]
  match k with
  | 0 | 1 | 2 | 3 | 4 | 5 | 6 | 7 => rfl

/-- The decoder tries the same rows: an exact row for a register address of kind 1 or 2, else the row of the kind. -/
theorem decode_eq_decodeByTable (c : Command) : decode c = decodeByTable c := by
  obtain ⟨k, a, b, n⟩ := c
  rw [decodeByTable, List.find?_append, Command.sel, OpcodeRow.find?_exact, OpcodeRow.find?_byKind]
  obtain rfl | rfl | rfl | rfl | rfl | hk := Kind.cases k
  · rfl
  · cases h : Reg.ofAddr a with
    | some r => simp only [decode, h]; rfl
    | none => simp only [decode, h]; rfl
  · cases h : Reg.ofAddr a with
    | some r => simp only [decode, h]; rfl
    | none => simp only [decode, h]; rfl
  · rfl
  · rfl
  · have hne (j : Kind) (hj : j.toNat < 5) : k ≠ j := by
      rintro rfl
      exact absurd hj (Nat.not_lt.mpr hk)
    have hnoRow : OpcodeRow.byKind[k.toNat]? = none := List.getElem?_eq_none hk
    rw [Machine.decode_reserved hk, if_neg (hne 1 (by decide)), if_neg (hne 2 (by decide)), hnoRow]
    rfl

/-- Settles O3: the rows that match a selector are counted by its kind and its address. -/
theorem decodeFollowsOpcodeTable : Obligations.DecodeFollowsOpcodeTable := fun c =>
  ⟨decode_eq_decodeByTable c, OpcodeRow.exact_matches_le_one c.kind c.addr,
    OpcodeRow.byKind_matches_length c.kind c.addr, Machine.decode_reserved⟩

end Sys2Proof
end

section
/-! PROOF. One step: what each port sample does, and when a step stops (30_encoding.md R61, 60_exceptions.md R210 to
R221, 70_reset_and_hazards.md R230). -/

namespace Sys2Proof.Machine

/-! ## Each kind of sample -/

/-- Settles O6: of the five kinds of samples this is the presented command. -/
theorem stepPerformsThePresentedCommand : Obligations.StepPerformsThePresentedCommand :=
  fun _ _ _ _ hport hdecode => step_command hport hdecode

/-- Settles O7: both kinds of steps without a command only empty the response ports. -/
theorem stepWithoutCommandKeepsTheState : Obligations.StepWithoutCommandKeepsTheState :=
  ⟨fun _ _ _ hport => step_idle hport, fun _ hport => step_empty hport⟩

/-- Settles O8: the decoder refuses the record, whatever the state. -/
theorem reservedKindsAreRefused : Obligations.ReservedKindsAreRefused :=
  fun _ _ _ hport hkind => step_reserved hport (decode_reserved hkind)

/-- Settles O9: the next state is `State.reset` but for the port and the draws. -/
theorem resetWinsFromEveryState : Obligations.ResetWinsFromEveryState := by
  intro s v c later hport
  refine ⟨_, step_reset hport, State.nr_reset, Memory.read_nil, rfl, rfl, fun e => ?envCd, rfl, rfl, rfl,
    fun k => ?len, rfl, ⟨rfl, rfl⟩, rfl⟩
  case envCd => cases e <;> rfl
  case len => cases k <;> rfl

/-- Settles O15: every command is performed by `State.perform`, which looks at `fault` first. -/
theorem faultedBlockPerformsNoCommand : Obligations.FaultedBlockPerformsNoCommand :=
  fun i _ hfault => exec_faulted i hfault

/-! ## Which steps stop -/

/-- A performed command stops exactly on a faulted block. -/
theorem exec_eq_fault_iff (i : Instr) (s : State) : (∃ f, exec i s = .fault f) ↔ s.fault = true := by
  constructor
  · rintro ⟨f, hf⟩
    by_contra hfault
    obtain ⟨t, ht⟩ := exec_completes i (Bool.eq_false_of_not_eq_true hfault)
    rw [hf] at ht
    cases ht
  · exact fun hfault => ⟨_, exec_faulted i hfault⟩

/-- Two presented commands are the same sample only if they are the same record. -/
theorem PortSample.ofCommand_cons_inj {c d : Command} {l m : List PortSample}
    (h : PortSample.ofCommand c :: l = PortSample.ofCommand d :: m) : c = d := by
  simp only [PortSample.ofCommand] at h
  cases h
  rfl

/-- A record that decodes is of no reserved kind. -/
theorem kind_lt_of_decode {c : Command} {i : Instr} (h : decode c = .ok i) : c.kind.toNat < 5 := by
  by_contra hkind
  rw [decode_reserved (Nat.not_lt.mp hkind)] at h
  cases h

/-- Settles O12: by the sample at the port; only a presented record can stop the step, and a decodable one stops it
exactly when `exec` does. -/
theorem stepStopsOnlyForFaultedOrReserved : Obligations.StepStopsOnlyForFaultedOrReserved := by
  intro s
  obtain ⟨hport, hstep⟩ | ⟨d, later, hport, hstep⟩ | ⟨v, d, later, hport, hstep⟩ |
    ⟨d, later, i, hport, hdecode, hstep⟩ | ⟨d, later, hport, hkind, hstep⟩ := step_cases s
  case inl => simp [hport, hstep]
  case inr.inl => simp [hport, hstep, PortSample.ofCommand]
  case inr.inr.inl => simp [hport, hstep, PortSample.ofCommand]
  case inr.inr.inr.inl =>
    rw [hstep, exec_eq_fault_iff, hport]
    refine ⟨⟨fun hfault => ⟨hfault, d, later, i, rfl, hdecode⟩, And.left⟩, ?_, ?_⟩
    · rintro ⟨r, hr⟩
      exact absurd hr (exec_not_refused i _ r)
    · rintro ⟨c, l, hc, hkind⟩
      cases PortSample.ofCommand_cons_inj hc
      exact absurd (kind_lt_of_decode hdecode) (Nat.not_lt.mpr hkind)
  case inr.inr.inr.inr =>
    rw [hstep, hport]
    refine ⟨⟨fun ⟨f, hf⟩ => (by cases hf), ?_⟩, fun _ => ⟨d, later, rfl, hkind⟩, fun _ => ⟨_, rfl⟩⟩
    rintro ⟨-, c, l, i, hc, hdecode⟩
    cases PortSample.ofCommand_cons_inj hc
    exact absurd (kind_lt_of_decode hdecode) (Nat.not_lt.mpr hkind)

/-- Settles O16: of the steps that answer, an idle one keeps everything, a reset clears `fault`, and a command is not
performed. -/
theorem onlyResetLeavesTheFaultedState : Obligations.OnlyResetLeavesTheFaultedState := by
  intro s t hfault ht
  obtain ⟨hport, hstep⟩ | ⟨c, later, hport, hstep⟩ | ⟨v, c, later, hport, hstep⟩ | ⟨c, later, i, hport, -, hstep⟩ |
    ⟨c, later, hport, -, hstep⟩ := step_cases s
  all_goals rw [hstep] at ht
  case inl =>
    cases ht
    refine .inr ⟨.inl hport, ?_⟩
    rw [hport, List.tail_nil, ← hport]
    rfl
  case inr.inl =>
    cases ht
    refine .inr ⟨.inr ⟨c, later, hport⟩, ?_⟩
    rw [hport]
    rfl
  case inr.inr.inl =>
    cases ht
    exact .inl ⟨v, c, later, hport, rfl⟩
  case inr.inr.inr.inl =>
    have hunfaulted := exec_next_fault ht
    exact absurd (hfault.symm.trans hunfaulted) (by decide)
  case inr.inr.inr.inr => cases ht

end Sys2Proof.Machine
end

section
/-! PROOF. Which commands fault, and runs that do not (60_exceptions.md R210, 00_scope.md R2). -/

namespace Sys2Proof.Machine

/-! ## Audio RAM bounds -/

/-- The command reaches Audio RAM at an address outside its 15 bytes (R210). -/
def ReachesOutside (i : Instr) : Prop :=
  ∃ a : Addr, (i = .ramrd a ∨ ∃ b, i = .ramwr a b) ∧
    ¬ (Config.hardware.aramBase.toNat ≤ a.toNat ∧ a.toNat ≤ Config.hardware.aramBase.toNat + 14)

theorem aramIndex?_eq_none_iff (cfg : Config) (a : Addr) :
    aramIndex? cfg a = none ↔ ¬ (cfg.aramBase.toNat ≤ a.toNat ∧ a.toNat ≤ cfg.aramBase.toNat + 14) := by
  rw [aramIndex?_eq]
  split
  · next h => simp [h]
  · next h => simp [h]

theorem aramRead_fault_iff (cfg : Config) (a : Addr) {s : State} (h : s.fault = false) :
    (aramRead cfg a s).fault = true ↔ aramIndex? cfg a = none := by
  cases ha : aramIndex? cfg a with
  | some o => simp [aramRead_some ha, h]
  | none => simp [aramRead_none ha]

theorem aramWrite_fault_iff (cfg : Config) (a : Addr) (b : Byte) {s : State} (h : s.fault = false) :
    (aramWrite cfg a b s).fault = true ↔ aramIndex? cfg a = none := by
  cases ha : aramIndex? cfg a with
  | some o => simp [aramWrite_some ha, h]
  | none => simp [aramWrite_none ha]

theorem reachesOutside_ramrd (a : Addr) : ReachesOutside (.ramrd a) ↔ aramIndex? Config.hardware a = none := by
  simp [ReachesOutside, aramIndex?_eq_none_iff]

theorem reachesOutside_ramwr (a : Addr) (b : Byte) :
    ReachesOutside (.ramwr a b) ↔ aramIndex? Config.hardware a = none := by
  simp [ReachesOutside, aramIndex?_eq_none_iff]

/-- A command that does not reach Audio RAM is within its bounds. -/
theorem not_reachesOutside {i : Instr} (hr : ∀ a, i ≠ .ramrd a) (hw : ∀ a b, i ≠ .ramwr a b) : ¬ ReachesOutside i := by
  rintro ⟨a, rfl | ⟨b, rfl⟩, -⟩
  · exact hr a rfl
  · exact hw a b rfl

/-- Only RAMRD and RAMWR write the sticky flag (R210, R212). -/
theorem exec_fault_eq {i : Instr} {s t : State} (h : exec i s = .next t) (hr : ∀ a, i ≠ .ramrd a)
    (hw : ∀ a b, i ≠ .ramwr a b) : t.fault = s.fault := by
  induction i using Instr.family_cases with
  | write r b =>
    rw [exec_write, State.perform_next] at h
    rw [h.2, State.silent_fault, writeEffect_fault]
  | read r =>
    rw [exec_read, State.perform_next] at h
    rw [h.2, readRegister, State.answer_fault]
  | tick n =>
    rw [exec_tick, State.perform_next] at h
    rw [h.2, State.silent_fault, tick_fault]
  | wrUnmapped a b =>
    rw [exec_wrUnmapped, State.perform_next] at h
    rw [h.2, State.silent_fault]
  | rdUnmapped a =>
    rw [exec_rdUnmapped, State.perform_next] at h
    rw [h.2, State.answerFree_fault]
  | ramwr a b => exact absurd rfl (hw a b)
  | ramrd a => exact absurd rfl (hr a)

/-- A performed command faults exactly when it reaches outside Audio RAM (R210). -/
theorem exec_fault_iff {i : Instr} {s t : State} (h : exec i s = .next t) : t.fault = true ↔ ReachesOutside i := by
  have hfault := exec_next_fault h
  by_cases hr : ∃ a, i = .ramrd a
  · obtain ⟨a, rfl⟩ := hr
    rw [exec_ramrd, State.perform_next] at h
    rw [h.2, aramRead_fault_iff _ _ hfault, reachesOutside_ramrd]
  by_cases hw : ∃ a b, i = .ramwr a b
  · obtain ⟨a, b, rfl⟩ := hw
    rw [exec_ramwr, State.perform_next] at h
    rw [h.2, aramWrite_fault_iff _ _ _ hfault, reachesOutside_ramwr]
  · have hr' : ∀ a, i ≠ .ramrd a := fun a ha => hr ⟨a, ha⟩
    have hw' : ∀ a b, i ≠ .ramwr a b := fun a b hab => hw ⟨a, b, hab⟩
    simp [exec_fault_eq h hr' hw', hfault, not_reachesOutside hr' hw']

/-- Settles O13: the next state is the command's effect, and its flag is that of `exec_fault_iff`. -/
theorem onlyAudioRamBoundsFaults : Obligations.OnlyAudioRamBoundsFaults := by
  intro i s hfault
  obtain ⟨t, ht⟩ := exec_completes i hfault
  refine ⟨⟨t, ht, exec_fault_iff ht⟩, ?_⟩
  rintro a b rfl
  exact State.perform_ok hfault State.silent

/-! ## Samples in range -/

/-- A command decoded from a record in range reaches no address outside Audio RAM. -/
theorem not_reachesOutside_of_decode {c : Command} {i : Instr} (h : decode c = .ok i)
    (hrange : 3 ≤ c.kind.toNat → Config.hardware.aramBase.toNat ≤ c.addr.toNat ∧
      c.addr.toNat ≤ Config.hardware.aramBase.toNat + 14) : ¬ ReachesOutside i := by
  rintro ⟨a, hi, hout⟩
  have hfields : 3 ≤ c.kind.toNat ∧ c.addr = a := by
    obtain ⟨-, hkind, haddr, -, -⟩ := decodedCommandKeepsItsUsedFields c i h
    obtain rfl | ⟨b, rfl⟩ := hi
    · have hk : c.kind = 4 := hkind.symm
      exact ⟨by rw [hk]; decide, (haddr (by rw [hk]; decide)).symm⟩
    · have hk : c.kind = 3 := hkind.symm
      exact ⟨by rw [hk]; decide, (haddr (by rw [hk]; decide)).symm⟩
  obtain ⟨hkind, rfl⟩ := hfields
  exact hout (hrange hkind)

/-- Settles O55: by the sample at the port; a command in range is performed and does not fault. -/
theorem stepKeepsTheBlockUnfaulted : Obligations.StepKeepsTheBlockUnfaulted := by
  intro s hfault hrange
  have htail : ∀ p ∈ s.port.tail, p.InRange := fun p hp => hrange p (List.mem_of_mem_tail hp)
  suffices h : ∃ t, step s = .next t ∧ t.fault = false ∧ t.port = s.port.tail by
    obtain ⟨t, hstep, hfault', hport⟩ := h
    exact ⟨t, hstep, hfault', hport, by rwa [hport]⟩
  obtain ⟨hport, hstep⟩ | ⟨c, later, hport, hstep⟩ | ⟨v, c, later, hport, hstep⟩ |
    ⟨c, later, i, hport, hdecode, hstep⟩ | ⟨c, later, hport, hkind, hstep⟩ := step_cases s
  case inl => exact ⟨_, hstep, hfault, by simp [hport]⟩
  case inr.inl => exact ⟨_, hstep, hfault, by simp [hport]⟩
  case inr.inr.inl => exact ⟨_, hstep, rfl, by simp [hport]⟩
  all_goals obtain ⟨hkind', hbounds⟩ := hrange (PortSample.ofCommand c) (by simp [hport]) rfl rfl
  case inr.inr.inr.inl =>
    obtain ⟨t, ht⟩ := exec_completes i (s := { s with port := later }) hfault
    have hfault' : ¬ t.fault = true := fun h => not_reachesOutside_of_decode hdecode hbounds ((exec_fault_iff ht).mp h)
    exact ⟨t, hstep.trans ht, Bool.eq_false_of_not_eq_true hfault', by rw [exec_port ht, hport]; rfl⟩
  case inr.inr.inr.inr => exact absurd hkind' (Nat.not_lt.mpr hkind)

/-! ## Runs -/

/-- A block that has not faulted serves samples in range to the end, one step each. -/
theorem runsSafely_of_inRange {s : State} (hfault : s.fault = false) (hrange : ∀ p ∈ s.port, p.InRange) :
    RunsSafely s := by
  unfold RunsSafely
  generalize hn : s.port.length = n
  induction n generalizing s with
  | zero =>
    exact ⟨s, RunsTo.zero s, ⟨List.length_eq_zero_iff.mp hn, hfault⟩, fun k u hk hk' => absurd hk (Nat.not_lt.mpr hk')⟩
  | succ n ih =>
    obtain ⟨u, hstep, hfault', hport, hrange'⟩ := stepKeepsTheBlockUnfaulted s hfault hrange
    obtain ⟨t, hrun, hend, hsafe⟩ := ih hfault' hrange' (by rw [hport, List.length_tail, hn]; rfl)
    refine ⟨t, RunsTo.succ_iff.mpr ⟨u, hstep, hrun⟩, hend, fun k w hk hkn hkrun => ?_⟩
    obtain ⟨k, rfl⟩ := Nat.exists_eq_succ_of_ne_zero (Nat.pos_iff_ne_zero.mp hk)
    obtain ⟨u', hstep', hrun'⟩ := RunsTo.succ_iff.mp hkrun
    obtain rfl : u = u' := by rw [hstep] at hstep'; cases hstep'; rfl
    cases k with
    | zero =>
      cases hrun'
      exact hfault'
    | succ k => exact hsafe (k + 1) w (Nat.succ_pos k) (Nat.le_of_succ_le_succ hkn) hrun'

/-- Settles O17: presented commands in range are samples in range. -/
theorem commandsWithinRangeRunSafely : Obligations.CommandsWithinRangeRunSafely := by
  refine fun s hfault hcommands => runsSafely_of_inRange hfault fun p hp => ?_
  obtain ⟨c, rfl, hkind, hbounds⟩ := hcommands p hp
  exact fun _ _ => ⟨hkind, hbounds⟩

end Sys2Proof.Machine
end

section
/-! PROOF. Audio RAM: reads, writes and bounds (46_audio_ram.md R200 to R203). -/

namespace Sys2Proof.Machine

/-! ## Accesses by index -/

/-- RAMRD in range answers the byte at the index (R201). -/
theorem exec_ramrd_some {a : Addr} {o : Nat} (h : aramIndex? Config.hardware a = some o) {s : State}
    (hfault : s.fault = false) : exec (.ramrd a) s = .next (s.answer (s.aram.read o)) := by
  rw [exec_ramrd, State.perform_ok hfault, aramRead_some h]

/-- RAMWR in range stores the byte at the index (R202). -/
theorem exec_ramwr_some {a : Addr} {o : Nat} (h : aramIndex? Config.hardware a = some o) (b : Byte) {s : State}
    (hfault : s.fault = false) :
    exec (.ramwr a b) s = .next ({ s with aram := s.aram.write o b } : State).silent := by
  rw [exec_ramwr, State.perform_ok hfault, aramWrite_some h]

/-- RAMRD out of range takes the fault (R203). -/
theorem exec_ramrd_none {a : Addr} (h : aramIndex? Config.hardware a = none) {s : State} (hfault : s.fault = false) :
    exec (.ramrd a) s = .next (s.raiseAudioRamBounds a .read) := by
  rw [exec_ramrd, State.perform_ok hfault, aramRead_none h]

/-- RAMWR out of range takes the fault (R203). -/
theorem exec_ramwr_none {a : Addr} (h : aramIndex? Config.hardware a = none) (b : Byte) {s : State}
    (hfault : s.fault = false) : exec (.ramwr a b) s = .next (s.raiseAudioRamBounds a .write) := by
  rw [exec_ramwr, State.perform_ok hfault, aramWrite_none h]

/-- The indices are the offsets from the base, 0 to 14 (30_encoding.md R64). -/
theorem aramIndex?_eq_some_iff (cfg : Config) (a : Addr) (o : Nat) :
    aramIndex? cfg a = some o ↔ a.toNat = cfg.aramBase.toNat + o ∧ o ≤ 14 := by
  rw [aramIndex?_eq]
  split
  · simp only [Option.some.injEq]; omega
  · simp only [reduceCtorEq, false_iff]; omega

/-! ## The statements -/

/-- Settles O14: an address has no index exactly outside 0xFF30 .. 0xFF3E. -/
theorem outOfRangeAudioRamAccessFaults : Obligations.OutOfRangeAudioRamAccessFaults := by
  refine ⟨rfl, fun s a hfault => ⟨fun hout => ?outside, fun hin => ?inside⟩⟩
  case outside =>
    have hnone : aramIndex? Config.hardware a = none := (aramIndex?_eq_none_iff _ a).mpr hout
    exact ⟨exec_ramrd_none hnone hfault, fun b => exec_ramwr_none hnone b hfault⟩
  case inside =>
    have hsome : aramIndex? Config.hardware a = some (a.toNat - 0xFF30) := by rw [aramIndex?_hardware, if_pos hin]
    exact ⟨⟨_, exec_ramrd_some hsome hfault, hfault⟩, fun b => ⟨_, exec_ramwr_some hsome b hfault, hfault⟩⟩

/-- Settles O18: with an index the write replaces `aram` alone; without one both accesses take the fault. -/
theorem audioRamWriteStoresTheByte : Obligations.AudioRamWriteStoresTheByte := by
  refine fun s a b hfault hwf => ⟨fun o ho => ⟨?offset, _, exec_ramwr_some ho b hfault, ?same, ?others, ?form, ?frame⟩,
    fun hnone => ⟨exec_ramrd_none hnone hfault, exec_ramwr_none hnone b hfault⟩, aramIndex?_eq_none_iff _ a⟩
  case offset =>
    obtain ⟨ha, -⟩ := (aramIndex?_eq_some_iff _ a o).mp ho
    omega
  case same => exact Memory.read_write_same s.aram o b hwf
  case others => exact fun o' ho' => Memory.read_write_ne s.aram b ho'
  case form => exact Memory.wf_write s.aram o b hwf
  case frame =>
    exact ⟨fun _ _ => rfl, fun _ _ => rfl, fun _ _ => rfl, ⟨rfl, rfl, rfl⟩, ⟨rfl, rfl⟩, ⟨rfl, rfl, rfl⟩, rfl, rfl⟩

/-- Settles O19: with an index the read answers its byte, without one it takes the fault. -/
theorem audioRamReadReturnsTheByte : Obligations.AudioRamReadReturnsTheByte := by
  refine fun s a hfault => ⟨fun hin => ?inside, fun hout => ?outside⟩
  case inside =>
    have hsome : aramIndex? Config.hardware a = some (a.toNat - Config.hardware.aramBase.toNat) := by
      rw [aramIndex?_eq, if_pos hin]
    exact exec_ramrd_some hsome hfault
  case outside => exact exec_ramrd_none ((aramIndex?_eq_none_iff _ a).mpr hout) hfault

/-- Settles O20: reading the index just written gives the byte written, another index what it held. -/
theorem audioRamForEveryBase : Obligations.AudioRamForEveryBase := by
  refine fun cfg a a' b s hwf => ⟨aramIndex?_eq_some_iff cfg a, fun o o' ho ho' => ?_⟩
  rw [aramWrite_some ho, aramRead_some ho', State.answer_rsp, State.silent_aram]
  split
  · next h => rw [h, Memory.read_write_same s.aram o b hwf]
  · next h => rw [Memory.read_write_ne s.aram b h]

end Sys2Proof.Machine
end

section
/-! PROOF. Register reads, writes that store, and write followed by read (41_register_dispatch.md R112 to R117), and the
output ports (30_encoding.md R61). -/

namespace Sys2Proof.Machine

/-! ## Reads -/

/-- `RD` answers the stored byte (R114). -/
theorem exec_read_next (r : Reg) {s : State} (hfault : s.fault = false) :
    exec (.read r) s = .next (s.answer (s.nr r)) := by
  rw [exec_read, State.perform_ok hfault, readRegister]

/-- Settles O29: the 21 commands are `Instr.read` of the 21 registers. -/
theorem registerReadReturnsTheStoredByte : Obligations.RegisterReadReturnsTheStoredByte := by
  change ∀ w ∈ Reg.all.map fun r => (Instr.read r, r), _
  rw [List.forall_mem_map]
  exact fun r _ _ hfault => exec_read_next r hfault

/-- Settles O30: the effect is `State.answerFree`, which draws the next free byte. -/
theorem unrecognizedReadReturnsAFreeByte : Obligations.UnrecognizedReadReturnsAFreeByte :=
  fun _ _ hfault => State.perform_ok hfault State.answerFree

/-! ## Writes that store -/

/-- Settles O23: the write stores the byte and sets one length counter. -/
theorem lengthRegisterWriteLoadsTheCounter : Obligations.LengthRegisterWriteLoadsTheCounter := by
  change ∀ w ∈ [Channel.ch1, .ch2, .ch3, .ch4].map fun c => (Instr.write c.nrc1, c.nrc1, c), _
  rw [List.forall_mem_map]
  intro c _ b s hfault
  have hexec : exec (.write c.nrc1 b) s = .next (lengthWrite c b s).silent := by
    rw [exec_lengthWrite, State.perform_ok hfault]
  have hfield : lengthField c b = if c = .ch3 then b.toNat else b.toNat % 64 := by
    cases c <;> simp [lengthField, Byte.field_low]
  refine ⟨_, hexec, ?reg, ?len, ?regs, ?lens, fun _ _ => rfl, ⟨rfl, rfl, rfl⟩, ⟨rfl, rfl⟩, fun _ => rfl,
    ⟨rfl, rfl, rfl⟩, rfl, rfl⟩
  case reg => rw [State.nr_silent, lengthWrite_nr, if_pos rfl]
  case len => rw [State.silent_len, lengthWrite_len, if_pos rfl, hfield]
  case regs => exact fun r hr => (lengthWrite_nr c b s r).trans (if_neg (List.ne_of_not_mem_cons hr))
  case lens => exact fun x hx => (lengthWrite_len c x b s).trans (if_neg (List.ne_of_not_mem_cons hx))

/-- Settles O24: without an edge the write is a store. -/
theorem restartWriteWithoutEdgeOnlyStores : Obligations.RestartWriteWithoutEdgeOnlyStores := by
  refine forall_restartRegister fun c b s hfault hnoEdge => ?_
  obtain ⟨hregs, hlen, henv, hsweep, htimers, haram, hrest⟩ := overwrite_silent_onlyRegisterDiffers c.nrc4 b s
  exact ⟨_, exec_restartWrite_plain hfault hnoEdge, overwrite_silent_nr_same c.nrc4 b s, hregs, hlen, henv, hsweep,
    htimers, haram, hrest, rfl, rfl⟩

/-! ## Write, then read -/

theorem Channel.nrc4_mem (c : Channel) : c.nrc4 ∈ [Reg.nr14, .nr24, .nr34, .nr44] := by
  cases c <;> decide

/-- The four restart registers write as restart registers. -/
theorem writeEffect_nrc4 (c : Channel) (b : Byte) (s : State) : writeEffect c.nrc4 b s = restartWrite c b s := by
  cases c <;> rfl

/-- A 0 to 1 transition of bit 7, bit by bit (R112). -/
theorem restartEdge_iff (old new : Byte) :
    restartEdge old new = true ↔ old.getLsbD 7 = false ∧ new.getLsbD 7 = true := by
  simp [restartEdge, restartBit, Byte.bit]

/-- What the written register holds after a `WR`: the byte, with bit 6 set if the write triggered (R111, R112, R192). -/
theorem writeEffect_nr_same (r : Reg) (b : Byte) (s : State) :
    (writeEffect r b s).nr r =
      if r ∈ [Reg.nr14, .nr24, .nr34, .nr44] ∧ (s.nr r).getLsbD 7 = false ∧ b.getLsbD 7 = true then b ||| 0x40
      else b := by
  by_cases h4 : ∃ c : Channel, r = c.nrc4
  · obtain ⟨c, rfl⟩ := h4
    simp only [writeEffect_nrc4, restartWrite_nr, Channel.nrc4_mem, true_and, if_true, restartEdge_iff,
      Byte.setBit_six_true]
  · have hplain : r ∉ [Reg.nr14, .nr24, .nr34, .nr44] := fun hr => h4 <| by
      simp only [List.mem_cons, List.not_mem_nil, or_false] at hr
      obtain rfl | rfl | rfl | rfl := hr
      exacts [⟨.ch1, rfl⟩, ⟨.ch2, rfl⟩, ⟨.ch3, rfl⟩, ⟨.ch4, rfl⟩]
    obtain ⟨l, heffect, -⟩ := writeEffect_nonRestart (not_exists.mp h4) b s
    rw [if_neg fun h => hplain h.1, heffect]
    exact State.nr_setNr_same s r b

/-- Settles O31: the read answers what `writeEffect_nr_same` says the register holds. -/
theorem writeThenReadRoundTrip : Obligations.WriteThenReadRoundTrip := by
  intro r b s hfault
  have hwrite : exec (.write r b) s = .next (writeEffect r b s).silent := by rw [exec_write, State.perform_ok hfault]
  have hfault' : (writeEffect r b s).silent.fault = false := (writeEffect_fault r b s).trans hfault
  exact ⟨_, _, hwrite, exec_read_next r hfault', congrArg some (writeEffect_nr_same r b s)⟩

/-! ## The trigger's sweep part -/

/-- Settles O27: `trigger_spec` gives the sweep's values as fields of the registers just written. -/
theorem triggerReloadsTheSweep : Obligations.TriggerReloadsTheSweep := by
  intro b s hfault hold hnew p sh neg f
  have spec := trigger_spec .ch1 (overwrite .nr14 b s)
  have hnr10 : (overwrite .nr14 b s).nr .nr10 = s.nr .nr10 := State.nr_setNr_ne s b (by decide)
  have hp : (overwrite .nr14 b s).sweepPeriod.toNat = p := by rw [State.sweepPeriod_toNat, hnr10]
  have hsh : (overwrite .nr14 b s).sweepShift.toNat = sh := by rw [State.sweepShift_toNat, hnr10]
  have hneg : (overwrite .nr14 b s).sweepNeg = neg := congrArg (Byte.bit · 3) hnr10
  have hshadow : (trigger .ch1 (overwrite .nr14 b s)).shadow.toNat = f := trigger_overwrite_shadow_toNat b s
  have hlive : (overwrite .nr14 b s).liveFrequency.toNat = f := by rw [← hshadow, spec.shadow, if_pos rfl]
  have hexec : exec (.wrNr14 b) s = .next (trigger .ch1 (overwrite .nr14 b s)).silent :=
    exec_restartWrite_edge (c := .ch1) hfault hold hnew
  refine ⟨_, hexec, hshadow, ?countdown, ?enable,
    trigger_overwrite_nr_ne (c := .ch1) b s (by decide), trigger_overwrite_nrc4 .ch1 b s⟩
  case countdown =>
    rw [State.silent_swpCd, spec.swpCd, if_pos rfl, sweepReload_toNat, hp]
  case enable =>
    rw [State.silent_swpEn, spec.swpEn, if_pos rfl, hlive, hneg, hsh, sweepCalc_eq, Bool.and_eq_true, sweepEnabled_iff,
      hp, hsh]
    simp [sweepOverflow]

/-! ## Output ports -/

/-- Settles O54: every port is a copy; the four enable bits are appended highest channel first. -/
theorem outputPortsShowTheStatus : Obligations.OutputPortsShowTheStatus := by
  intro s
  refine ⟨?_, ?_, ?_, ?_, rfl, rfl, rfl, rfl, rfl, rfl⟩
  all_goals
    simp only [State.outputs, BitVec.getLsbD_append]
    simp [State.lenEnable, Channel.nrc4, Byte.bit]

end Sys2Proof.Machine
end

section
/-! PROOF. What one `TICK` does: accumulators, envelopes, sweep and length counters (40_tick_scheduler.md,
42_envelope.md, 43_sweep.md, 44_length.md). -/

namespace Sys2Proof.Machine

/-! ## The scheduler's own values -/

/-- Settles O34: the accumulators and `fs_step` as numbers; the other fields are in no machine. -/
theorem tickReducesEveryAccumulator : Obligations.TickReducesEveryAccumulator := by
  intro n s hfault
  refine ⟨_, exec_tick_next n hfault, ?_⟩
  have hperiod : Config.hardware.pFs = 8192 := rfl
  simp only [State.silent_acc, State.silent_fsStep, hardware_acc_fs, hardware_acc_env, hardware_acc_swp,
    hardware_acc_len, hardware_fsStep_toNat, hperiod, true_and]
  refine ⟨fun o => ?_, ⟨?_, ?_, ?_⟩, rfl, rfl⟩
  · rw [State.silent_aram, tick_aram]
  · rw [State.silent_fault, tick_fault]
  · rw [State.silent_port, tick_port]
  · rw [State.silent_draws, tick_draws]

/-- A sub-timer below its period does not fire. -/
theorem fire_of_lt {cfg : Config} {x : SubTimer} {s : State} (h : s.acc.get x < cfg.period x) : fire cfg x s = s :=
  if_neg (Nat.not_le.mpr h)

/-- Settles O43: nothing is added and nothing fires. -/
theorem tickZeroChangesNothing : Obligations.TickZeroChangesNothing := by
  intro s hfault hlt
  have hzero : accumulate 0 s = s := rfl
  have htick : tick Config.hardware 0 s = s := by
    simp only [tick, fireAll, fireOrder, List.foldl, hzero, fire_of_lt (hlt _)]
  have hcycles : (0 : Cycles).toNat = 0 := rfl
  rw [exec_tick_next 0 hfault, hcycles, htick]
  rfl

/-! ## The envelopes -/

/-- An envelope whose countdown is 2 or more only counts down (R151). -/
theorem envNext_counting {v : BitVec 3 × Byte} (hp : v.2.toNat % 8 ≠ 0) (hc : 2 ≤ v.1.toNat) :
    (envNext v).1.toNat = v.1.toNat - 1 ∧ (envNext v).2 = v.2 := by
  have hp' : envPeriod v.2 ≠ 0 := fun h => hp ((envPeriod_eq_zero_iff v.2).mp h)
  simp only [envNext, hp', hc, if_true, if_false, BitVec.toNat_ofNat, and_true]
  omega

/-- Settles O36: the envelope's view is kept or clocked once, and a clock counts down or expires. -/
theorem envelopeClockStepsTheVolume : Obligations.EnvelopeClockStepsTheVolume := by
  change ∀ w ∈ [EnvChannel.ch1, .ch2, .ch4].map fun c => (c, c.nrc2), _
  rw [List.forall_mem_map]
  intro c _ n s hfault
  refine ⟨_, exec_tick_next n hfault, ?_⟩
  have hview := hardware_envView c n.toNat s
  have hcd : (tick Config.hardware n.toNat s).envCd.get c = ((tick Config.hardware n.toNat s).envView c).1 := rfl
  have hreg : (tick Config.hardware n.toNat s).nr c.nrc2 = ((tick Config.hardware n.toNat s).envView c).2 := rfl
  simp only [State.silent_envCd, State.nr_silent, hcd, hreg]
  split
  · next hclock =>
    obtain ⟨hperiod, hp⟩ := hclock
    rw [hview, if_pos hperiod]
    exact ⟨fun hc => envNext_counting hp hc, fun hc => envNext_toNat (s.envView c) hp hc⟩
  · next hclock =>
    have hkeep : (tick Config.hardware n.toNat s).envView c = s.envView c := by
      by_cases hp : (s.nr c.nrc2).toNat % 8 = 0
      · exact tick_envView_of_period_zero c n.toNat hp
      · rw [hview, if_neg fun h => hclock ⟨h, hp⟩]
    rw [hkeep]
    exact ⟨rfl, rfl⟩

/-! ## The length counters -/

theorem Byte.field_mid_toNat (v : Byte) : (v.field 3 3).toNat = v.toNat / 8 % 8 := by
  simp [Byte.field, Nat.shiftRight_eq_div_pow]

/-- No state machine rewrites the length registers (R182). -/
theorem tick_nrc1 (cfg : Config) (n : Nat) (s : State) (c : Channel) : (tick cfg n s).nr c.nrc1 = s.nr c.nrc1 :=
  tick_nr cfg n s (by cases c <;> intro e <;> cases e <;> decide) (by cases c <;> intro x <;> cases x <;> decide)
    (by cases c <;> decide)

/-- Settles O40: the length view is kept or clocked once; the other bits of `NRc4` and `NRc1` are no counter's. -/
theorem lengthClockCountsDown : Obligations.LengthClockCountsDown := by
  change ∀ w ∈ [Channel.ch1, .ch2, .ch3, .ch4].map fun c => (c, c.nrc1, c.nrc4), _
  rw [List.forall_mem_map]
  intro c _ n s hfault
  obtain ⟨hmid, hseven⟩ := tick_nrc4_keeps Config.hardware n.toNat s c
  have hmid' := congrArg BitVec.toNat hmid
  rw [Byte.field_mid_toNat, Byte.field_mid_toNat] at hmid'
  refine ⟨_, exec_tick_next n hfault, ?_⟩
  simp only [State.silent_len, State.nr_silent]
  refine ⟨?_, tick_nrc1 Config.hardware n.toNat s c, hseven, hmid'⟩
  have hview := hardware_lenView c n.toNat s
  have hlen : (tick Config.hardware n.toNat s).len.get c = ((tick Config.hardware n.toNat s).lenView c).1 := rfl
  have hen : ((tick Config.hardware n.toNat s).nr c.nrc4).getLsbD 6 =
      ((tick Config.hardware n.toNat s).lenView c).2 := rfl
  have hen' : (s.lenView c).2 = (s.nr c.nrc4).getLsbD 6 := rfl
  rw [hlen, hen]
  split
  · next hclock =>
    obtain ⟨hperiod, hb6⟩ := hclock
    have hon : (s.lenView c).2 = true := hb6
    rw [hview, if_pos hperiod, lenNext, if_neg (by rw [hon]; decide)]
    exact ⟨rfl, decide_eq_true_iff⟩
  · next hclock =>
    have hkeep : (tick Config.hardware n.toNat s).lenView c = s.lenView c := by
      rw [hview]
      split
      · next hperiod => exact if_pos (Bool.eq_false_of_not_eq_true fun hb6 => hclock ⟨hperiod, hb6⟩)
      · rfl
    rw [hkeep]
    exact ⟨rfl, rfl⟩

/-! ## The sweep -/

/-- A sweep countdown of 2 or more only counts down (R160). -/
theorem sweepNext_counting {nr10 : Byte} {v : SweepView} (h : 2 ≤ v.cd.toNat) :
    sweepNext nr10 v = { v with cd := BitVec.ofNat 4 (v.cd.toNat - 1) } := by
  simp only [sweepNext, h, if_true]

/-- An expiry with period field 0 only reloads and enables (R162). -/
theorem sweepNext_stopped {nr10 : Byte} {v : SweepView} (hcd : v.cd.toNat < 2) (hp : nr10.field 4 3 = 0) :
    sweepNext nr10 v =
      { v with cd := sweepReload (nr10.field 4 3), en := sweepEnabled (nr10.field 4 3) (nr10.field 0 3) } := by
  simp only [sweepNext, Nat.not_le.mpr hcd, hp, if_true, if_false]

/-- The candidate frequency the sweep computes first (R161). -/
def sweepCand (nr10 : Byte) (v : SweepView) : Nat := sweepCalc v.shadow.toNat (nr10.field 0 3).toNat (nr10.bit 3)

/-- The values an expiry with a non-zero period leaves but for the overflow checks: a candidate in range is committed
where the shift is non-zero (R163). -/
def sweepCommit (nr10 : Byte) (v : SweepView) : SweepView :=
  let f := BitVec.ofNat 11 (sweepCand nr10 v)
  if sweepCand nr10 v ≤ 2047 ∧ nr10.field 0 3 ≠ 0 then
    { v with shadow := f, low := f.extractLsb' 0 8, high := f.extractLsb' 8 3 }
  else v

/-- An expiry with a non-zero period reloads, commits and checks twice, the second time on the new shadow (R162 to
R164). -/
theorem sweepNext_running {nr10 : Byte} {v : SweepView} (hcd : v.cd.toNat < 2) (hp : nr10.field 4 3 ≠ 0) :
    sweepNext nr10 v =
      { sweepCommit nr10 v with
        cd := sweepReload (nr10.field 4 3)
        en := sweepEnabled (nr10.field 4 3) (nr10.field 0 3) && !sweepOverflow (sweepCand nr10 v) &&
          !sweepOverflow (sweepCand nr10 (sweepCommit nr10 v)) } := by
  by_cases hc : sweepCand nr10 v ≤ 2047 ∧ nr10.field 0 3 ≠ 0
  · have hc' := hc
    rw [sweepCand] at hc'
    simp only [sweepCommit, if_pos hc]
    simp only [sweepNext, Nat.not_le.mpr hcd, hp, if_false, if_pos hc']
    rfl
  · have hc' := hc
    rw [sweepCand] at hc'
    simp only [sweepCommit, if_neg hc]
    simp only [sweepNext, Nat.not_le.mpr hcd, hp, if_false, if_neg hc']
    rfl

theorem sweepCommit_eq_self {nr10 : Byte} {v : SweepView} (h : ¬ (sweepCand nr10 v ≤ 2047 ∧ nr10.field 0 3 ≠ 0)) :
    sweepCommit nr10 v = v := if_neg h

/-- An expired countdown is reloaded, whatever the period (R162). -/
theorem sweepNext_cd {nr10 : Byte} {v : SweepView} (hcd : v.cd.toNat < 2) :
    (sweepNext nr10 v).cd = sweepReload (nr10.field 4 3) := by
  by_cases hp : nr10.field 4 3 = 0
  · rw [sweepNext_stopped hcd hp]
  · rw [sweepNext_running hcd hp]

/-- A committed frequency is split over `shadow`, NR13 and `NR14[2:0]` (R163). -/
theorem sweepNext_commits {nr10 : Byte} {v : SweepView} (hcd : v.cd.toNat < 2) (hp : nr10.field 4 3 ≠ 0)
    (hcand : sweepCand nr10 v ≤ 2047) (hsh : nr10.field 0 3 ≠ 0) :
    (sweepNext nr10 v).shadow.toNat = sweepCand nr10 v ∧ (sweepNext nr10 v).low.toNat = sweepCand nr10 v % 256 ∧
      (sweepNext nr10 v).high.toNat = sweepCand nr10 v / 256 := by
  rw [sweepNext_running hcd hp, sweepCommit, if_pos ⟨hcand, hsh⟩]
  simp only [BitVec.extractLsb'_toNat, BitVec.toNat_ofNat, Nat.shiftRight_eq_div_pow]
  omega

/-- Without a commit an expiry leaves `shadow` and the frequency registers as they are. -/
theorem sweepNext_commits_not {nr10 : Byte} {v : SweepView} (hcd : v.cd.toNat < 2)
    (h : ¬ (nr10.field 4 3 ≠ 0 ∧ sweepCand nr10 v ≤ 2047 ∧ nr10.field 0 3 ≠ 0)) :
    (sweepNext nr10 v).shadow = v.shadow ∧ (sweepNext nr10 v).low = v.low ∧ (sweepNext nr10 v).high = v.high := by
  by_cases hp : nr10.field 4 3 = 0
  · rw [sweepNext_stopped hcd hp]
    exact ⟨rfl, rfl, rfl⟩
  · rw [sweepNext_running hcd hp, sweepCommit_eq_self fun hc => h ⟨hp, hc⟩]
    exact ⟨rfl, rfl, rfl⟩

/-- `swp_en` after an expiry: enabled by NR10, and both overflow checks passed where they are made (R162, R164). -/
theorem sweepNext_en_iff {nr10 : Byte} {v : SweepView} (hcd : v.cd.toNat < 2) :
    (sweepNext nr10 v).en = true ↔ sweepEnabled (nr10.field 4 3) (nr10.field 0 3) = true ∧
      (nr10.field 4 3 ≠ 0 → sweepCand nr10 v ≤ 2047 ∧ sweepCand nr10 (sweepNext nr10 v) ≤ 2047) := by
  by_cases hp : nr10.field 4 3 = 0
  · rw [sweepNext_stopped hcd hp]
    exact ⟨fun h => ⟨h, fun hne => absurd hp hne⟩, And.left⟩
  · have hcand : sweepCand nr10 (sweepNext nr10 v) = sweepCand nr10 (sweepCommit nr10 v) := by
      rw [sweepNext_running hcd hp]; rfl
    rw [hcand, sweepNext_running hcd hp, Bool.and_eq_true, Bool.and_eq_true, and_assoc, imp_iff_right hp]
    simp [sweepOverflow]

/-! NR10's fields as numbers (30_encoding.md R67). -/

theorem Byte.field_period_toNat (nr10 : Byte) : (nr10.field 4 3).toNat = nr10.toNat / 16 % 8 := by
  simp [Byte.field, Nat.shiftRight_eq_div_pow]

theorem Byte.field_period_ne_zero_iff (nr10 : Byte) : nr10.field 4 3 ≠ 0 ↔ nr10.toNat / 16 % 8 ≠ 0 := by
  rw [← Byte.field_period_toNat, ne_eq, ← BitVec.toNat_inj]; rfl

theorem Byte.field_shift_ne_zero_iff (nr10 : Byte) : nr10.field 0 3 ≠ 0 ↔ nr10.toNat % 8 ≠ 0 := by
  rw [ne_eq, ← BitVec.toNat_inj, Byte.field_low]; rfl

theorem sweepCand_eq (nr10 : Byte) (v : SweepView) :
    sweepCand nr10 v = candidateFrequency v.shadow.toNat (nr10.toNat % 8) (nr10.getLsbD 3) := by
  rw [sweepCand, sweepCalc_eq, Byte.field_low]; rfl

theorem sweepEnabled_fields_iff (nr10 : Byte) :
    sweepEnabled (nr10.field 4 3) (nr10.field 0 3) = true ↔ (nr10.toNat / 16 % 8 ≠ 0 ∨ nr10.toNat % 8 ≠ 0) := by
  rw [sweepEnabled_iff, Byte.field_period_toNat, Byte.field_low]; rfl

/-- `shadow` and the frequency registers after an expiry, the conditions on NR10 as numbers (R163). -/
theorem sweepNext_frequency {nr10 : Byte} {v : SweepView} (hcd : v.cd.toNat < 2) :
    if nr10.toNat / 16 % 8 ≠ 0 ∧ sweepCand nr10 v ≤ 2047 ∧ nr10.toNat % 8 ≠ 0 then
      (sweepNext nr10 v).shadow.toNat = sweepCand nr10 v ∧ (sweepNext nr10 v).low.toNat = sweepCand nr10 v % 256 ∧
        (sweepNext nr10 v).high.toNat = sweepCand nr10 v / 256
    else
      (sweepNext nr10 v).shadow = v.shadow ∧ (sweepNext nr10 v).low = v.low ∧
        (sweepNext nr10 v).high.toNat = v.high.toNat := by
  split
  · next h =>
    rw [← Byte.field_period_ne_zero_iff, ← Byte.field_shift_ne_zero_iff] at h
    obtain ⟨hp, hcand, hsh⟩ := h
    exact sweepNext_commits hcd hp hcand hsh
  · next h =>
    rw [← Byte.field_period_ne_zero_iff, ← Byte.field_shift_ne_zero_iff] at h
    obtain ⟨hshadow, hlow, hhigh⟩ := sweepNext_commits_not hcd h
    exact ⟨hshadow, hlow, congrArg BitVec.toNat hhigh⟩

/-- `NR14[2:0]` is the high part of the sweep's view. -/
theorem State.sweepView_high_toNat (s : State) : s.sweepView.high.toNat = (s.nr .nr14).toNat % 8 :=
  Byte.field_low (s.nr .nr14) 3

/-- Settles O38: the sweep's view is kept or clocked once; a clock counts down, or reloads, commits and checks. -/
theorem sweepClockCommitsAndChecks : Obligations.SweepClockCommitsAndChecks := by
  intro n s hfault p sh neg cand
  refine ⟨_, exec_tick_next n hfault, ?_⟩
  have hview := hardware_sweepView n.toNat s
  simp only [State.silent_swpCd, State.silent_shadow, State.silent_swpEn, State.nr_silent, ← State.sweepView_high_toNat]
  generalize tick Config.hardware n.toNat s = t at hview
  have hcd : t.swpCd = t.sweepView.cd := rfl
  have hshadow : t.shadow = t.sweepView.shadow := rfl
  have hen : t.swpEn = t.sweepView.en := rfl
  have hlow : t.nr .nr13 = t.sweepView.low := rfl
  have hcand : sweepCand (s.nr .nr10) s.sweepView = cand := sweepCand_eq _ _
  rw [hcd, hshadow, hen, hlow]
  by_cases hclock : Config.hardware.pSwp ≤ s.acc.swp + n.toNat
  · rw [if_pos hclock] at hview
    rw [hview]
    by_cases hexpired : s.swpCd.toNat < 2
    · rw [if_pos ⟨hclock, hexpired⟩]
      have hexpired' : s.sweepView.cd.toNat < 2 := hexpired
      refine ⟨?reload, ?commit, ?enable⟩
      case reload => rw [sweepNext_cd hexpired', sweepReload_toNat, Byte.field_period_toNat]
      case commit => rw [← hcand]; exact sweepNext_frequency hexpired'
      case enable =>
        rw [sweepNext_en_iff hexpired', sweepEnabled_fields_iff, Byte.field_period_ne_zero_iff, hcand, sweepCand_eq]
    · rw [if_neg fun h => hexpired h.2, if_pos hclock, sweepNext_counting (Nat.not_lt.mp hexpired)]
      have hlt := s.swpCd.isLt
      exact ⟨(BitVec.toNat_ofNat ..).trans (Nat.mod_eq_of_lt (by omega)), rfl, rfl, rfl, rfl⟩
  · rw [if_neg hclock] at hview
    rw [if_neg fun h => hclock h.1, if_neg hclock, hview]
    exact ⟨rfl, rfl, rfl, rfl, rfl⟩

/-- Settles O39: the sweep's clock either commits one frequency to all three places or touches none of them. -/
theorem committedFrequencyIsTheShadow : Obligations.CommittedFrequencyIsTheShadow := by
  intro n s hfault
  obtain ⟨t, ht, hsweep⟩ := sweepClockCommitsAndChecks n s hfault
  refine ⟨t, ht, ?_⟩
  split at hsweep
  · obtain ⟨-, hcommit, -⟩ := hsweep
    split at hcommit
    · obtain ⟨hshadow, hlow, hhigh⟩ := hcommit
      exact .inl (by omega)
    · exact .inr hcommit
  · obtain ⟨-, hshadow, -, hlow, hhigh⟩ := hsweep
    exact .inr ⟨hshadow, hlow, hhigh⟩

end Sys2Proof.Machine
end

section
/-! PROOF. Orders, variants and sequences of `TICK` (40_tick_scheduler.md R93 to R98, 42_envelope.md R150, R153,
44_length.md R180, R184). -/

namespace Sys2Proof.Machine

/-! ## Orders that no one can observe -/

/-- Steps that commute may be taken in any order. -/
theorem foldl_perm {α : Type} (step : α → State → State) (hcomm : ∀ x y s, step x (step y s) = step y (step x s))
    {l m : List α} (h : l.Perm m) (s : State) :
    l.foldl (fun s x => step x s) s = m.foldl (fun s x => step x s) s :=
  h.foldl_eq' (fun x _ y _ s => hcomm y x s) s

/-- Settles O44: firings commute. -/
theorem firingOrderIsUnobservable : Obligations.FiringOrderIsUnobservable :=
  fun cfg n s _ hperm => foldl_perm (fire cfg) (fire_comm cfg) hperm (accumulate n s)

/-- Settles O45: the steps of one clock commute. -/
theorem channelOrderIsUnobservable : Obligations.ChannelOrderIsUnobservable :=
  ⟨fun s _ hperm => foldl_perm envStep envStep_comm hperm s, fun s _ hperm => foldl_perm lenStep lenStep_comm hperm s⟩

/-! ## The looping variant -/

/-- Below two periods a sub-timer fires once in either variant (R94). -/
theorem fire_multiFire {cfg : Config} {x : SubTimer} {s : State} (h : s.acc.get x < 2 * cfg.period x) :
    fire { cfg with multiFire := true } x s = fire { cfg with multiFire := false } x s := by
  have hperiod (b : Bool) : Config.period { cfg with multiFire := b } x = cfg.period x := by cases x <;> rfl
  simp only [fire, hperiod]
  split
  · next hle =>
    have hcount : s.acc.get x / cfg.period x = 1 := Nat.div_eq_of_lt_le (by omega) (by omega)
    simp only [clockCount, if_true, Bool.false_eq_true, if_false, hcount]
  · rfl

/-- A firing raises no accumulator. -/
theorem fire_acc_le (cfg : Config) (x y : SubTimer) (s : State) : (fire cfg x s).acc.get y ≤ s.acc.get y := by
  by_cases h : y = x
  · rw [h, fire_acc_self]; exact Nat.mod_le _ _
  · rw [fire_acc_ne cfg h]

/-- The variants agree on a whole second phase that begins below two periods. -/
theorem fireAll_multiFire {cfg : Config} (order : List SubTimer) {s : State} (h : ∀ x, s.acc.get x < 2 * cfg.period x) :
    fireAll { cfg with multiFire := true } order s = fireAll { cfg with multiFire := false } order s := by
  induction order generalizing s with
  | nil => rfl
  | cons x order ih =>
    have hnext : ∀ y, (fire { cfg with multiFire := false } x s).acc.get y < 2 * cfg.period y := fun y =>
      Nat.lt_of_le_of_lt (fire_acc_le _ x y s) (h y)
    rw [fireAll, List.foldl_cons, ← fireAll, fire_multiFire (h x), ih hnext]
    rfl

/-- Settles O47: fine ticks stay below two periods. -/
theorem multiFireAgreesOnFineTicks : Obligations.MultiFireAgreesOnFineTicks := by
  intro cfg n s hacc hn
  refine fireAll_multiFire (s := accumulate n s) fireOrder fun x => ?_
  have := hacc x
  have := hn x
  rw [accumulate_get]
  omega

/-- Settles O48: a `TICK` is the clocks it raises, and its accumulators; both ticks raise the same clocks. -/
theorem coarseTickClocksEachMachineOnce : Obligations.CoarseTickClocksEachMachineOnce := by
  intro n m s hfault hsame
  have hclocks : tickClocks n.toNat s = tickClocks m.toNat s := funext fun x => if_congr (hsame x) rfl rfl
  have hn := tick_eq_clocked n.toNat s
  have hm := tick_eq_clocked m.toNat s
  rw [← hclocks] at hm
  generalize (tick Config.hardware n.toNat s).acc = a at hn
  generalize (tick Config.hardware m.toNat s).acc = a' at hm
  refine ⟨_, _, exec_tick_next n hfault, exec_tick_next m hfault, ?_⟩
  rw [hm, hn]
  rfl

/-! ## Fine ticks (R98) -/

/-- The frame sequencer after `k` clocks. -/
theorem iterate_fsClock_fsStep (k : Nat) (s : State) :
    ((SubTimer.clock .fs)^[k] s).fsStep.toNat = (s.fsStep.toNat + k) % 8 := by
  induction k with
  | zero => exact (Nat.mod_eq_of_lt s.fsStep.isLt).symm
  | succ k ih =>
    rw [Function.iterate_succ_apply', SubTimer.clock, State.fsClock_fsStep, BitVec.toNat_add, ← SubTimer.clock, ih]
    exact Nat.mod_add_mod _ 8 1

theorem iterate_clock_fsStep {x : SubTimer} (hx : x ≠ .fs) (k : Nat) (s : State) :
    ((SubTimer.clock x)^[k] s).fsStep = s.fsStep := by
  induction k generalizing s with
  | zero => rfl
  | succ k ih =>
    rw [Function.iterate_succ_apply, ih]
    cases x <;> simp_all [SubTimer.clock]

/-- Of the clocked machines only the frame sequencer moves `fs_step` (R96). -/
theorem State.clocked_fsStep_toNat (k : SubTimer → Nat) (s : State) :
    (s.clocked k).fsStep.toNat = (s.fsStep.toNat + k .fs) % 8 := by
  rw [State.clocked, iterate_clock_fsStep (x := .len) (by decide), iterate_clock_fsStep (x := .swp) (by decide),
    iterate_clock_fsStep (x := .env) (by decide), iterate_fsClock_fsStep]

/-- Settles O46: the run ends in the state of `ticks`, whose clocks `ticks_eq_clocked` counts. -/
theorem fineTicksLoseNoClock : Obligations.FineTicksLoseNoClock := by
  intro ns s hfault hacc
  obtain ⟨k, hclocked, hcounts⟩ := ticks_eq_clocked ns s hacc
  refine ⟨_, k, runsTo_ticks ns s hfault, ⟨rfl, (ticks_fault ns s).trans hfault⟩,
    congrArg (fun u : State => { u with port := [] }) hclocked, hcounts, fun hfine => ?_⟩
  obtain ⟨-, -, hexact⟩ := hcounts .fs
  have hstep : (ticks ns s).fsStep = (s.clocked k).fsStep := by rw [hclocked]; rfl
  have hk : k .fs = (s.acc.fs + (ns.map BitVec.toNat).sum) / Config.hardware.pFs := hexact hfine
  exact (congrArg BitVec.toNat hstep).trans ((State.clocked_fsStep_toNat k s).trans (by rw [hk]))

/-! ## Ticks of one period -/

/-- The run of `k` equal ticks ends in the state of `ticks`. -/
theorem runsTo_replicate (k : Nat) (n : Cycles) {s : State} (hfault : s.fault = false) :
    RunsTo k { s with port := tickPort (List.replicate k n) } { ticks (List.replicate k n) s with port := [] } := by
  have hrun := runsTo_ticks (List.replicate k n) s hfault
  rwa [List.length_replicate] at hrun

/-- An enabled length counter of `L` after `k` length clocks (44_length.md R184). -/
theorem ticks_lenView (c : Channel) (k : Nat) {s : State} (hen : s.lenEnable c = true) (hpos : 1 ≤ s.len.get c) :
    (ticks (List.replicate k (BitVec.ofNat 32 Config.hardware.pLen)) s).lenView c =
      (s.len.get c - k, decide (k < s.len.get c)) := by
  induction k with
  | zero => exact Prod.ext rfl (hen.trans (decide_eq_true hpos).symm)
  | succ k ih =>
    rw [ticks_replicate_succ, State.silent_lenView, hardware_lenView, hardware_pLen_toNat,
      if_pos (Nat.le_add_left ..), ih, lenNext]
    by_cases hk : k < s.len.get c
    · simp only [hk, decide_true, Bool.true_eq_false, if_false, Prod.mk.injEq, decide_eq_decide]
      omega
    · simp only [hk, decide_false, if_true, Prod.mk.injEq]
      exact ⟨by omega, (decide_eq_false (by omega)).symm⟩

/-- Settles O49: the length view after `k` clocks in closed form. -/
theorem noteEndsAfterItsLength : Obligations.NoteEndsAfterItsLength := by
  change ∀ w ∈ [Channel.ch1, .ch2, .ch3, .ch4].map fun c => (c, c.nrc1, c.nrc4), _
  rw [List.forall_mem_map]
  intro c _ k s hfault hen hpos
  obtain ⟨hlen, hbit⟩ := Prod.ext_iff.mp (ticks_lenView c k hen hpos)
  exact ⟨_, runsTo_replicate k _ hfault, hlen, (Bool.eq_iff_iff.mp hbit).trans decide_eq_true_iff⟩

/-- An envelope register's low nibble holds its period and its direction (30_encoding.md R69). -/
theorem Byte.lowNibble_congr {u v : Byte} (h : u.field 0 4 = v.field 0 4) :
    u.toNat % 16 = v.toNat % 16 ∧ u.getLsbD 3 = v.getLsbD 3 := by
  constructor
  · have hnat := congrArg BitVec.toNat h
    rwa [Byte.field_low, Byte.field_low] at hnat
  · have hbit := congrArg (·.getLsbD 3) h
    simpa only [Byte.getLsbD_field _ 0 4 3 (by decide)] using hbit

/-- Countdown and register of an envelope `k` clocks after a start at register value `e` with the whole period before it
(42_envelope.md R153). -/
def EnvRamp (e : Byte) (k : Nat) (x : BitVec 3 × Byte) : Prop :=
  x.2.field 0 4 = e.field 0 4 ∧ x.1.toNat = e.toNat % 8 - k % (e.toNat % 8) ∧
    x.2.toNat / 16 =
      if e.getLsbD 3 then min 15 (e.toNat / 16 + k / (e.toNat % 8)) else e.toNat / 16 - k / (e.toNat % 8)

theorem EnvRamp.start {e : Byte} {cd : BitVec 3} (hcd : cd.toNat = e.toNat % 8) : EnvRamp e 0 (cd, e) := by
  have hle : e.toNat / 16 ≤ 15 := by have := e.isLt; omega
  refine ⟨rfl, by rw [hcd, Nat.zero_mod, Nat.sub_zero], ?_⟩
  rw [Nat.zero_div, Nat.add_zero, Nat.sub_zero, Nat.min_eq_right hle, ite_self]

/-- Each clock carries the ramp on. -/
theorem EnvRamp.next {e : Byte} {k : Nat} {x : BitVec 3 × Byte} (hp : e.toNat % 8 ≠ 0) (h : EnvRamp e k x) :
    EnvRamp e (k + 1) (envNext x) := by
  obtain ⟨hlow, hcd, hvol⟩ := h
  obtain ⟨hnibble, hdir⟩ := Byte.lowNibble_congr hlow
  obtain ⟨hcd', -, hvol'⟩ := envNext_ramp x k (e.toNat % 8) (e.toNat / 16) (x.2.toNat % 16) (e.getLsbD 3)
    (Nat.pos_of_ne_zero hp) (Nat.mod_lt _ (by decide)) hdir (by omega) hcd rfl hvol
  exact ⟨(envNext_lowNibble x).trans hlow, hcd', hvol'⟩

/-- An envelope with a whole period before it, after `k` envelope clocks. -/
theorem ticks_envView (c : EnvChannel) (k : Nat) {s : State} (hp : (s.nr c.nrc2).toNat % 8 ≠ 0)
    (hcd : (s.envCd.get c).toNat = (s.nr c.nrc2).toNat % 8) :
    EnvRamp (s.nr c.nrc2) k ((ticks (List.replicate k (BitVec.ofNat 32 Config.hardware.pEnv)) s).envView c) := by
  induction k with
  | zero => exact EnvRamp.start hcd
  | succ k ih =>
    rw [ticks_replicate_succ, State.silent_envView, hardware_envView, hardware_pEnv_toNat, if_pos (Nat.le_add_left ..)]
    exact ih.next hp

/-- Settles O50: the ramp of the envelope's view after `k` clocks. -/
theorem envelopeRampsEveryPeriod : Obligations.EnvelopeRampsEveryPeriod := by
  change ∀ w ∈ [EnvChannel.ch1, .ch2, .ch4].map fun c => (c, c.nrc2), _
  rw [List.forall_mem_map]
  intro c _ k s hfault period v hp hcd
  obtain ⟨hlow, hcd', hvol⟩ := ticks_envView c k hp hcd
  exact ⟨_, runsTo_replicate k _ hfault, hvol, (Byte.lowNibble_congr hlow).1, hcd'⟩

end Sys2Proof.Machine
end

section
/-! PROOF. The invariant (10_state.md R24). -/

namespace Sys2Proof.Machine

theorem State.Inv.reset : State.reset.Inv Config.hardware where
  acc_lt x := by cases x <;> decide
  swpCd_le := by decide
  len3_le := by decide
  aram_wf := State.reset_aram_wf
  aram_below _ _ h := nomatch h

/-- Settles O10: every clause is about the constant `State.reset`. -/
theorem resetStateMeetsTheInvariant : Obligations.ResetStateMeetsTheInvariant := State.Inv.reset

/-- A restart write loads a sweep countdown of at most 8 and at most `LENMAX` (R17, R20). -/
theorem restartWrite_inv {cfg : Config} {s : State} (c : Channel) (b : Byte) (h : s.Inv cfg) :
    (restartWrite c b s).Inv cfg := by
  unfold restartWrite
  split
  · have spec := trigger_spec c (overwrite c.nrc4 b s)
    refine h.of_same spec.acc ?countdown ?length spec.aram
    case countdown =>
      rw [spec.swpCd]
      split
      · exact sweepReload_le _
      · exact h.swpCd_le
    case length =>
      rw [spec.len]
      split
      · next hc => rw [← hc.1]; decide
      · exact h.len3_le
  · exact h.of_same rfl h.swpCd_le h.len3_le rfl

/-- A write to `NRc1` loads at most 256 into `len[3]` (R20). -/
theorem lengthWrite_inv {cfg : Config} {s : State} (c : Channel) (b : Byte) (h : s.Inv cfg) :
    (lengthWrite c b s).Inv cfg := by
  refine h.of_same rfl h.swpCd_le ?_ rfl
  rw [lengthWrite_len]
  split
  · next hc => rw [← hc]; exact lengthField_ch3 b
  · exact h.len3_le

theorem writeEffect_inv {cfg : Config} {s : State} (r : Reg) (b : Byte) (h : s.Inv cfg) :
    (writeEffect r b s).Inv cfg := by
  cases r with
  | nr11 => exact lengthWrite_inv .ch1 b h
  | nr21 => exact lengthWrite_inv .ch2 b h
  | nr31 => exact lengthWrite_inv .ch3 b h
  | nr41 => exact lengthWrite_inv .ch4 b h
  | nr14 => exact restartWrite_inv .ch1 b h
  | nr24 => exact restartWrite_inv .ch2 b h
  | nr34 => exact restartWrite_inv .ch3 b h
  | nr44 => exact restartWrite_inv .ch4 b h
  | _ => exact h.of_same rfl h.swpCd_le h.len3_le rfl

/-- A write in range keeps the canonical form and the offset bound of Audio RAM; one out of range does not write. -/
theorem aramWrite_inv {cfg : Config} {s : State} (a : Addr) (b : Byte) (h : s.Inv cfg) :
    (aramWrite cfg a b s).Inv cfg := by
  cases ha : aramIndex? cfg a with
  | some o =>
    rw [aramWrite_some ha]
    exact ⟨h.acc_lt, h.swpCd_le, h.len3_le, Memory.wf_write _ _ _ h.aram_wf,
      Memory.below_write _ _ _ _ h.aram_below (aramIndex?_lt ha)⟩
  | none =>
    rw [aramWrite_none ha]
    exact h.of_same rfl h.swpCd_le h.len3_le rfl

theorem aramRead_inv {cfg : Config} {s : State} (a : Addr) (h : s.Inv cfg) : (aramRead cfg a s).Inv cfg := by
  cases ha : aramIndex? cfg a with
  | some o => rw [aramRead_some ha]; exact h.of_same rfl h.swpCd_le h.len3_le rfl
  | none => rw [aramRead_none ha]; exact h.of_same rfl h.swpCd_le h.len3_le rfl

/-- Every command keeps the invariant. -/
theorem exec_inv {i : Instr} {s t : State} (h : s.Inv Config.hardware) (hexec : exec i s = .next t) :
    t.Inv Config.hardware := by
  induction i using Instr.family_cases with
  | write r b =>
    rw [exec_write, State.perform_next] at hexec
    exact hexec.2 ▸ (writeEffect_inv r b h).silent
  | read r =>
    rw [exec_read, State.perform_next] at hexec
    exact hexec.2 ▸ h.of_same rfl h.swpCd_le h.len3_le rfl
  | tick n =>
    rw [exec_tick, State.perform_next] at hexec
    exact hexec.2 ▸ (tick_inv n.toNat h).silent
  | wrUnmapped a b =>
    rw [exec_wrUnmapped, State.perform_next] at hexec
    exact hexec.2 ▸ h.silent
  | rdUnmapped a =>
    rw [exec_rdUnmapped, State.perform_next] at hexec
    exact hexec.2 ▸ h.of_same rfl h.swpCd_le h.len3_le rfl
  | ramwr a b =>
    rw [exec_ramwr, State.perform_next] at hexec
    exact hexec.2 ▸ aramWrite_inv a b h
  | ramrd a =>
    rw [exec_ramrd, State.perform_next] at hexec
    exact hexec.2 ▸ aramRead_inv a h

/-- The invariant does not speak of the port and the draws. -/
theorem State.Inv.withPort {cfg : Config} {s : State} (h : s.Inv cfg) (p : List PortSample) :
    ({ s with port := p } : State).Inv cfg := h.of_same rfl h.swpCd_le h.len3_le rfl

/-- Settles O11: by the sample at the port. -/
theorem stepKeepsTheInvariant : Obligations.StepKeepsTheInvariant := by
  intro s t h ht
  obtain ⟨-, hstep⟩ | ⟨c, later, -, hstep⟩ | ⟨v, c, later, -, hstep⟩ | ⟨c, later, i, -, -, hstep⟩ |
    ⟨c, later, -, -, hstep⟩ := step_cases s
  all_goals rw [hstep] at ht
  case inl =>
    cases ht
    exact h.silent
  case inr.inl =>
    cases ht
    exact (h.withPort later).silent
  case inr.inr.inl =>
    cases ht
    exact State.Inv.reset.of_same rfl State.Inv.reset.swpCd_le State.Inv.reset.len3_le rfl
  case inr.inr.inr.inl => exact exec_inv (h.withPort later) ht
  case inr.inr.inr.inr => cases ht

end Sys2Proof.Machine
end

section
/-! PROOF. What changes what: register bits, hidden state, and registers no rule interprets (10_state.md R12 to R23,
30_encoding.md R70, R72, R73). -/

namespace Sys2Proof.Machine

/-! ## Registers under each command -/

theorem exists_nrc4_or_forall_ne (r : Reg) : (∃ c : Channel, r = c.nrc4) ∨ ∀ c : Channel, r ≠ c.nrc4 := by
  rw [← not_exists]
  exact Classical.em _

/-- A `WR` changes no other register. -/
theorem writeEffect_nr_ne {q r : Reg} (h : r ≠ q) (b : Byte) (s : State) : (writeEffect q b s).nr r = s.nr r := by
  obtain ⟨c, rfl⟩ | h4 := exists_nrc4_or_forall_ne q
  · rw [writeEffect_nrc4, restartWrite_nr, if_neg h]
  · obtain ⟨l, heffect, -⟩ := writeEffect_nonRestart h4 b s
    rw [heffect]
    exact State.nr_setNr_ne s b h

theorem aramRead_nr (cfg : Config) (a : Addr) (s : State) (r : Reg) : (aramRead cfg a s).nr r = s.nr r := by
  unfold aramRead; split <;> rfl

theorem aramWrite_nr (cfg : Config) (a : Addr) (b : Byte) (s : State) (r : Reg) :
    (aramWrite cfg a b s).nr r = s.nr r := by
  unfold aramWrite; split <;> rfl

/-- Only TICK and the register's own `WR` change a register. -/
theorem exec_nr {i : Instr} {s t : State} {r : Reg} (hexec : exec i s = .next t) (hw : ∀ b, i ≠ .write r b)
    (htick : ∀ n, i ≠ .tick n) : t.nr r = s.nr r := by
  induction i using Instr.family_cases with
  | write q b =>
    rw [exec_write, State.perform_next] at hexec
    have hne : r ≠ q := by
      rintro rfl
      exact hw b rfl
    rw [hexec.2, State.nr_silent, writeEffect_nr_ne hne]
  | read q =>
    rw [exec_read, State.perform_next] at hexec
    rw [hexec.2, readRegister, State.nr_answer]
  | tick n => exact absurd rfl (htick n)
  | wrUnmapped a b =>
    rw [exec_wrUnmapped, State.perform_next] at hexec
    rw [hexec.2, State.nr_silent]
  | rdUnmapped a =>
    rw [exec_rdUnmapped, State.perform_next] at hexec
    rw [hexec.2, State.nr_answerFree]
  | ramwr a b =>
    rw [exec_ramwr, State.perform_next] at hexec
    rw [hexec.2, aramWrite_nr]
  | ramrd a =>
    rw [exec_ramrd, State.perform_next] at hexec
    rw [hexec.2, aramRead_nr]

/-! ## Bits no state machine writes (R12) -/

/-- The low nibble as a mask. -/
theorem Byte.and_lowNibble (v : Byte) : v &&& 0x0F = (v.field 0 4).setWidth 8 := by
  revert v; decide

/-- Bits 7 and 5:3 as a mask: bit 6 and bits 2:0 cleared. -/
theorem Byte.and_B8 (v : Byte) : v &&& 0xB8 = (v.setBit 6 false).setField 0 (0 : BitVec 3) := by
  revert v; decide

/-- A restart register's bits other than 6, from its fields. -/
theorem Byte.clearSix_congr {u v : Byte} (low : u.field 0 3 = v.field 0 3) (mid : u.field 3 3 = v.field 3 3)
    (seven : u.bit 7 = v.bit 7) : u &&& 0xBF = v &&& 0xBF := by
  rw [← Byte.setBit_six_false, ← Byte.setBit_six_false]
  apply Byte.ext_restart
  · rw [Byte.field_setBit_six _ _ _ _ (by decide), Byte.field_setBit_six _ _ _ _ (by decide), low]
  · rw [Byte.field_setBit_six _ _ _ _ (by decide), Byte.field_setBit_six _ _ _ _ (by decide), mid]
  · rw [Byte.bit_setBit, Byte.bit_setBit]; rfl
  · rw [Byte.bit_setBit, Byte.bit_setBit, seven]

/-- Bits 7 and 5:3 of a restart register, from its fields. -/
theorem Byte.clearSixAndLow_congr {u v : Byte} (mid : u.field 3 3 = v.field 3 3) (seven : u.bit 7 = v.bit 7) :
    u &&& 0xB8 = v &&& 0xB8 := by
  have hlow (w : Byte) : (w.setField 0 (0 : BitVec 3)).field 0 3 = 0 := Byte.field_setField_same w 0 0 (by decide)
  have hmid (w : Byte) : (w.setField 0 (0 : BitVec 3)).field 3 3 = w.field 3 3 :=
    Byte.field_setField_disjoint w 0 3 3 _ (.inr (by decide)) (by decide)
  have hseven (w : Byte) : (w.setField 0 (0 : BitVec 3)).bit 7 = w.bit 7 :=
    Byte.bit_setField_outside w 0 _ 7 (.inr (by decide))
  have hcleared := Byte.clearSix_congr ((hlow u).trans (hlow v).symm) ((hmid u).trans (mid.trans (hmid v).symm))
    ((hseven u).trans (seven.trans (hseven v).symm))
  rwa [← Byte.setBit_six_false, ← Byte.setBit_six_false, Byte.setBit_six_setField_low, Byte.setBit_six_setField_low,
    ← Byte.and_B8, ← Byte.and_B8] at hcleared

/-- Bits 7 and 5:0 of the restart registers of channels 2 to 4. -/
theorem tick_hostOnlyBits_nrc4 (cfg : Config) (n : Nat) (s : State) (c : Channel) (hc : c ≠ .ch1) :
    (tick cfg n s).nr c.nrc4 &&& 0xBF = s.nr c.nrc4 &&& 0xBF := by
  obtain ⟨hmid, hseven⟩ := tick_nrc4_keeps cfg n s c
  exact Byte.clearSix_congr (tick_nrc4_low cfg n s c hc) hmid hseven

/-- The low nibble of the envelope registers. -/
theorem tick_hostOnlyBits_nrc2 (cfg : Config) (n : Nat) (s : State) (c : EnvChannel) :
    (tick cfg n s).nr c.nrc2 &&& 0x0F = s.nr c.nrc2 &&& 0x0F := by
  rw [Byte.and_lowNibble, Byte.and_lowNibble, tick_nrc2_low]

/-- `TICK` changes no host-only bit of any register. -/
theorem tick_hostOnlyBits (cfg : Config) (n : Nat) (s : State) (r : Reg) :
    (tick cfg n s).nr r &&& hostOnlyBits r = s.nr r &&& hostOnlyBits r := by
  cases r with
  | nr12 => exact tick_hostOnlyBits_nrc2 cfg n s .ch1
  | nr22 => exact tick_hostOnlyBits_nrc2 cfg n s .ch2
  | nr42 => exact tick_hostOnlyBits_nrc2 cfg n s .ch4
  | nr13 => simp [hostOnlyBits]
  | nr14 =>
    obtain ⟨hmid, hseven⟩ := tick_nrc4_keeps cfg n s .ch1
    exact Byte.clearSixAndLow_congr hmid hseven
  | nr24 => exact tick_hostOnlyBits_nrc4 cfg n s .ch2 (by decide)
  | nr34 => exact tick_hostOnlyBits_nrc4 cfg n s .ch3 (by decide)
  | nr44 => exact tick_hostOnlyBits_nrc4 cfg n s .ch4 (by decide)
  | _ =>
    rw [tick_nr cfg n s (by intro c; cases c <;> decide) (by intro c; cases c <;> decide) (by decide)]

/-- Settles O51: only TICK and the register's own `WR` write a register, and TICK no host-only bit. -/
theorem hostOnlyBitsChangeOnlyByWrite : Obligations.HostOnlyBitsChangeOnlyByWrite := by
  refine fun i s t hexec => ⟨fun r hw => ?_, fun hw htick r => exec_nr hexec (hw r) htick⟩
  by_cases htick : ∃ n, i = .tick n
  · obtain ⟨n, rfl⟩ := htick
    rw [exec_tick, State.perform_next] at hexec
    rw [hexec.2, State.nr_silent, tick_hostOnlyBits]
  · rw [exec_nr hexec hw (not_exists.mp htick)]

/-! ## The writers of the hidden state -/

/-- What a `WR` to `r` can change besides registers: the sweep by NR14, a countdown by its `NRc4`, a length counter by
its `NRc1` and `NRc4`; never the scheduler (10_state.md R14 to R20). -/
structure WriteFrame (r : Reg) (s t : State) : Prop where
  timers : SameTimers s t
  sweep : r ≠ .nr14 → SameSweep s t
  envCd : ∀ e : EnvChannel, r ≠ e.channel.nrc4 → t.envCd.get e = s.envCd.get e
  len : ∀ c : Channel, r ≠ c.nrc1 → r ≠ c.nrc4 → t.len.get c = s.len.get c

theorem Channel.eq_of_envelope? {c : Channel} {e : EnvChannel} (h : c.envelope? = some e) : c = e.channel := by
  revert h; cases c <;> cases e <;> decide

/-- A restart write changes what its trigger reloads. -/
theorem restartWrite_frame (c : Channel) (b : Byte) (s : State) : WriteFrame c.nrc4 s (restartWrite c b s) := by
  unfold restartWrite
  split
  · have spec := trigger_spec c (overwrite c.nrc4 b s)
    constructor
    case timers => exact ⟨spec.acc, spec.fsStep⟩
    case sweep =>
      refine fun hne => trigger_sameSweep (overwrite c.nrc4 b s) ?_
      rintro rfl
      exact hne rfl
    case envCd =>
      intro e hne
      rw [trigger_overwrite_envCd, if_neg fun he => hne (congrArg Channel.nrc4 (Channel.eq_of_envelope? he))]
    case len =>
      intro x _ hne
      refine trigger_len_ne (overwrite c.nrc4 b s) ?_
      rintro rfl
      exact hne rfl
  · exact ⟨⟨rfl, rfl⟩, fun _ => ⟨rfl, rfl, rfl⟩, fun _ _ => rfl, fun _ _ _ => rfl⟩

/-- Another write changes at most the length counter of its own `NRc1`. -/
theorem lengthWrite_frame (c : Channel) (b : Byte) (s : State) : WriteFrame c.nrc1 s (lengthWrite c b s) := by
  refine ⟨⟨rfl, rfl⟩, fun _ => ⟨rfl, rfl, rfl⟩, fun _ _ => rfl, fun x hne _ => ?_⟩
  rw [lengthWrite_len, if_neg]
  rintro rfl
  exact hne rfl

theorem writeEffect_frame (r : Reg) (b : Byte) (s : State) : WriteFrame r s (writeEffect r b s) := by
  cases r with
  | nr11 => exact lengthWrite_frame .ch1 b s
  | nr21 => exact lengthWrite_frame .ch2 b s
  | nr31 => exact lengthWrite_frame .ch3 b s
  | nr41 => exact lengthWrite_frame .ch4 b s
  | nr14 => exact restartWrite_frame .ch1 b s
  | nr24 => exact restartWrite_frame .ch2 b s
  | nr34 => exact restartWrite_frame .ch3 b s
  | nr44 => exact restartWrite_frame .ch4 b s
  | _ => exact ⟨⟨rfl, rfl⟩, fun _ => ⟨rfl, rfl, rfl⟩, fun _ _ => rfl, fun _ _ _ => rfl⟩

/-- No hidden state of the scheduler, the sweep, the envelopes and the length counters differs. -/
def SameHidden (s t : State) : Prop :=
  SameTimers s t ∧ SameSweep s t ∧ SameEnvCdBut [] s t ∧ SameLenBut [] s t

theorem aramRead_sameHidden (cfg : Config) (a : Addr) (s : State) : SameHidden s (aramRead cfg a s) := by
  unfold aramRead
  split <;> exact ⟨⟨rfl, rfl⟩, ⟨rfl, rfl, rfl⟩, fun _ _ => rfl, fun _ _ => rfl⟩

theorem aramWrite_sameHidden (cfg : Config) (a : Addr) (b : Byte) (s : State) : SameHidden s (aramWrite cfg a b s) := by
  unfold aramWrite
  split <;> exact ⟨⟨rfl, rfl⟩, ⟨rfl, rfl, rfl⟩, fun _ _ => rfl, fun _ _ => rfl⟩

/-- A command but TICK is a `WR`, with its frame, or changes no hidden state. -/
theorem exec_frame {i : Instr} {s t : State} (hexec : exec i s = .next t) (htick : ∀ n, i ≠ .tick n) :
    (∃ r b, i = .write r b ∧ WriteFrame r s t) ∨ SameHidden s t := by
  induction i using Instr.family_cases with
  | write r b =>
    rw [exec_write, State.perform_next] at hexec
    obtain ⟨htimers, hsweep, henv, hlen⟩ := writeEffect_frame r b s
    exact .inl ⟨r, b, rfl, hexec.2 ▸ ⟨htimers, hsweep, henv, hlen⟩⟩
  | tick n => exact absurd rfl (htick n)
  | read r =>
    rw [exec_read, State.perform_next] at hexec
    exact .inr (hexec.2 ▸ ⟨⟨rfl, rfl⟩, ⟨rfl, rfl, rfl⟩, fun _ _ => rfl, fun _ _ => rfl⟩)
  | wrUnmapped a b =>
    rw [exec_wrUnmapped, State.perform_next] at hexec
    exact .inr (hexec.2 ▸ ⟨⟨rfl, rfl⟩, ⟨rfl, rfl, rfl⟩, fun _ _ => rfl, fun _ _ => rfl⟩)
  | rdUnmapped a =>
    rw [exec_rdUnmapped, State.perform_next] at hexec
    exact .inr (hexec.2 ▸ ⟨⟨rfl, rfl⟩, ⟨rfl, rfl, rfl⟩, fun _ _ => rfl, fun _ _ => rfl⟩)
  | ramwr a b =>
    rw [exec_ramwr, State.perform_next] at hexec
    exact .inr (hexec.2 ▸ aramWrite_sameHidden _ a b s)
  | ramrd a =>
    rw [exec_ramrd, State.perform_next] at hexec
    exact .inr (hexec.2 ▸ aramRead_sameHidden _ a s)

/-- A step of a faulted block that answers and is no reset leaves the sticky flag (10_state.md R22). -/
theorem step_faulted_sticky {s t : State} (ht : step s = .next t) (hfault : s.fault = true)
    (hnoReset : ∀ v c later, s.port ≠ ⟨true, v, c⟩ :: later) : t.fault = true := by
  obtain ⟨v, c, later, hport, -⟩ | ⟨-, rfl⟩ := onlyResetLeavesTheFaultedState s t hfault ht
  · exact absurd hport (hnoReset v c later)
  · exact hfault

/-- Settles O52: commands by their frames, the flag by `exec_fault_eq` and, over steps, by O16. -/
theorem hiddenStateHasOnlyItsWriters : Obligations.HiddenStateHasOnlyItsWriters := by
  refine ⟨fun i s t hexec htick => ?_, fun s t => step_faulted_sticky⟩
  suffices h : SameTimers s t ∧ ((∀ b, i ≠ .wrNr14 b) → SameSweep s t) ∧
      (∀ e : EnvChannel, (∀ b, i ≠ .write e.channel.nrc4 b) → t.envCd.get e = s.envCd.get e) ∧
      ∀ c : Channel, (∀ b, i ≠ .write c.nrc1 b) → (∀ b, i ≠ .write c.nrc4 b) → t.len.get c = s.len.get c by
    obtain ⟨htimers, hsweep, henv, hlen⟩ := h
    refine ⟨htimers, hsweep, ?_, ?_, fun hr hw => exec_fault_eq hexec hr hw⟩
    · change ∀ w ∈ [EnvChannel.ch1, .ch2, .ch4].map fun e => (e, e.channel.nrc4), _
      exact List.forall_mem_map.mpr fun e _ => henv e
    · change ∀ w ∈ [Channel.ch1, .ch2, .ch3, .ch4].map fun c => (c, c.nrc1, c.nrc4), _
      exact List.forall_mem_map.mpr fun c _ => hlen c
  obtain ⟨r, b, rfl, frame⟩ | ⟨htimers, hsweep, henv, hlen⟩ := exec_frame hexec htick
  · have hne {q : Reg} (h : ∀ b', Instr.write r b ≠ .write q b') : r ≠ q := by
      rintro rfl
      exact h b rfl
    exact ⟨frame.timers, fun h => frame.sweep (hne (q := .nr14) h), fun e h => frame.envCd e (hne h),
      fun c h1 h4 => frame.len c (hne h1) (hne h4)⟩
  · exact ⟨htimers, fun _ => hsweep, fun e _ => henv e List.not_mem_nil, fun c _ _ => hlen c List.not_mem_nil⟩

/-! ## Registers no rule interprets -/

/-- The effect carries the value of register `r` along: it neither reads nor writes it. -/
def LeavesRegAlone (r : Reg) (effect : State → State) : Prop :=
  ∀ s v, effect (s.withReg r v) = (effect s).withReg r v

theorem LeavesRegAlone.silent {r : Reg} {effect : State → State} (h : LeavesRegAlone r effect) :
    LeavesRegAlone r fun s => (effect s).silent := fun s v => congrArg State.silent (h s v)

theorem tick_leavesRegAlone {r : Reg} (hr : r ∈ uninterpreted) (cfg : Config) (n : Nat) :
    LeavesRegAlone r (tick cfg n) := fun s v =>
  tick_comm cfg (fun s => s.withReg r v) (clock_withReg hr v) (fun _ _ => rfl) (fun _ => rfl) n s

/-- A `WR` to another register does not reach `r`, the trigger it may run included. -/
theorem writeEffect_leavesRegAlone {r q : Reg} (hr : r ∈ uninterpreted) (hq : q ≠ r) (b : Byte) :
    LeavesRegAlone r (writeEffect q b) := by
  intro s v
  obtain ⟨c, rfl⟩ | h4 := exists_nrc4_or_forall_ne q
  · have hold : (s.withReg r v).nr c.nrc4 = s.nr c.nrc4 := by rw [nr_withReg, if_neg hq]
    have hstore : overwrite c.nrc4 b (s.withReg r v) = (overwrite c.nrc4 b s).withReg r v := set_withReg s v b hq
    rw [writeEffect_nrc4, writeEffect_nrc4, restartWrite, restartWrite, hold, hstore, trigger_withReg hr]
    split <;> rfl
  · have hstore : overwrite q b (s.withReg r v) = (overwrite q b s).withReg r v := set_withReg s v b hq
    by_cases h1 : ∃ c : Channel, q = c.nrc1
    · obtain ⟨c, rfl⟩ := h1
      rw [writeEffect_nrc1, writeEffect_nrc1, lengthWrite, lengthWrite, hstore]
      rfl
    · rw [writeEffect_plain (not_exists.mp h1) h4, writeEffect_plain (not_exists.mp h1) h4, hstore]

/-- What another value of register `r` makes of a command's effect: the same state but for that register and, only by
its `RD`, the response. -/
def RegShowsOnlyInItsRead (r : Reg) (i : Instr) (effect : State → State) : Prop :=
  ∀ s v, ∃ w x, effect (s.withReg r v) = ((effect s).withReg r w).withRsp x ∧ (i ≠ .read r → x = (effect s).rsp)

theorem LeavesRegAlone.showsOnlyInItsRead {r : Reg} {effect : State → State} (h : LeavesRegAlone r effect) (i : Instr) :
    RegShowsOnlyInItsRead r i effect := fun s v => ⟨v, (effect s).rsp, h s v, fun _ => rfl⟩

/-- A `WR` to `r` itself stores its byte over any value. -/
theorem writeEffect_showsOnlyInItsRead {r : Reg} (hr : r ∈ uninterpreted) (b : Byte) (i : Instr) :
    RegShowsOnlyInItsRead r i fun s => (writeEffect r b s).silent := by
  intro s v
  have h1 : ∀ c : Channel, r ≠ c.nrc1 := by rintro c rfl; cases c <;> exact absurd hr (by decide)
  have h4 : ∀ c : Channel, r ≠ c.nrc4 := by rintro c rfl; cases c <;> exact absurd hr (by decide)
  refine ⟨b, Response.silent, ?_, fun _ => rfl⟩
  simp only [writeEffect_plain h1 h4, overwrite, State.setNr, State.withReg, State.silent, State.withRsp,
    RegBank.set_set]

/-- An `RD` answers with the register read, which shows the value only if it is `r`. -/
theorem readRegister_showsOnlyInItsRead (r q : Reg) : RegShowsOnlyInItsRead r (.read q) (readRegister q) := by
  refine fun s v => ⟨v, ⟨some ((s.withReg r v).nr q), none⟩, rfl, fun hne => ?_⟩
  have hq : q ≠ r := by
    rintro rfl
    exact hne rfl
  rw [nr_withReg, if_neg hq]
  rfl

/-- Every command is performed as an effect that shows an uninterpreted register only in its `RD`. -/
theorem exec_performs_regShowsOnlyInItsRead {r : Reg} (hr : r ∈ uninterpreted) (i : Instr) :
    ∃ effect, (∀ s, exec i s = s.perform effect) ∧ RegShowsOnlyInItsRead r i effect := by
  induction i using Instr.family_cases with
  | write q b =>
    refine ⟨_, exec_write q b, ?_⟩
    by_cases hq : q = r
    · subst hq
      exact writeEffect_showsOnlyInItsRead hr b _
    · exact (writeEffect_leavesRegAlone hr hq b).silent.showsOnlyInItsRead _
  | read q => exact ⟨_, exec_read q, readRegister_showsOnlyInItsRead r q⟩
  | tick n =>
    exact ⟨_, exec_tick n, (tick_leavesRegAlone hr Config.hardware n.toNat).silent.showsOnlyInItsRead _⟩
  | wrUnmapped a b => exact ⟨_, exec_wrUnmapped a b, LeavesRegAlone.showsOnlyInItsRead (fun _ _ => rfl) _⟩
  | rdUnmapped a => exact ⟨_, exec_rdUnmapped a, LeavesRegAlone.showsOnlyInItsRead (fun _ _ => rfl) _⟩
  | ramwr a b =>
    refine ⟨_, exec_ramwr a b, LeavesRegAlone.showsOnlyInItsRead (fun s v => ?_) _⟩
    unfold aramWrite
    split <;> rfl
  | ramrd a =>
    refine ⟨_, exec_ramrd a, LeavesRegAlone.showsOnlyInItsRead (fun s v => ?_) _⟩
    unfold aramRead
    split <;> rfl

/-- Settles O53: the other run's state is this one's with that register and, after its `RD`, the response replaced. -/
theorem uninterpretedRegistersMatterToNothing : Obligations.UninterpretedRegistersMatterToNothing := by
  intro r hr v i s t hexec
  obtain ⟨effect, hperform, hshows⟩ := exec_performs_regShowsOnlyInItsRead hr i
  rw [hperform, State.perform_next] at hexec
  obtain ⟨hfault, rfl⟩ := hexec
  obtain ⟨w, x, hother, hrsp⟩ := hshows s v
  refine ⟨((effect s).withReg r w).withRsp x, ?_, ?_, hrsp⟩
  · rw [hperform, State.perform_ok (s := s.withReg r v) hfault, hother]
  · change (((effect s).withReg r w).withReg r 0).withRsp ⟨none, none⟩ = _
    rw [withReg_withReg]

end Sys2Proof.Machine
end
